-- ==== Sys2Proof/Word.lean ====
section
/-!
DEFINITION. The plainest types of the BLS12-381 arithmetic core: bytes, command words and the
4-bit register indices (30_encoding.md R110, R112).
-/

namespace Sys2Proof

/-- A byte of IOBUF (20_memory.md R71). -/
abbrev Byte := BitVec 8

/-- A 32-bit word of the host bus; a command is one such word (30_encoding.md R110, R120). -/
abbrev Word32 := BitVec 32

/-- A 4-bit register index, 0..15. The opcode fixes which file it indexes (30_encoding.md R112). -/
abbrev RegIdx := Fin 16

/-- The 12-bit unscaled IOBUF byte offset of a command (30_encoding.md R114). -/
abbrev BufOff := BitVec 12

/-- A byte offset of the 8192-byte host window (20_memory.md R70). -/
abbrev HostOff := BitVec 13

end Sys2Proof
end

