-- ==== Sys2Proof/Machine/Params.lean ====
section
/-!
DEFINITION. The numeric constants built into the core (00_scope.md R7-R14) and the two field types.
-/

namespace Sys2Proof.Machine

/-- Base-field modulus p, 381 bits (00_scope.md R8; 90_conflicts.md C1). -/
def p : Nat :=
  0x1a0111ea397fe69a4b1ba7b6434bacd764774b84f38512bf6730d2a0f6b0f6241eabfffeb153ffffb9feffffffffaaab

/-- Scalar-field modulus r, 255 bits (00_scope.md R9). -/
def r : Nat := 0x73eda753299d7d483339d80809a1d80553bda402fffe5bfeffffffff00000001

theorem p_pos : 0 < p := by decide
theorem r_pos : 0 < r := by decide

/-- An element of Fp. An F register holds a STORED (Montgomery) element, an A register and a point
hold canonical VALUES; `valF` and `montF` convert (00_scope.md R19, 10_state.md R41, R46). -/
abbrev Fp := Fin p

/-- An element of the Scalar field; an S register holds a stored one (10_state.md R42). -/
abbrev Fr := Fin r

/-- The least non-negative residue modulo p as an element of Fp (00_scope.md R17). -/
def toFp (v : Nat) : Fp := ⟨v % p, Nat.mod_lt v p_pos⟩

/-- The least non-negative residue modulo r as a Scalar element. -/
def toFr (v : Nat) : Fr := ⟨v % r, Nat.mod_lt v r_pos⟩

/-- RP = 2^384, the Montgomery radix of Fp (00_scope.md R10). -/
def rp : Nat := 2 ^ 384

/-- RP⁻¹ mod p (95_test_vectors.md section 0), the factor of R19's valF. -/
def rpInv : Nat :=
  0x14fec701e8fb0ce9ed5e64273c4f538b1797ab1458a88de9343ea97914956dc87fe11274d898fafbf4d38259380b4820

/-- RP2 = 2^768 mod p (00_scope.md R10). -/
def rp2 : Nat :=
  0x11988fe592cae3aa9a793e85b519952d67eb88a9939d83c08de5476c4c95b6d50a76e6a609d104f1f4df1f341c341746

/-- PINV = −p⁻¹ mod 2^64 (00_scope.md R10, 40_fp.md R140). -/
def pInv64 : Nat := 0x89f3fffcfffcfffd

/-- RS = 2^256, the Montgomery radix of the Scalar field (00_scope.md R10). -/
def rs : Nat := 2 ^ 256

/-- RS⁻¹ mod r (95_test_vectors.md section 0). -/
def rsInv : Nat := 0x1bbe869330009d577204078a4f77266aab6fca8f09dc705f13f75b69fe75c040

/-- RS2 = 2^512 mod r (00_scope.md R10). -/
def rs2 : Nat := 0x0748d9d99f59ff1105d314967254398f2b6cedcb87925c23c999e990f3f29c6d

/-- RS3 = 2^768 mod r (00_scope.md R10). -/
def rs3 : Nat := 0x6e2a5bb9c8db33e973d13c71c7b5f4181b3e0d188cf06990c62c1807439b73af

/-- RINV = −r⁻¹ mod 2^64 (00_scope.md R10). -/
def rInv64 : Nat := 0xfffffffeffffffff

/-- HALF_P = (p−1)/2 (00_scope.md R10, R21). -/
def halfP : Nat :=
  0xd0088f51cbff34d258dd3db21a5d66bb23ba5c279c2895fb39869507b587b120f55ffff58a9ffffdcff7fffffffd555

/-- HALF_R = (r−1)/2 (00_scope.md R10). -/
def halfR : Nat := 0x39f6d3a994cebea4199cec0404d0ec02a9ded2017fff2dff7fffffff80000000

/-- SQRT_EXP_P = (p+1)/4 (00_scope.md R10, 40_fp.md R149). -/
def sqrtExpP : Nat :=
  0x680447a8e5ff9a692c6e9ed90d2eb35d91dd2e13ce144afd9cc34a83dac3d8907aaffffac54ffffee7fbfffffffeaab

/-- The curve constant B = 4 of E : y² = x³ + 4 (00_scope.md R11). -/
def curveB : Fp := toFp 4

/-- 3·B = 12, the constant of the complete formulas (00_scope.md R11). -/
def curveB3 : Fp := toFp 12

/-- |x| of the curve seed x = −0xd201000000010000 (00_scope.md R12). -/
def seedAbs : Nat := 0xd201000000010000

/-- β, the cube root of unity of the endomorphism (00_scope.md R13). -/
def beta : Fp := toFp
  0x5f19672fdf76ce51ba69c6076a0f77eaddb3a93be6f89688de17d813620a00022e01fffffffefffe

/-- Gx, the x coordinate of the generator (00_scope.md R14). -/
def genX : Fp := toFp
  0x17f1d3a73197d7942695638c4fa9ac0fc3688c4f9774b905a14e3a3f171bac586c55e83ff97a1aeffb3af00adb22c6bb

/-- Gy, the y coordinate of the generator (00_scope.md R14). -/
def genY : Fp := toFp
  0x08b3f481e3aaa0f1a09e30ed741d8ae4fcf5e095d5d00af600db18cb2c04b3edd03cc744a2888ae40caa232946c5e7e1

/-- IOBUF_SIZE, 4096 bytes (00_scope.md R7, 10_state.md R50). -/
def bufSize : Nat := 4096

/-- The ID register's constant, "BLS1" (20_memory.md R78). -/
def idWord : Word32 := 0x424C5331

/-- The VERSION register's constant, major 1, minor 0 (20_memory.md R78). -/
def versionWord : Word32 := 0x00010000

end Sys2Proof.Machine
end

