-- ==== Sys2Proof/Machine/Field.lean ====
section
/-!
DEFINITION. The field datapath units (40_fp.md Part 1, 41_scalar.md Part 1), parametrised by the
modulus m; the stored values of a unit are the elements of `Fin m`, so c < m holds by type.
-/

namespace Sys2Proof.Machine

/-- ModAdd_m: the sum, with m subtracted when there is no borrow (40_fp.md R145). -/
def modAdd {m : Nat} (a b : Fin m) : Fin m :=
  if h : a.val + b.val < m then ⟨a.val + b.val, h⟩ else ⟨a.val + b.val - m, by omega⟩

/-- ModSub_m: the difference, with m added when there is a borrow (40_fp.md R146). -/
def modSub {m : Nat} (a b : Fin m) : Fin m :=
  if h : a.val < b.val then ⟨a.val + m - b.val, by omega⟩ else ⟨a.val - b.val, by omega⟩

/-- ModNeg_m: m − a, and 0 for a = 0 (40_fp.md R147). -/
def modNeg {m : Nat} (a : Fin m) : Fin m := if h : a.val = 0 then a else ⟨m - a.val, by omega⟩

/-- ModDbl_m (41_scalar.md R201). -/
def modDbl {m : Nat} (a : Fin m) : Fin m := modAdd a a

/-- MontMul_p(a, b) = a·b·RP⁻¹ mod p, the closed form (40_fp.md R144); any natural numbers. -/
def montMulF (a b : Nat) : Fp := toFp (a * b * rpInv)

/-- MontMul_r(a, b) = a·b·RS⁻¹ mod r (41_scalar.md R200). -/
def montMulS (a b : Nat) : Fr := toFr (a * b * rsInv)

/-- valF(s) = s·RP⁻¹ mod p = MontMul_p(s, 1) (00_scope.md R19, 40_fp.md R144). -/
def valF (s : Fp) : Fp := montMulF s.val 1

/-- montF(v) = v·RP mod p = MontMul_p(v, RP2) (00_scope.md R19, 40_fp.md R144). -/
def montF (v : Fp) : Fp := montMulF v.val rp2

/-- valS(s) = s·RS⁻¹ mod r (00_scope.md R19, 41_scalar.md R200). -/
def valS (s : Fr) : Fr := montMulS s.val 1

/-- montS(v) = v·RS mod r (00_scope.md R19, 41_scalar.md R200). -/
def montS (v : Fr) : Fr := montMulS v.val rs2

/-- b^e mod m over the `bits` low bits of e, most significant first: one squaring a bit, and a
multiplication where it is 1. Gives 1 for e = 0, for every b (92_eei_decisions.md D17). -/
def powMod (m b : Nat) : Nat → Nat → Nat
  | 0, _ => 1 % m
  | k + 1, e =>
    let h := powMod m b k (e / 2)
    if e % 2 = 1 then h * h % m * b % m else h * h % m

theorem powMod_lt {m : Nat} (hm : 0 < m) (b bits e : Nat) : powMod m b bits e < m := by
  cases bits with
  | zero => exact Nat.mod_lt _ hm
  | succ k => simp only [powMod]; split <;> exact Nat.mod_lt _ hm

/-- The power of a field element, for an exponent below 2^bits. -/
def modPow {m : Nat} (bits : Nat) (b : Fin m) (e : Nat) : Fin m :=
  ⟨powMod m b.val bits e, powMod_lt (Nat.lt_of_le_of_lt (Nat.zero_le _) b.isLt) _ _ _⟩

/-- The inverse of a value of Fp by Fermat, u^(p−2); 0 for u = 0 (40_fp.md R148). -/
def fpInv (u : Fp) : Fp := modPow 384 u (p - 2)

/-- The inverse of a Scalar value by Fermat, u^(r−2) (41_scalar.md R202). -/
def frInv (u : Fr) : Fr := modPow 256 u (r - 2)

/-- ModInv_p on a stored value: (c, ok) (40_fp.md R148). -/
def modInvF (a : Fp) : Fp × Bool := (montF (fpInv (valF a)), a.val != 0)

/-- ModInv_r on a stored value: (c, ok) (41_scalar.md R202). -/
def modInvS (a : Fr) : Fr × Bool := (montS (frInv (valS a)), a.val != 0)

/-- FpSqrt of a value: the candidate u^((p+1)/4), and whether it is a root (40_fp.md R149). -/
def fpSqrt (u : Fp) : Fp × Bool :=
  let cand := modPow 384 u sqrtExpP
  (cand, cand * cand == u)

/-- lex(v): the value exceeds HALF_P (00_scope.md R21, 40_fp.md R161). -/
def lexF (v : Fp) : Bool := halfP < v.val

/-- The Scalar form of lex, with threshold HALF_R (41_scalar.md R216). -/
def lexS (v : Fr) : Bool := halfR < v.val

/-! ### The Scalar square root (41_scalar.md R203; the method is free, DESIGN CHOICE, log 14) -/

/-- t, the odd part of r − 1 = 2^32·t (00_scope.md R9). -/
def oddPart : Nat := (r - 1) / 2 ^ 32

/-- u squared k times. -/
def squareTimes (u : Fr) : Nat → Fr
  | 0 => u
  | k + 1 => squareTimes (u * u) k

/-- Tonelli-Shanks with a fixed number of rounds. In round k: x² = u·b, b^(2^k) = 1 and
c^(2^k) = −1; the round makes b^(2^(k−1)) = 1. -/
def tonelli : Nat → Fr → Fr → Fr → Fr
  | 0, x, _, _ => x
  | k + 1, x, b, c =>
    if squareTimes b k = toFr 1 then tonelli k x b (c * c)
    else tonelli k (x * c) (b * (c * c)) (c * c)

/-- ScSqrt of a value: Euler's criterion, and the root that is at most HALF_R (41_scalar.md R203).
5 is a non-residue modulo r (R203). -/
def scSqrt (u : Fr) : Fr × Bool :=
  let ok := u == toFr 0 || modPow 256 u ((r - 1) / 2) == toFr 1
  let y := tonelli 31 (modPow 256 u ((oddPart + 1) / 2)) (modPow 256 u oddPart)
    (modPow 256 (toFr 5) oddPart)
  (if ok then (if lexS y then modNeg y else y) else toFr 0, ok)

end Sys2Proof.Machine
end

