-- ==== Sys2Proof/Syntax.lean ====
section
/-!
DEFINITION. The commands of the core: one constructor per row of spec/opcode_table.json
(30_encoding.md R110-R116), the twelve formats, the command errors, and the pseudo-instructions.
-/

namespace Sys2Proof

/-- The twelve command formats (30_encoding.md R111). -/
inductive Format
  | z | r3 | r2 | r1d | r1a | r2ab | i | ml | ms | mx | n | n2
deriving DecidableEq, Repr

/-- The opcode groups (30_encoding.md R116, last line). -/
inductive Family
  | control | fp | scalar | projective | affine
deriving DecidableEq, Repr

/-- The commands. `d`, `a`, `b` are the D, A and B fields, `imm` is IMM, `off` is OFF, and `n` is the
N field, the count LESS ONE (30_encoding.md R110, R115). The prefix of each operand in the docstring's
assembler form names the register file the opcode selects (R112, R122). -/
inductive Instr
  -- 44_control.md: control and flags
  /-- `NOP`, opcode 0x00, format Z (R350). -/
  | nop
  /-- `TNOT`, opcode 0x01, format Z (R351). -/
  | tnot
  /-- `ASET`, opcode 0x02, format Z (R352). -/
  | aset
  /-- `TACC`, opcode 0x03, format Z (R353). -/
  | tacc
  -- 40_fp.md: Fp
  /-- `FSETI fd, imm`, opcode 0x10, format I (R150). -/
  | fseti (d : RegIdx) (imm : BitVec 16)
  /-- `FMOV fd, fa`, opcode 0x11, format R2 (R151). -/
  | fmov (d a : RegIdx)
  /-- `FADD fd, fa, fb`, opcode 0x12, format R3 (R152). -/
  | fadd (d a b : RegIdx)
  /-- `FSUB fd, fa, fb`, opcode 0x13, format R3 (R153). -/
  | fsub (d a b : RegIdx)
  /-- `FNEG fd, fa`, opcode 0x14, format R2 (R154). -/
  | fneg (d a : RegIdx)
  /-- `FMUL fd, fa, fb`, opcode 0x15, format R3 (R155). -/
  | fmul (d a b : RegIdx)
  /-- `FSQR fd, fa`, opcode 0x16, format R2 (R156). -/
  | fsqr (d a : RegIdx)
  /-- `FPOW fd, fa, off`, opcode 0x17, format MX (R157). -/
  | fpow (d a : RegIdx) (off : BufOff)
  /-- `FINV fd, fa`, opcode 0x18, format R2 (R158). -/
  | finv (d a : RegIdx)
  /-- `FSQRT fd, fa`, opcode 0x19, format R2 (R159). -/
  | fsqrt (d a : RegIdx)
  /-- `FISZ fa`, opcode 0x1A, format R1A (R160). -/
  | fisz (a : RegIdx)
  /-- `FLEX fa`, opcode 0x1B, format R1A (R161). -/
  | flex (a : RegIdx)
  /-- `FEQ fa, fb`, opcode 0x1C, format R2AB (R162). -/
  | feq (a b : RegIdx)
  /-- `FSEL fd, fa, fb`, opcode 0x1D, format R3 (R163). -/
  | fsel (d a b : RegIdx)
  /-- `FSOP fd, fa, fb, n`, opcode 0x1E, format N (R164). -/
  | fsop (d a b n : RegIdx)
  /-- `FLDB fd, off`, opcode 0x1F, format ML (R165). -/
  | fldb (d : RegIdx) (off : BufOff)
  /-- `FSTB fa, off`, opcode 0x20, format MS (R166). -/
  | fstb (a : RegIdx) (off : BufOff)
  /-- `FLDM fd, off`, opcode 0x21, format ML (R167). -/
  | fldm (d : RegIdx) (off : BufOff)
  /-- `FSTM fa, off`, opcode 0x22, format MS (R168). -/
  | fstm (a : RegIdx) (off : BufOff)
  -- 41_scalar.md: Scalar
  /-- `SSETI sd, imm`, opcode 0x40, format I (R205). -/
  | sseti (d : RegIdx) (imm : BitVec 16)
  /-- `SMOV sd, sa`, opcode 0x41, format R2 (R206). -/
  | smov (d a : RegIdx)
  /-- `SADD sd, sa, sb`, opcode 0x42, format R3 (R207). -/
  | sadd (d a b : RegIdx)
  /-- `SSUB sd, sa, sb`, opcode 0x43, format R3 (R208). -/
  | ssub (d a b : RegIdx)
  /-- `SNEG sd, sa`, opcode 0x44, format R2 (R209). -/
  | sneg (d a : RegIdx)
  /-- `SMUL sd, sa, sb`, opcode 0x45, format R3 (R210). -/
  | smul (d a b : RegIdx)
  /-- `SSQR sd, sa`, opcode 0x46, format R2 (R211). -/
  | ssqr (d a : RegIdx)
  /-- `SPOW sd, sa, off`, opcode 0x47, format MX (R212). -/
  | spow (d a : RegIdx) (off : BufOff)
  /-- `SINV sd, sa`, opcode 0x48, format R2 (R213). -/
  | sinv (d a : RegIdx)
  /-- `SSQRT sd, sa`, opcode 0x49, format R2 (R214). -/
  | ssqrt (d a : RegIdx)
  /-- `SISZ sa`, opcode 0x4A, format R1A (R215). -/
  | sisz (a : RegIdx)
  /-- `SLEX sa`, opcode 0x4B, format R1A (R216). -/
  | slex (a : RegIdx)
  /-- `SEQ sa, sb`, opcode 0x4C, format R2AB (R217). -/
  | seq (a b : RegIdx)
  /-- `SSEL sd, sa, sb`, opcode 0x4D, format R3 (R218). -/
  | ssel (d a b : RegIdx)
  /-- `SSOP sd, sa, sb, n`, opcode 0x4E, format N (R219). -/
  | ssop (d a b n : RegIdx)
  /-- `SLDB sd, off`, opcode 0x4F, format ML (R220). -/
  | sldb (d : RegIdx) (off : BufOff)
  /-- `SSTB sa, off`, opcode 0x50, format MS (R221). -/
  | sstb (a : RegIdx) (off : BufOff)
  /-- `SLDM sd, off`, opcode 0x51, format ML (R222). -/
  | sldm (d : RegIdx) (off : BufOff)
  /-- `SSTM sa, off`, opcode 0x52, format MS (R223). -/
  | sstm (a : RegIdx) (off : BufOff)
  /-- `SDBL sd, sa`, opcode 0x53, format R2 (R224). -/
  | sdbl (d a : RegIdx)
  /-- `SLDW sd, off`, opcode 0x54, format ML (R225). -/
  | sldw (d : RegIdx) (off : BufOff)
  /-- `SLDR sd, off`, opcode 0x55, format ML (R226). -/
  | sldr (d : RegIdx) (off : BufOff)
  -- 42_g1_projective.md: G1 projective
  /-- `PID pd`, opcode 0x80, format R1D (R260). -/
  | pid (d : RegIdx)
  /-- `PGEN pd`, opcode 0x81, format R1D (R261). -/
  | pgen (d : RegIdx)
  /-- `PMOV pd, pa`, opcode 0x82, format R2 (R262). -/
  | pmov (d a : RegIdx)
  /-- `PFROMA pd, aa`, opcode 0x83, format R2 (R263). -/
  | pfroma (d a : RegIdx)
  /-- `PTOA ad, pa`, opcode 0x84, format R2 (R264). -/
  | ptoa (d a : RegIdx)
  /-- `PBNORM ad, pa, n`, opcode 0x85, format N2 (R265). -/
  | pbnorm (d a n : RegIdx)
  /-- `PADD pd, pa, pb`, opcode 0x86, format R3 (R266). -/
  | padd (d a b : RegIdx)
  /-- `PADDM pd, pa, ab`, opcode 0x87, format R3 (R267). -/
  | paddm (d a b : RegIdx)
  /-- `PDBL pd, pa`, opcode 0x88, format R2 (R268). -/
  | pdbl (d a : RegIdx)
  /-- `PNEG pd, pa`, opcode 0x89, format R2 (R269). -/
  | pneg (d a : RegIdx)
  /-- `PSUB pd, pa, pb`, opcode 0x8A, format R3 (R270). -/
  | psub (d a b : RegIdx)
  /-- `PMUL pd, pa, sb`, opcode 0x8B, format R3 (R271). -/
  | pmul (d a b : RegIdx)
  /-- `PMULX pd, pa`, opcode 0x8C, format R2 (R272). -/
  | pmulx (d a : RegIdx)
  /-- `PCLR pd, pa`, opcode 0x8D, format R2 (R273). -/
  | pclr (d a : RegIdx)
  /-- `PEQ pa, pb`, opcode 0x8E, format R2AB (R274). -/
  | peq (a b : RegIdx)
  /-- `PISID pa`, opcode 0x8F, format R1A (R275). -/
  | pisid (a : RegIdx)
  /-- `PSEL pd, pa, pb`, opcode 0x90, format R3 (R276). -/
  | psel (d a b : RegIdx)
  -- 43_g1_affine_codec.md: G1 affine and codec
  /-- `AID ad`, opcode 0xA0, format R1D (R310). -/
  | aid (d : RegIdx)
  /-- `AGEN ad`, opcode 0xA1, format R1D (R311). -/
  | agen (d : RegIdx)
  /-- `AMOV ad, aa`, opcode 0xA2, format R2 (R312). -/
  | amov (d a : RegIdx)
  /-- `ANEG ad, aa`, opcode 0xA3, format R2 (R313). -/
  | aneg (d a : RegIdx)
  /-- `AENDO ad, aa`, opcode 0xA4, format R2 (R314). -/
  | aendo (d a : RegIdx)
  /-- `AONC aa`, opcode 0xA5, format R1A (R315). -/
  | aonc (a : RegIdx)
  /-- `ATORS aa`, opcode 0xA6, format R1A (R316). -/
  | ators (a : RegIdx)
  /-- `AEQ aa, ab`, opcode 0xA7, format R2AB (R317). -/
  | aeq (a b : RegIdx)
  /-- `AISID aa`, opcode 0xA8, format R1A (R318). -/
  | aisid (a : RegIdx)
  /-- `ASEL ad, aa, ab`, opcode 0xA9, format R3 (R319). -/
  | asel (d a b : RegIdx)
  /-- `ASTC aa, off`, opcode 0xAA, format MS (R320). -/
  | astc (a : RegIdx) (off : BufOff)
  /-- `ASTU aa, off`, opcode 0xAB, format MS (R321). -/
  | astu (a : RegIdx) (off : BufOff)
  /-- `ALDC ad, off`, opcode 0xAC, format ML (R322). -/
  | aldc (d : RegIdx) (off : BufOff)
  /-- `ALDCU ad, off`, opcode 0xAD, format ML (R323). -/
  | aldcu (d : RegIdx) (off : BufOff)
  /-- `ALDU ad, off`, opcode 0xAE, format ML (R324). -/
  | aldu (d : RegIdx) (off : BufOff)
  /-- `ALDUU ad, off`, opcode 0xAF, format ML (R325). -/
  | alduu (d : RegIdx) (off : BufOff)
deriving DecidableEq, Repr

/-- The command errors, in the order of their codes 0x01-0x06 (60_exceptions.md R362). -/
inductive CmdError
  /-- 0x01: the opcode is unassigned (30_encoding.md R117). -/
  | illegalOp
  /-- 0x02: a must-be-zero bit is 1 (30_encoding.md R118). -/
  | reserved
  /-- 0x03: OFF + n > 4096 (20_memory.md R72). -/
  | rangeBuf
  /-- 0x04: a register range runs past index 15 (30_encoding.md R115). -/
  | rangeReg
  /-- 0x05: CMD written while a command is in flight (60_exceptions.md R367). -/
  | cmdBusy
  /-- 0x06: IOBUF or FLAGS written while a command is in flight (60_exceptions.md R367). -/
  | hostBusy
deriving DecidableEq, Repr

/-- The pseudo-instructions (30_encoding.md R123). -/
inductive Pseudo
  | fzero (d : RegIdx)
  | fone (d : RegIdx)
  | fdbl (d a : RegIdx)
  | szero (d : RegIdx)
  | sone (d : RegIdx)
deriving DecidableEq, Repr

end Sys2Proof
end

