-- ==== Sys2Proof/Machine/State.lean ====
section
/-!
DEFINITION. The state of the core (10_state.md) as plain data, the host's moves, the reasons a step
can stop, and the state after reset (10_state.md R56).
-/

namespace Sys2Proof.Machine

/-- A point of E(Fp) ∪ {O}: the identity O, or an affine pair of canonical values
(00_scope.md R15, 10_state.md R43). -/
inductive Point
  | infinity
  | affine (x y : Fp)
deriving DecidableEq, Repr

/-- The architectural value of a P register: the point its hidden triple represents, or JUNK
(10_state.md R43-R45; DESIGN CHOICE, log 1). -/
inductive PVal
  | pt (q : Point)
  | junk
deriving DecidableEq, Repr

/-- The value (x, y, inf) of an A register, with canonical coordinates (10_state.md R46). -/
structure Affine where
  x : Fp
  y : Fp
  inf : Bool
deriving DecidableEq, Repr

/-- ID = (0, 1, 1), the canonical affine identity (43_g1_affine_codec.md R300). -/
def Affine.id : Affine := ⟨toFp 0, toFp 1, true⟩

/-- IOBUF as the list of its non-zero bytes, addresses strictly rising: a byte that is not listed
reads 0x00, the reset contents (10_state.md R50, R56). -/
abbrev Memory := List Host.Cell

/-- The canonical form from address `lo` on: addresses rise, lie in IOBUF, and no listed byte is 0. -/
def Memory.wfFrom : Nat → Memory → Bool
  | _, [] => true
  | lo, (a, v) :: rest => decide (lo ≤ a) && decide (a < 4096) && v != 0#8 && wfFrom (a + 1) rest

/-- The canonical form of IOBUF: equal buffers are equal lists. -/
def Memory.wf (m : Memory) : Bool := Memory.wfFrom 0 m

/-- The width of a host bus access; the core accepts 32 bits only (20_memory.md R75). -/
inductive AccessWidth
  | byte | half | word
deriving DecidableEq, Repr

/-- A host access reads, or writes the data word. -/
inductive AccessKind
  | read
  | write (data : Word32)
deriving DecidableEq, Repr

/-- One access of the host on the host bus, at a byte offset of the host window (20_memory.md R70, R74). -/
structure Access where
  offset : HostOff
  width : AccessWidth
  kind : AccessKind
deriving DecidableEq, Repr

/-- One move of the interleaving of 10_state.md R40 (DESIGN CHOICE, log 4). -/
inductive Event
  /-- The engine takes its step. -/
  | engine
  /-- The host makes an access. -/
  | host (a : Access)
  /-- The platform's reset input is asserted and released (70_reset_and_hazards.md R400; DESIGN CHOICE, log 7). -/
  | hardReset
deriving DecidableEq, Repr

/-- What the core answers to a host access on the bus: the read data (0 for a write and for a bus
error) and whether it is the bus error response (20_memory.md R75, R88; DESIGN CHOICE, log 5). -/
structure Response where
  data : Word32
  busError : Bool
deriving DecidableEq, Repr

/-- The state of the core: 10_state.md R41-R52 and R56. The last three fields are the model's own. -/
structure State where
  /-- F0..F15: stored (Montgomery) values s < p (R41). -/
  freg : Vector Fp 16
  /-- S0..S15: stored (Montgomery) values s < r (R42). -/
  sreg : Vector Fr 16
  /-- P0..P15: architectural values (R43). -/
  preg : Vector PVal 16
  /-- A0..A15 (R46). -/
  areg : Vector Affine 16
  /-- IOBUF (R50). -/
  iobuf : Memory
  /-- Flag T (R47). -/
  t : Bool
  /-- Flag ACC (R47). -/
  acc : Bool
  /-- CTRL.IE_DONE (R51). -/
  ieDone : Bool
  /-- CTRL.IE_ERR (R51). -/
  ieErr : Bool
  /-- STATUS.BUSY (R51). -/
  busy : Bool
  /-- STATUS.DONE (R51). -/
  done : Bool
  /-- STATUS.ERR (R51). -/
  err : Bool
  /-- STATUS.ERRCODE (R51). -/
  errCode : BitVec 8
  /-- ERRINFO (R51). -/
  errInfo : Word32
  /-- CMDCNT (R51). -/
  cmdcnt : Word32
  /-- CUR, the command word in flight (R52). -/
  cur : Option Word32
  /-- MODEL'S OWN: the moves still to come, the next one first; when it is empty the engine moves
  whenever it can (DESIGN CHOICE, log 4). -/
  agenda : List Event
  /-- MODEL'S OWN: the core's answer to the host's last access (DESIGN CHOICE, log 5). -/
  response : Option Response
  /-- MODEL'S OWN: how many values have been drawn, the argument of the next free value (DESIGN CHOICE, log 2). -/
  draws : Nat
deriving DecidableEq, Repr

/-- Why the machine can stop with a fault. The spec's core has none (60_exceptions.md R368): both are
raised by `step` alone, only in states that no run reaches, and both are SAFE (DESIGN CHOICE, log 8). -/
inductive Fault
  /-- Raised by `step` when BUSY = 1 and CUR holds no word. SAFE. -/
  | busyWithoutCommand
  /-- Raised by `step` when CUR holds a word the acceptance check refuses. SAFE. -/
  | commandNotAccepted
deriving DecidableEq, Repr

/-- Why an instruction can be refused. -/
inductive Refusal
  /-- Raised by `exec` for an instruction without a meaning; no arm does. SAFE. -/
  | notModelled (mnemonic : String)
deriving DecidableEq, Repr

/-- The state right after reset (10_state.md R56, 70_reset_and_hazards.md R400, R401). The model's own
fields: no move placed, no access answered, nothing drawn (log 2, 4, 5). -/
def State.reset : State where
  freg := Vector.replicate 16 (toFp 0)
  sreg := Vector.replicate 16 (toFr 0)
  preg := Vector.replicate 16 (.pt .infinity)
  areg := Vector.replicate 16 Affine.id
  iobuf := []
  t := false
  acc := true
  ieDone := false
  ieErr := false
  busy := false
  done := false
  err := false
  errCode := 0
  errInfo := 0
  cmdcnt := 0
  cur := none
  agenda := []
  response := none
  draws := 0

/-- What a meaning answers: a next state; no meaning of this core stops. -/
abbrev Result := Host.Outcome State Fault Refusal

end Sys2Proof.Machine
end

