-- ==== Sys2Proof/Machine/Group.lean ====
section
/-!
DEFINITION. The group E(Fp) : y² = x³ + 4 on canonical values (00_scope.md R11, R15, R16), the scalar
multiplier (42_g1_projective.md R254), JUNK (R255), the endomorphism and the subgroup test
(43_g1_affine_codec.md R300-R303).
-/

namespace Sys2Proof.Machine

/-- y² = x³ + 4 in Fp (00_scope.md R11). -/
def onCurve (x y : Fp) : Bool := y * y == x * x * x + curveB

/-- ⊖Q (00_scope.md R15). -/
def Point.neg : Point → Point
  | .infinity => .infinity
  | .affine x y => .affine x (modNeg y)

/-- The third point of the chord or tangent of slope l through (x1, y1) and x2, negated
(00_scope.md R15). -/
def chordPoint (l x1 y1 x2 : Fp) : Point :=
  let x3 := l * l - x1 - x2
  .affine x3 (l * (x1 - x3) - y1)

/-- Q1 ⊕ Q2, the chord-and-tangent law (00_scope.md R15). -/
def Point.add : Point → Point → Point
  | .infinity, q => q
  | q, .infinity => q
  | .affine x1 y1, .affine x2 y2 =>
    if x1 = x2 then
      if y1 + y2 = toFp 0 then .infinity
      else chordPoint (toFp 3 * (x1 * x1) * fpInv (toFp 2 * y1)) x1 y1 x2
    else chordPoint ((y2 - y1) * fpInv (x2 - x1)) x1 y1 x2

/-- Q ⊕ Q. -/
def Point.dbl (q : Point) : Point := q.add q

/-- Q1 ⊕ ⊖Q2. -/
def Point.sub (q1 q2 : Point) : Point := q1.add q2.neg

/-- k·Q = Q ⊕ … ⊕ Q, k terms (00_scope.md R16). -/
def Point.nsmul (q : Point) : Nat → Point
  | 0 => .infinity
  | k + 1 => (q.nsmul k).add q

/-- The ladder from accumulator `acc` over the bits L−1 .. 0 of k (42_g1_projective.md R254). -/
def ladderFrom (q : Point) (k : Nat) : Nat → Point → Point
  | 0, acc => acc
  | i + 1, acc =>
    let acc := acc.dbl
    let sum := acc.add q
    ladderFrom q k i (if k.testBit i then sum else acc)

/-- Ladder(Q, k, L): double-and-add over L bits, most significant first (42_g1_projective.md R254). -/
def ladder (q : Point) (k l : Nat) : Point := ladderFrom q k l .infinity

/-- x·Q for the seed x = −|x|: the ladder over 64 bits, negated (42_g1_projective.md R272). -/
def Point.mulX (q : Point) : Point := (ladder q seedAbs 64).neg

/-- (1 − x)·Q, computed as Q ⊕ ⊖(x·Q) (42_g1_projective.md R273). -/
def Point.clearCofactor (q : Point) : Point := q.sub q.mulX

/-- The generator G (00_scope.md R14). -/
def generator : Point := .affine genX genY

/-- The affine generator (Gx, Gy, 0) (43_g1_affine_codec.md R311). -/
def affineGenerator : Affine := ⟨genX, genY, false⟩

/-! ### JUNK (10_state.md R45, 42_g1_projective.md R255) -/

/-- A point unit with one operand: JUNK gives JUNK. -/
def PVal.map (f : Point → Point) : PVal → PVal
  | .pt q => .pt (f q)
  | .junk => .junk

/-- A point unit with two operands: a JUNK operand gives JUNK. -/
def PVal.map2 (f : Point → Point → Point) : PVal → PVal → PVal
  | .pt q1, .pt q2 => .pt (f q1 q2)
  | _, _ => .junk

/-- The projective value of an affine one; off the curve it is JUNK (42_g1_projective.md R263). -/
def fromAffine (a : Affine) : PVal :=
  if a.inf then .pt .infinity
  else if onCurve a.x a.y then .pt (.affine a.x a.y)
  else .junk

/-- Mixed addition: exactly the left operand when inf = 1 (42_g1_projective.md R253, R267). -/
def addMixed (v : PVal) (a : Affine) : PVal :=
  if a.inf then v
  else if !onCurve a.x a.y then .junk
  else v.map2 Point.add (.pt (.affine a.x a.y))

/-! ### Affine values (43_g1_affine_codec.md R300-R303) -/

/-- OnCurve(x, y, inf) (R301). -/
def Affine.onCurve (a : Affine) : Bool := a.inf || Machine.onCurve a.x a.y

/-- pt_of(A) (R300). -/
def Affine.toPoint (a : Affine) : Point := if a.inf then .infinity else .affine a.x a.y

/-- The affine form of a point, with the canonical identity (42_g1_projective.md R264). -/
def Point.toAffine : Point → Affine
  | .infinity => Affine.id
  | .affine x y => ⟨x, y, false⟩

/-- Equality of affine values: the flag dominates (R300, R317). -/
def Affine.equals (a b : Affine) : Bool :=
  (a.inf && b.inf) || (!a.inf && !b.inf && a.x == b.x && a.y == b.y)

/-- Affine negation; the identity stays canonical (R313). -/
def Affine.neg (a : Affine) : Affine := if a.inf then Affine.id else ⟨a.x, modNeg a.y, false⟩

/-- Phi(x, y, inf) = (β·x, y, inf) (R302). -/
def Affine.endo (a : Affine) : Affine := ⟨beta * a.x, a.y, a.inf⟩

/-- TorsionFree(A): ⊖(x·(x·Q)) = pt_of(Phi(A)) (R303). -/
def Affine.torsionFree (a : Affine) : Bool := a.toPoint.mulX.mulX.neg == a.endo.toPoint

end Sys2Proof.Machine
end

