-- ==== Sys2Proof/Machine/Formats.lean ====
section
/-!
DEFINITION. The columns of the opcode map (30_encoding.md R116): each command's opcode, format,
transfer length, family and mnemonic, the formats' must-be-zero masks (R111) and the range checks
on the operands (R114, R115, 20_memory.md R72).
-/

namespace Sys2Proof.Machine

/-- The OP field of a command (30_encoding.md R116, column "opcode"). `FSTB` is 0x20, as R116, the opcode table
and the text and Example of 40_fp.md R166 have it, against the bit pattern R166 prints, whose OP field is
`FSETI`'s 0x10 (DESIGN CHOICE, log 22). -/
def opcodeOf : Instr → BitVec 8
  | .nop => 0x00
  | .tnot => 0x01
  | .aset => 0x02
  | .tacc => 0x03
  | .fseti _ _ => 0x10
  | .fmov _ _ => 0x11
  | .fadd _ _ _ => 0x12
  | .fsub _ _ _ => 0x13
  | .fneg _ _ => 0x14
  | .fmul _ _ _ => 0x15
  | .fsqr _ _ => 0x16
  | .fpow _ _ _ => 0x17
  | .finv _ _ => 0x18
  | .fsqrt _ _ => 0x19
  | .fisz _ => 0x1A
  | .flex _ => 0x1B
  | .feq _ _ => 0x1C
  | .fsel _ _ _ => 0x1D
  | .fsop _ _ _ _ => 0x1E
  | .fldb _ _ => 0x1F
  | .fstb _ _ => 0x20
  | .fldm _ _ => 0x21
  | .fstm _ _ => 0x22
  | .sseti _ _ => 0x40
  | .smov _ _ => 0x41
  | .sadd _ _ _ => 0x42
  | .ssub _ _ _ => 0x43
  | .sneg _ _ => 0x44
  | .smul _ _ _ => 0x45
  | .ssqr _ _ => 0x46
  | .spow _ _ _ => 0x47
  | .sinv _ _ => 0x48
  | .ssqrt _ _ => 0x49
  | .sisz _ => 0x4A
  | .slex _ => 0x4B
  | .seq _ _ => 0x4C
  | .ssel _ _ _ => 0x4D
  | .ssop _ _ _ _ => 0x4E
  | .sldb _ _ => 0x4F
  | .sstb _ _ => 0x50
  | .sldm _ _ => 0x51
  | .sstm _ _ => 0x52
  | .sdbl _ _ => 0x53
  | .sldw _ _ => 0x54
  | .sldr _ _ => 0x55
  | .pid _ => 0x80
  | .pgen _ => 0x81
  | .pmov _ _ => 0x82
  | .pfroma _ _ => 0x83
  | .ptoa _ _ => 0x84
  | .pbnorm _ _ _ => 0x85
  | .padd _ _ _ => 0x86
  | .paddm _ _ _ => 0x87
  | .pdbl _ _ => 0x88
  | .pneg _ _ => 0x89
  | .psub _ _ _ => 0x8A
  | .pmul _ _ _ => 0x8B
  | .pmulx _ _ => 0x8C
  | .pclr _ _ => 0x8D
  | .peq _ _ => 0x8E
  | .pisid _ => 0x8F
  | .psel _ _ _ => 0x90
  | .aid _ => 0xA0
  | .agen _ => 0xA1
  | .amov _ _ => 0xA2
  | .aneg _ _ => 0xA3
  | .aendo _ _ => 0xA4
  | .aonc _ => 0xA5
  | .ators _ => 0xA6
  | .aeq _ _ => 0xA7
  | .aisid _ => 0xA8
  | .asel _ _ _ => 0xA9
  | .astc _ _ => 0xAA
  | .astu _ _ => 0xAB
  | .aldc _ _ => 0xAC
  | .aldcu _ _ => 0xAD
  | .aldu _ _ => 0xAE
  | .alduu _ _ => 0xAF

/-- The format of a command (30_encoding.md R116, column "format"). -/
def formatOf : Instr → Format
  | .nop | .tnot | .aset | .tacc => .z
  | .fseti _ _ | .sseti _ _ => .i
  | .fmov _ _ | .fneg _ _ | .fsqr _ _ | .finv _ _ | .fsqrt _ _ | .smov _ _ | .sneg _ _
  | .ssqr _ _ | .sinv _ _ | .ssqrt _ _ | .sdbl _ _ | .pmov _ _ | .pfroma _ _ | .ptoa _ _
  | .pdbl _ _ | .pneg _ _ | .pmulx _ _ | .pclr _ _ | .amov _ _ | .aneg _ _ | .aendo _ _ => .r2
  | .fadd _ _ _ | .fsub _ _ _ | .fmul _ _ _ | .fsel _ _ _ | .sadd _ _ _ | .ssub _ _ _
  | .smul _ _ _ | .ssel _ _ _ | .padd _ _ _ | .paddm _ _ _ | .psub _ _ _ | .pmul _ _ _
  | .psel _ _ _ | .asel _ _ _ => .r3
  | .fpow _ _ _ | .spow _ _ _ => .mx
  | .fisz _ | .flex _ | .sisz _ | .slex _ | .pisid _ | .aonc _ | .ators _ | .aisid _ => .r1a
  | .feq _ _ | .seq _ _ | .peq _ _ | .aeq _ _ => .r2ab
  | .fsop _ _ _ _ | .ssop _ _ _ _ => .n
  | .fldb _ _ | .fldm _ _ | .sldb _ _ | .sldm _ _ | .sldw _ _ | .sldr _ _ | .aldc _ _
  | .aldcu _ _ | .aldu _ _ | .alduu _ _ => .ml
  | .fstb _ _ | .fstm _ _ | .sstb _ _ | .sstm _ _ | .astc _ _ | .astu _ _ => .ms
  | .pid _ | .pgen _ | .aid _ | .agen _ => .r1d
  | .pbnorm _ _ _ => .n2

/-- The transfer length n in bytes; 0 for a command that does not address IOBUF
(30_encoding.md R116, column "IOBUF bytes"; 20_memory.md R85). -/
def xferLen : Instr → Nat
  | .spow _ _ _ | .sldb _ _ | .sstb _ _ | .sldm _ _ | .sstm _ _ | .sldr _ _ => 32
  | .fpow _ _ _ | .fldb _ _ | .fstb _ _ | .fldm _ _ | .fstm _ _ | .astc _ _ | .aldc _ _
  | .aldcu _ _ => 48
  | .sldw _ _ => 64
  | .astu _ _ | .aldu _ _ | .alduu _ _ => 96
  | .nop | .tnot | .aset | .tacc | .fseti _ _ | .fmov _ _ | .fadd _ _ _ | .fsub _ _ _ | .fneg _ _
  | .fmul _ _ _ | .fsqr _ _ | .finv _ _ | .fsqrt _ _ | .fisz _ | .flex _ | .feq _ _ | .fsel _ _ _
  | .fsop _ _ _ _ | .sseti _ _ | .smov _ _ | .sadd _ _ _ | .ssub _ _ _ | .sneg _ _ | .smul _ _ _
  | .ssqr _ _ | .sinv _ _ | .ssqrt _ _ | .sisz _ | .slex _ | .seq _ _ | .ssel _ _ _
  | .ssop _ _ _ _ | .sdbl _ _ | .pid _ | .pgen _ | .pmov _ _ | .pfroma _ _ | .ptoa _ _
  | .pbnorm _ _ _ | .padd _ _ _ | .paddm _ _ _ | .pdbl _ _ | .pneg _ _ | .psub _ _ _
  | .pmul _ _ _ | .pmulx _ _ | .pclr _ _ | .peq _ _ | .pisid _ | .psel _ _ _ | .aid _ | .agen _
  | .amov _ _ | .aneg _ _ | .aendo _ _ | .aonc _ | .ators _ | .aeq _ _ | .aisid _ | .asel _ _ _ => 0

/-- The opcode group of a command (30_encoding.md R116). -/
def familyOf : Instr → Family
  | .nop | .tnot | .aset | .tacc => .control
  | .fseti _ _ | .fmov _ _ | .fadd _ _ _ | .fsub _ _ _ | .fneg _ _ | .fmul _ _ _ | .fsqr _ _
  | .fpow _ _ _ | .finv _ _ | .fsqrt _ _ | .fisz _ | .flex _ | .feq _ _ | .fsel _ _ _
  | .fsop _ _ _ _ | .fldb _ _ | .fstb _ _ | .fldm _ _ | .fstm _ _ => .fp
  | .sseti _ _ | .smov _ _ | .sadd _ _ _ | .ssub _ _ _ | .sneg _ _ | .smul _ _ _ | .ssqr _ _
  | .spow _ _ _ | .sinv _ _ | .ssqrt _ _ | .sisz _ | .slex _ | .seq _ _ | .ssel _ _ _
  | .ssop _ _ _ _ | .sldb _ _ | .sstb _ _ | .sldm _ _ | .sstm _ _ | .sdbl _ _ | .sldw _ _
  | .sldr _ _ => .scalar
  | .pid _ | .pgen _ | .pmov _ _ | .pfroma _ _ | .ptoa _ _ | .pbnorm _ _ _ | .padd _ _ _
  | .paddm _ _ _ | .pdbl _ _ | .pneg _ _ | .psub _ _ _ | .pmul _ _ _ | .pmulx _ _ | .pclr _ _
  | .peq _ _ | .pisid _ | .psel _ _ _ => .projective
  | .aid _ | .agen _ | .amov _ _ | .aneg _ _ | .aendo _ _ | .aonc _ | .ators _ | .aeq _ _
  | .aisid _ | .asel _ _ _ | .astc _ _ | .astu _ _ | .aldc _ _ | .aldcu _ _ | .aldu _ _
  | .alduu _ _ => .affine

/-- The must-be-zero mask of a format (30_encoding.md R111). -/
def mbzMask : Format → Word32
  | .z => 0x00FFFFFF
  | .r3 => 0x00000FFF
  | .r2 => 0x0000FFFF
  | .r1d => 0x000FFFFF
  | .r1a => 0x00F0FFFF
  | .r2ab => 0x00F00FFF
  | .i => 0x000F0000
  | .ml => 0x000FF000
  | .ms => 0x00F0F000
  | .mx => 0x0000F000
  | .n => 0x000000FF
  | .n2 => 0x0000F0FF

/-- The element count n = N + 1, 1..16 (30_encoding.md R115). -/
def countOf (n : RegIdx) : Nat := n.val + 1

/-- A register range base .. base + n − 1 lies in its file: base + n ≤ 16 (30_encoding.md R115). -/
def rangeFits (base n : RegIdx) : Bool := base.val + countOf n ≤ 16

/-- The byte range OFF .. OFF + len − 1 lies in IOBUF; it never wraps (20_memory.md R72). -/
def bufFits (off : BufOff) (len : Nat) : Bool := off.toNat + len ≤ 4096

/-- Check 3 of 30_encoding.md R121: formats N (A and B ranges) and N2 (D and A ranges). -/
def regRangesFit : Instr → Bool
  | .fsop _ a b n | .ssop _ a b n => rangeFits a n && rangeFits b n
  | .pbnorm d a n => rangeFits d n && rangeFits a n
  | .nop | .tnot | .aset | .tacc | .fseti _ _ | .fmov _ _ | .fadd _ _ _ | .fsub _ _ _ | .fneg _ _
  | .fmul _ _ _ | .fsqr _ _ | .fpow _ _ _ | .finv _ _ | .fsqrt _ _ | .fisz _ | .flex _ | .feq _ _
  | .fsel _ _ _ | .fldb _ _ | .fstb _ _ | .fldm _ _ | .fstm _ _ | .sseti _ _ | .smov _ _
  | .sadd _ _ _ | .ssub _ _ _ | .sneg _ _ | .smul _ _ _ | .ssqr _ _ | .spow _ _ _ | .sinv _ _
  | .ssqrt _ _ | .sisz _ | .slex _ | .seq _ _ | .ssel _ _ _ | .sldb _ _ | .sstb _ _ | .sldm _ _
  | .sstm _ _ | .sdbl _ _ | .sldw _ _ | .sldr _ _ | .pid _ | .pgen _ | .pmov _ _ | .pfroma _ _
  | .ptoa _ _ | .padd _ _ _ | .paddm _ _ _ | .pdbl _ _ | .pneg _ _ | .psub _ _ _ | .pmul _ _ _
  | .pmulx _ _ | .pclr _ _ | .peq _ _ | .pisid _ | .psel _ _ _ | .aid _ | .agen _ | .amov _ _
  | .aneg _ _ | .aendo _ _ | .aonc _ | .ators _ | .aeq _ _ | .aisid _ | .asel _ _ _ | .astc _ _
  | .astu _ _ | .aldc _ _ | .aldcu _ _ | .aldu _ _ | .alduu _ _ => true

/-- The count field of a command of format N or N2: `FSOP`, `SSOP`, `PBNORM` (30_encoding.md R115). -/
def countField : Instr → Option RegIdx
  | .fsop _ _ _ n | .ssop _ _ _ n | .pbnorm _ _ n => some n
  | .nop | .tnot | .aset | .tacc | .fseti _ _ | .fmov _ _ | .fadd _ _ _ | .fsub _ _ _ | .fneg _ _
  | .fmul _ _ _ | .fsqr _ _ | .fpow _ _ _ | .finv _ _ | .fsqrt _ _ | .fisz _ | .flex _ | .feq _ _
  | .fsel _ _ _ | .fldb _ _ | .fstb _ _ | .fldm _ _ | .fstm _ _ | .sseti _ _ | .smov _ _
  | .sadd _ _ _ | .ssub _ _ _ | .sneg _ _ | .smul _ _ _ | .ssqr _ _ | .spow _ _ _ | .sinv _ _
  | .ssqrt _ _ | .sisz _ | .slex _ | .seq _ _ | .ssel _ _ _ | .sldb _ _ | .sstb _ _ | .sldm _ _
  | .sstm _ _ | .sdbl _ _ | .sldw _ _ | .sldr _ _ | .pid _ | .pgen _ | .pmov _ _ | .pfroma _ _
  | .ptoa _ _ | .padd _ _ _ | .paddm _ _ _ | .pdbl _ _ | .pneg _ _ | .psub _ _ _ | .pmul _ _ _
  | .pmulx _ _ | .pclr _ _ | .peq _ _ | .pisid _ | .psel _ _ _ | .aid _ | .agen _ | .amov _ _
  | .aneg _ _ | .aendo _ _ | .aonc _ | .ators _ | .aeq _ _ | .aisid _ | .asel _ _ _ | .astc _ _
  | .astu _ _ | .aldc _ _ | .aldcu _ _ | .aldu _ _ | .alduu _ _ => none

/-- The IOBUF offset of a command of format ML, MS or MX (30_encoding.md R114). -/
def offOf : Instr → Option BufOff
  | .fpow _ _ off | .fldb _ off | .fstb _ off | .fldm _ off | .fstm _ off | .spow _ _ off
  | .sldb _ off | .sstb _ off | .sldm _ off | .sstm _ off | .sldw _ off | .sldr _ off
  | .astc _ off | .astu _ off | .aldc _ off | .aldcu _ off | .aldu _ off | .alduu _ off => some off
  | .nop | .tnot | .aset | .tacc | .fseti _ _ | .fmov _ _ | .fadd _ _ _ | .fsub _ _ _ | .fneg _ _
  | .fmul _ _ _ | .fsqr _ _ | .finv _ _ | .fsqrt _ _ | .fisz _ | .flex _ | .feq _ _ | .fsel _ _ _
  | .fsop _ _ _ _ | .sseti _ _ | .smov _ _ | .sadd _ _ _ | .ssub _ _ _ | .sneg _ _ | .smul _ _ _
  | .ssqr _ _ | .sinv _ _ | .ssqrt _ _ | .sisz _ | .slex _ | .seq _ _ | .ssel _ _ _
  | .ssop _ _ _ _ | .sdbl _ _ | .pid _ | .pgen _ | .pmov _ _ | .pfroma _ _ | .ptoa _ _
  | .pbnorm _ _ _ | .padd _ _ _ | .paddm _ _ _ | .pdbl _ _ | .pneg _ _ | .psub _ _ _
  | .pmul _ _ _ | .pmulx _ _ | .pclr _ _ | .peq _ _ | .pisid _ | .psel _ _ _ | .aid _ | .agen _
  | .amov _ _ | .aneg _ _ | .aendo _ _ | .aonc _ | .ators _ | .aeq _ _ | .aisid _ | .asel _ _ _ => none

/-- Check 4 of 30_encoding.md R121: formats ML, MS and MX, with the transfer length of the opcode. -/
def bufRangeFits (i : Instr) : Bool :=
  match offOf i with
  | some off => bufFits off (xferLen i)
  | none => true

/-- The mnemonic of a command (30_encoding.md R116). -/
def mnemonicOf : Instr → String
  | .nop => "NOP"
  | .tnot => "TNOT"
  | .aset => "ASET"
  | .tacc => "TACC"
  | .fseti _ _ => "FSETI"
  | .fmov _ _ => "FMOV"
  | .fadd _ _ _ => "FADD"
  | .fsub _ _ _ => "FSUB"
  | .fneg _ _ => "FNEG"
  | .fmul _ _ _ => "FMUL"
  | .fsqr _ _ => "FSQR"
  | .fpow _ _ _ => "FPOW"
  | .finv _ _ => "FINV"
  | .fsqrt _ _ => "FSQRT"
  | .fisz _ => "FISZ"
  | .flex _ => "FLEX"
  | .feq _ _ => "FEQ"
  | .fsel _ _ _ => "FSEL"
  | .fsop _ _ _ _ => "FSOP"
  | .fldb _ _ => "FLDB"
  | .fstb _ _ => "FSTB"
  | .fldm _ _ => "FLDM"
  | .fstm _ _ => "FSTM"
  | .sseti _ _ => "SSETI"
  | .smov _ _ => "SMOV"
  | .sadd _ _ _ => "SADD"
  | .ssub _ _ _ => "SSUB"
  | .sneg _ _ => "SNEG"
  | .smul _ _ _ => "SMUL"
  | .ssqr _ _ => "SSQR"
  | .spow _ _ _ => "SPOW"
  | .sinv _ _ => "SINV"
  | .ssqrt _ _ => "SSQRT"
  | .sisz _ => "SISZ"
  | .slex _ => "SLEX"
  | .seq _ _ => "SEQ"
  | .ssel _ _ _ => "SSEL"
  | .ssop _ _ _ _ => "SSOP"
  | .sldb _ _ => "SLDB"
  | .sstb _ _ => "SSTB"
  | .sldm _ _ => "SLDM"
  | .sstm _ _ => "SSTM"
  | .sdbl _ _ => "SDBL"
  | .sldw _ _ => "SLDW"
  | .sldr _ _ => "SLDR"
  | .pid _ => "PID"
  | .pgen _ => "PGEN"
  | .pmov _ _ => "PMOV"
  | .pfroma _ _ => "PFROMA"
  | .ptoa _ _ => "PTOA"
  | .pbnorm _ _ _ => "PBNORM"
  | .padd _ _ _ => "PADD"
  | .paddm _ _ _ => "PADDM"
  | .pdbl _ _ => "PDBL"
  | .pneg _ _ => "PNEG"
  | .psub _ _ _ => "PSUB"
  | .pmul _ _ _ => "PMUL"
  | .pmulx _ _ => "PMULX"
  | .pclr _ _ => "PCLR"
  | .peq _ _ => "PEQ"
  | .pisid _ => "PISID"
  | .psel _ _ _ => "PSEL"
  | .aid _ => "AID"
  | .agen _ => "AGEN"
  | .amov _ _ => "AMOV"
  | .aneg _ _ => "ANEG"
  | .aendo _ _ => "AENDO"
  | .aonc _ => "AONC"
  | .ators _ => "ATORS"
  | .aeq _ _ => "AEQ"
  | .aisid _ => "AISID"
  | .asel _ _ _ => "ASEL"
  | .astc _ _ => "ASTC"
  | .astu _ _ => "ASTU"
  | .aldc _ _ => "ALDC"
  | .aldcu _ _ => "ALDCU"
  | .aldu _ _ => "ALDU"
  | .alduu _ _ => "ALDUU"

end Sys2Proof.Machine
end

