-- ==== Sys2Proof/WellFormed.lean ====
section
/-!
DEFINITION. Well-formed commands: those whose register ranges and IOBUF range fit, which are the
operand checks of 30_encoding.md R121. Opcode and must-be-zero bits are right by construction.
-/

namespace Sys2Proof

/-- A command the acceptance check lets through (30_encoding.md R121 checks 3 and 4). -/
def wellFormed (i : Instr) : Bool := Machine.regRangesFit i && Machine.bufRangeFits i

end Sys2Proof
end

