-- ==== Sys2Proof/Decode.lean ====
section
/-!
DEFINITION. The decoder of command words, total and rejecting by name in the order of
30_encoding.md R121, and the encoder written from the formats of R111.
-/

namespace Sys2Proof

/-- The fields of a command word (30_encoding.md R110). -/
structure Fields where
  d : RegIdx
  a : RegIdx
  b : RegIdx
  n : RegIdx
  off : BufOff
  imm : BitVec 16
deriving DecidableEq, Repr

/-- OP = w[31:24] (30_encoding.md R110). -/
def opField (w : Word32) : BitVec 8 := w.extractLsb' 24 8

/-- The 4-bit register field or count whose lowest bit is bit `lo` of the word. -/
def nibbleField (w : Word32) (lo : Nat) : RegIdx := (w.extractLsb' lo 4).toFin

/-- D = w[23:20], A = w[19:16], B = w[15:12], N = w[11:8], OFF = w[11:0], IMM = w[15:0]
(30_encoding.md R110). -/
def fieldsOf (w : Word32) : Fields :=
  { d := nibbleField w 20
    a := nibbleField w 16
    b := nibbleField w 12
    n := nibbleField w 8
    off := w.extractLsb' 0 12
    imm := w.extractLsb' 0 16 }

/-- The opcode map (30_encoding.md R116): the command an opcode names, with its operands taken from
the fields its format uses; none for an unassigned opcode (R117). -/
def build (op : Nat) (f : Fields) : Option Instr :=
  match op with
  | 0x00 => some .nop
  | 0x01 => some .tnot
  | 0x02 => some .aset
  | 0x03 => some .tacc
  | 0x10 => some (.fseti f.d f.imm)
  | 0x11 => some (.fmov f.d f.a)
  | 0x12 => some (.fadd f.d f.a f.b)
  | 0x13 => some (.fsub f.d f.a f.b)
  | 0x14 => some (.fneg f.d f.a)
  | 0x15 => some (.fmul f.d f.a f.b)
  | 0x16 => some (.fsqr f.d f.a)
  | 0x17 => some (.fpow f.d f.a f.off)
  | 0x18 => some (.finv f.d f.a)
  | 0x19 => some (.fsqrt f.d f.a)
  | 0x1A => some (.fisz f.a)
  | 0x1B => some (.flex f.a)
  | 0x1C => some (.feq f.a f.b)
  | 0x1D => some (.fsel f.d f.a f.b)
  | 0x1E => some (.fsop f.d f.a f.b f.n)
  | 0x1F => some (.fldb f.d f.off)
  | 0x20 => some (.fstb f.a f.off)
  | 0x21 => some (.fldm f.d f.off)
  | 0x22 => some (.fstm f.a f.off)
  | 0x40 => some (.sseti f.d f.imm)
  | 0x41 => some (.smov f.d f.a)
  | 0x42 => some (.sadd f.d f.a f.b)
  | 0x43 => some (.ssub f.d f.a f.b)
  | 0x44 => some (.sneg f.d f.a)
  | 0x45 => some (.smul f.d f.a f.b)
  | 0x46 => some (.ssqr f.d f.a)
  | 0x47 => some (.spow f.d f.a f.off)
  | 0x48 => some (.sinv f.d f.a)
  | 0x49 => some (.ssqrt f.d f.a)
  | 0x4A => some (.sisz f.a)
  | 0x4B => some (.slex f.a)
  | 0x4C => some (.seq f.a f.b)
  | 0x4D => some (.ssel f.d f.a f.b)
  | 0x4E => some (.ssop f.d f.a f.b f.n)
  | 0x4F => some (.sldb f.d f.off)
  | 0x50 => some (.sstb f.a f.off)
  | 0x51 => some (.sldm f.d f.off)
  | 0x52 => some (.sstm f.a f.off)
  | 0x53 => some (.sdbl f.d f.a)
  | 0x54 => some (.sldw f.d f.off)
  | 0x55 => some (.sldr f.d f.off)
  | 0x80 => some (.pid f.d)
  | 0x81 => some (.pgen f.d)
  | 0x82 => some (.pmov f.d f.a)
  | 0x83 => some (.pfroma f.d f.a)
  | 0x84 => some (.ptoa f.d f.a)
  | 0x85 => some (.pbnorm f.d f.a f.n)
  | 0x86 => some (.padd f.d f.a f.b)
  | 0x87 => some (.paddm f.d f.a f.b)
  | 0x88 => some (.pdbl f.d f.a)
  | 0x89 => some (.pneg f.d f.a)
  | 0x8A => some (.psub f.d f.a f.b)
  | 0x8B => some (.pmul f.d f.a f.b)
  | 0x8C => some (.pmulx f.d f.a)
  | 0x8D => some (.pclr f.d f.a)
  | 0x8E => some (.peq f.a f.b)
  | 0x8F => some (.pisid f.a)
  | 0x90 => some (.psel f.d f.a f.b)
  | 0xA0 => some (.aid f.d)
  | 0xA1 => some (.agen f.d)
  | 0xA2 => some (.amov f.d f.a)
  | 0xA3 => some (.aneg f.d f.a)
  | 0xA4 => some (.aendo f.d f.a)
  | 0xA5 => some (.aonc f.a)
  | 0xA6 => some (.ators f.a)
  | 0xA7 => some (.aeq f.a f.b)
  | 0xA8 => some (.aisid f.a)
  | 0xA9 => some (.asel f.d f.a f.b)
  | 0xAA => some (.astc f.a f.off)
  | 0xAB => some (.astu f.a f.off)
  | 0xAC => some (.aldc f.d f.off)
  | 0xAD => some (.aldcu f.d f.off)
  | 0xAE => some (.aldu f.d f.off)
  | 0xAF => some (.alduu f.d f.off)
  | _ => none

/-- The count field of a word whose opcode is that of `FSOP`, `SSOP` or `PBNORM`; none for every other word
(30_encoding.md R115, 70_reset_and_hazards.md R410). -/
def wordCount (w : Word32) : Option RegIdx :=
  (build (opField w).toNat (fieldsOf w)).bind Machine.countField

/-- The check of a command word, which is also its decoding: the four tests of 30_encoding.md R121 in
their order, the first that fails naming the error. -/
def decode (w : Word32) : Except CmdError Instr :=
  match build (opField w).toNat (fieldsOf w) with
  | none => .error .illegalOp
  | some i =>
    if w &&& Machine.mbzMask (Machine.formatOf i) ≠ 0#32 then .error .reserved
    else if !Machine.regRangesFit i then .error .rangeReg
    else if !Machine.bufRangeFits i then .error .rangeBuf
    else .ok i

/-- A register field as its four bits. -/
def nib (x : RegIdx) : BitVec 4 := BitVec.ofFin x

/-! The words of the twelve formats, most significant field first (30_encoding.md R111). -/

def wordZ (op : BitVec 8) : Word32 := op ++ 0#24
def wordR3 (op : BitVec 8) (d a b : RegIdx) : Word32 := op ++ nib d ++ nib a ++ nib b ++ 0#12
def wordR2 (op : BitVec 8) (d a : RegIdx) : Word32 := op ++ nib d ++ nib a ++ 0#16
def wordR1d (op : BitVec 8) (d : RegIdx) : Word32 := op ++ nib d ++ 0#20
def wordR1a (op : BitVec 8) (a : RegIdx) : Word32 := op ++ 0#4 ++ nib a ++ 0#16
def wordR2ab (op : BitVec 8) (a b : RegIdx) : Word32 := op ++ 0#4 ++ nib a ++ nib b ++ 0#12
def wordI (op : BitVec 8) (d : RegIdx) (imm : BitVec 16) : Word32 := op ++ nib d ++ 0#4 ++ imm
def wordMl (op : BitVec 8) (d : RegIdx) (off : BufOff) : Word32 := op ++ nib d ++ 0#8 ++ off
def wordMs (op : BitVec 8) (a : RegIdx) (off : BufOff) : Word32 := op ++ 0#4 ++ nib a ++ 0#4 ++ off
def wordMx (op : BitVec 8) (d a : RegIdx) (off : BufOff) : Word32 :=
  op ++ nib d ++ nib a ++ 0#4 ++ off
def wordN (op : BitVec 8) (d a b n : RegIdx) : Word32 :=
  op ++ nib d ++ nib a ++ nib b ++ nib n ++ 0#8
def wordN2 (op : BitVec 8) (d a n : RegIdx) : Word32 := op ++ nib d ++ nib a ++ 0#4 ++ nib n ++ 0#8

/-- The command word of a command (30_encoding.md R110, R111, R116). -/
def encode : Instr → Word32
  | .nop => wordZ 0x00
  | .tnot => wordZ 0x01
  | .aset => wordZ 0x02
  | .tacc => wordZ 0x03
  | .fseti d imm => wordI 0x10 d imm
  | .fmov d a => wordR2 0x11 d a
  | .fadd d a b => wordR3 0x12 d a b
  | .fsub d a b => wordR3 0x13 d a b
  | .fneg d a => wordR2 0x14 d a
  | .fmul d a b => wordR3 0x15 d a b
  | .fsqr d a => wordR2 0x16 d a
  | .fpow d a off => wordMx 0x17 d a off
  | .finv d a => wordR2 0x18 d a
  | .fsqrt d a => wordR2 0x19 d a
  | .fisz a => wordR1a 0x1A a
  | .flex a => wordR1a 0x1B a
  | .feq a b => wordR2ab 0x1C a b
  | .fsel d a b => wordR3 0x1D d a b
  | .fsop d a b n => wordN 0x1E d a b n
  | .fldb d off => wordMl 0x1F d off
  | .fstb a off => wordMs 0x20 a off
  | .fldm d off => wordMl 0x21 d off
  | .fstm a off => wordMs 0x22 a off
  | .sseti d imm => wordI 0x40 d imm
  | .smov d a => wordR2 0x41 d a
  | .sadd d a b => wordR3 0x42 d a b
  | .ssub d a b => wordR3 0x43 d a b
  | .sneg d a => wordR2 0x44 d a
  | .smul d a b => wordR3 0x45 d a b
  | .ssqr d a => wordR2 0x46 d a
  | .spow d a off => wordMx 0x47 d a off
  | .sinv d a => wordR2 0x48 d a
  | .ssqrt d a => wordR2 0x49 d a
  | .sisz a => wordR1a 0x4A a
  | .slex a => wordR1a 0x4B a
  | .seq a b => wordR2ab 0x4C a b
  | .ssel d a b => wordR3 0x4D d a b
  | .ssop d a b n => wordN 0x4E d a b n
  | .sldb d off => wordMl 0x4F d off
  | .sstb a off => wordMs 0x50 a off
  | .sldm d off => wordMl 0x51 d off
  | .sstm a off => wordMs 0x52 a off
  | .sdbl d a => wordR2 0x53 d a
  | .sldw d off => wordMl 0x54 d off
  | .sldr d off => wordMl 0x55 d off
  | .pid d => wordR1d 0x80 d
  | .pgen d => wordR1d 0x81 d
  | .pmov d a => wordR2 0x82 d a
  | .pfroma d a => wordR2 0x83 d a
  | .ptoa d a => wordR2 0x84 d a
  | .pbnorm d a n => wordN2 0x85 d a n
  | .padd d a b => wordR3 0x86 d a b
  | .paddm d a b => wordR3 0x87 d a b
  | .pdbl d a => wordR2 0x88 d a
  | .pneg d a => wordR2 0x89 d a
  | .psub d a b => wordR3 0x8A d a b
  | .pmul d a b => wordR3 0x8B d a b
  | .pmulx d a => wordR2 0x8C d a
  | .pclr d a => wordR2 0x8D d a
  | .peq a b => wordR2ab 0x8E a b
  | .pisid a => wordR1a 0x8F a
  | .psel d a b => wordR3 0x90 d a b
  | .aid d => wordR1d 0xA0 d
  | .agen d => wordR1d 0xA1 d
  | .amov d a => wordR2 0xA2 d a
  | .aneg d a => wordR2 0xA3 d a
  | .aendo d a => wordR2 0xA4 d a
  | .aonc a => wordR1a 0xA5 a
  | .ators a => wordR1a 0xA6 a
  | .aeq a b => wordR2ab 0xA7 a b
  | .aisid a => wordR1a 0xA8 a
  | .asel d a b => wordR3 0xA9 d a b
  | .astc a off => wordMs 0xAA a off
  | .astu a off => wordMs 0xAB a off
  | .aldc d off => wordMl 0xAC d off
  | .aldcu d off => wordMl 0xAD d off
  | .aldu d off => wordMl 0xAE d off
  | .alduu d off => wordMl 0xAF d off

/-- The expansion of a pseudo-instruction (30_encoding.md R123). -/
def expandPseudo : Pseudo → Instr
  | .fzero d => .fseti d 0
  | .fone d => .fseti d 1
  | .fdbl d a => .fadd d a a
  | .szero d => .sseti d 0
  | .sone d => .sseti d 1

/-- The instruction the decoder reads from a table word: every command is one 32-bit word, whose bits
are numbered as the table numbers them (30_encoding.md R110); bits at and above `nbits` are 0. -/
def decodeTableWord (nbits w : Nat) : Option Instr :=
  match decode (BitVec.ofNat 32 (w % 2 ^ nbits)) with
  | .ok i => some i
  | .error _ => none

end Sys2Proof
end

