-- ==== Sys2Proof/Config.lean ====
section
/-!
DEFINITION. What the spec leaves open: the free values (00_scope.md R20 `draw`,
93_implementation_defined.md I2-I6, I8, I9) and the open platform parameters (I10-I12).
Each is an opaque constant, so no proof can see its value and every claim holds for all of them.
The argument of a free value is State's draw counter, which each draw advances.
-/

namespace Sys2Proof.Config

/-- draw({0,1}): the flag of `PEQ`, `PISID` on JUNK and of `ATORS` off the curve (I4-I6; DESIGN CHOICE, log 2). -/
opaque freeBit : Nat → Bool

/-- draw({(x, y, 0)} ∪ {(0, 1, 1)}): `PTOA` and `PBNORM` of JUNK (I2, I3; DESIGN CHOICE, log 2). `some (x, y)`
stands for (x, y, 0) and `none` for the identity, so the draw cannot leave the named set. -/
opaque freeAffine : Nat → Option (Machine.Fp × Machine.Fp)

/-- draw(32-bit words): a host read of IOBUF while BUSY = 1 (I8, 70_reset_and_hazards.md R408; DESIGN CHOICE, log 3). -/
opaque freeWord : Nat → Word32

/-- draw({0,1,2,3}): a host read of FLAGS while BUSY = 1 (I9, 70_reset_and_hazards.md R408; DESIGN CHOICE, log 3). -/
opaque freeFlags : Nat → BitVec 2

/-- LATENCY less one: what is left free of the open parameter LATENCY ≥ 1 (I10), as a function of the opcode
and, for `FSOP`, `SSOP` and `PBNORM`, the count field; nothing else of the word is given to it
(70_reset_and_hazards.md R410). -/
opaque latencyLessOne : BitVec 8 → Option RegIdx → Nat

/-- LATENCY(w): cycles from acceptance to completion, at least 1; a function of the command word through its
opcode and, for `FSOP`, `SSOP` and `PBNORM`, its count field (70_reset_and_hazards.md R410, R411). The model has
no time: no step reads it (DESIGN CHOICE, log 10). -/
def latency (w : Word32) : Nat := latencyLessOne (opField w) (wordCount w) + 1

/-- BASE: the bus address of the host window (20_memory.md R74, I11; DESIGN CHOICE, log 11). -/
opaque base : Nat

/-- IRQ_LINE: where the platform routes irq (60_exceptions.md R371, I12; DESIGN CHOICE, log 11). -/
opaque irqLine : Nat

/-- The bus address of a host offset: offsets are relative to BASE (20_memory.md R74). -/
def busAddress (off : HostOff) : Nat := base + off.toNat

end Sys2Proof.Config
end

