-- ==== Sys2Proof/Machine/Ops.lean ====
section
/-!
DEFINITION. The named operations over state: byte strings, IOBUF, register writes, the completion of
a command, the command error `raise`, reset, and the words of the control registers.
-/

namespace Sys2Proof.Machine

/-! ### Byte strings (00_scope.md R18) -/

/-- le_int: b[0] least significant. -/
def leInt : List Byte → Nat
  | [] => 0
  | b :: bs => b.toNat + 256 * leInt bs

/-- be_int: b[0] most significant. -/
def beInt (bs : List Byte) : Nat := leInt bs.reverse

/-- le_bytes_n. -/
def leBytes : Nat → Nat → List Byte
  | 0, _ => []
  | n + 1, v => BitVec.ofNat 8 v :: leBytes n (v / 256)

/-- be_bytes_n. -/
def beBytes (n v : Nat) : List Byte := (leBytes n v).reverse

/-- 64-bit limb `i` of a stored value, limb 0 least significant (10_state.md R41, R42). -/
def limb (v i : Nat) : BitVec 64 := BitVec.ofNat 64 (v / 2 ^ (64 * i))

/-! ### IOBUF (20_memory.md R71, R72) -/

/-- One byte of IOBUF; an unlisted byte reads 0x00 (10_state.md R56). -/
def readByte : Memory → Nat → Byte
  | [], _ => 0
  | (k, v) :: rest, a => if k = a then v else readByte rest a

/-- Writes one byte, keeping the canonical form. -/
def writeByte : Memory → Nat → Byte → Memory
  | [], a, v => if v = 0 then [] else [(a, v)]
  | (k, w) :: rest, a, v =>
    if a < k then (if v = 0 then (k, w) :: rest else (a, v) :: (k, w) :: rest)
    else if a = k then (if v = 0 then rest else (a, v) :: rest)
    else (k, w) :: writeByte rest a v

/-- MemRead(off, n) (00_scope.md R20). -/
def readBytes (m : Memory) : Nat → Nat → List Byte
  | _, 0 => []
  | a, n + 1 => readByte m a :: readBytes m (a + 1) n

/-- MemWrite(off, n, b), n the length of the string (00_scope.md R20). -/
def writeBytes (m : Memory) : Nat → List Byte → Memory
  | _, [] => m
  | a, b :: bs => writeBytes (writeByte m a b) (a + 1) bs

/-! ### Register files (10_state.md R41-R46) -/

def State.getF (s : State) (i : RegIdx) : Fp := s.freg[i]
def State.getS (s : State) (i : RegIdx) : Fr := s.sreg[i]
def State.getP (s : State) (i : RegIdx) : PVal := s.preg[i]
def State.getA (s : State) (i : RegIdx) : Affine := s.areg[i]

def State.setF (s : State) (i : RegIdx) (v : Fp) : State := { s with freg := s.freg.set i v }
def State.setS (s : State) (i : RegIdx) (v : Fr) : State := { s with sreg := s.sreg.set i v }
def State.setP (s : State) (i : RegIdx) (v : PVal) : State := { s with preg := s.preg.set i v }
def State.setA (s : State) (i : RegIdx) (v : Affine) : State := { s with areg := s.areg.set i v }

/-- Writes a byte string to IOBUF at a byte address. -/
def State.storeAt (s : State) (a : Nat) (bs : List Byte) : State :=
  { s with iobuf := writeBytes s.iobuf a bs }

/-- The values of the register range base .. base + n − 1 (30_encoding.md R115). -/
def readRange {α : Type} (v : Vector α 16) (base : RegIdx) (n : Nat) : List α :=
  (v.toList.drop base.val).take n

/-- Writes values to consecutive registers from index `i` on. -/
def writeRange {α : Type} (v : Vector α 16) : Nat → List α → Vector α 16
  | _, [] => v
  | i, x :: xs => writeRange (v.setIfInBounds i x) (i + 1) xs

/-! ### Completion and command errors -/

/-- The completion bookkeeping of every command (20_memory.md R82, R83); CUR ← none is what R52, R56 and R405
lead to (DEDUCED, log 18). -/
def State.complete (s : State) : State :=
  { s with busy := false, cur := none, done := true, cmdcnt := s.cmdcnt + 1 }

/-- A command performed: its effect `s` has been written, and it completes (10_state.md R40). -/
def finish (s : State) : Result := .next s.complete

/-- The code of a command error (60_exceptions.md R362). -/
def errorCode : CmdError → BitVec 8
  | .illegalOp => 0x01
  | .reserved => 0x02
  | .rangeBuf => 0x03
  | .rangeReg => 0x04
  | .cmdBusy => 0x05
  | .hostBusy => 0x06

/-- `raise E(info)`: reports the first error since ERR was 0 and changes nothing else
(60_exceptions.md R363, R364). -/
def State.raise (s : State) (e : CmdError) (info : Word32) : State :=
  if s.err then s else { s with err := true, errCode := errorCode e, errInfo := info }

/-! ### Reset and the words of the registers -/

/-- A reset event, hard or soft: every piece of the core's state takes its reset value and the command
in flight is abandoned (70_reset_and_hazards.md R400). The model's own fields stay (log 4, 5, 2). -/
def State.doReset (s : State) : State :=
  { State.reset with agenda := s.agenda, response := s.response, draws := s.draws }

/-- irq, the level-sensitive interrupt output (60_exceptions.md R371). -/
def State.irq (s : State) : Bool := (s.ieDone && s.done) || (s.ieErr && s.err)

/-- The word of CTRL; SRESET reads 0 (20_memory.md R79). -/
def State.ctrlWord (s : State) : Word32 :=
  0#29 ++ BitVec.ofBool s.ieErr ++ BitVec.ofBool s.ieDone ++ 0#1

/-- The word of STATUS (20_memory.md R80). -/
def State.statusWord (s : State) : Word32 :=
  0#16 ++ s.errCode ++ 0#5 ++ BitVec.ofBool s.err ++ BitVec.ofBool s.done ++ BitVec.ofBool s.busy

/-- The two bits of FLAGS: ACC, T (20_memory.md R81). -/
def State.flagBits (s : State) : BitVec 2 := BitVec.ofBool s.acc ++ BitVec.ofBool s.t

/-- The word of IOBUF at byte address `a`, little-endian lanes (20_memory.md R76). -/
def State.bufWord (s : State) (a : Nat) : Word32 := BitVec.ofNat 32 (leInt (readBytes s.iobuf a 4))

end Sys2Proof.Machine
end

