-- ==== Sys2Proof/Machine/Codec.lean ====
section
/-!
DEFINITION. The compressed and uncompressed encodings of G1 points and their unchecked decoders
(43_g1_affine_codec.md R304-R307).
-/

namespace Sys2Proof.Machine

/-- ORs flag bits into byte 0 of a byte string. -/
def orHead (flags : Byte) : List Byte → List Byte
  | [] => []
  | b :: bs => (b ||| flags) :: bs

/-- Masks the top three bits off byte 0: t[0] AND 0x1F (R305, R307; 90_conflicts.md C3). -/
def maskHead : List Byte → List Byte
  | [] => []
  | b :: bs => (b &&& 0x1F) :: bs

/-- The flag bits of an encoding: bits 7 (compression), 6 (infinity) and 5 (sort) of byte 0 (R304). -/
structure HeadFlags where
  compression : Bool
  infinity : Bool
  sort : Bool
deriving DecidableEq, Repr

/-- Reads the flag bits of a byte string (R305). -/
def headFlags (bs : List Byte) : HeadFlags :=
  let b := bs.headD 0
  ⟨b.getLsbD 7, b.getLsbD 6, b.getLsbD 5⟩

/-- EncC(x, y, inf), 48 bytes (R304; 90_conflicts.md C5). -/
def encodeCompressed (a : Affine) : List Byte :=
  orHead (0x80#8 ||| (if a.inf then 0x40 else 0) ||| (if !a.inf && lexF a.y then 0x20 else 0))
    (beBytes 48 (if a.inf then 0 else a.x.val))

/-- EncU(x, y, inf), 96 bytes (R306). -/
def encodeUncompressed (a : Affine) : List Byte :=
  orHead (if a.inf then 0x40 else 0)
    (beBytes 48 (if a.inf then 0 else a.x.val) ++ beBytes 48 (if a.inf then 0 else a.y.val))

/-- DecC(b): (A, ok), with (ID, 0) for the absence of a value (R305). -/
def decodeCompressed (bs : List Byte) : Affine × Bool :=
  let f := headFlags bs
  let xv := beInt (maskHead bs)
  if p ≤ xv then (Affine.id, false)
  else if f.infinity then (Affine.id, f.compression && !f.sort && xv == 0)
  else if !f.compression then (Affine.id, false)
  else
    let x := toFp xv
    let root := fpSqrt (x * x * x + curveB)
    if !root.2 then (Affine.id, false)
    else (⟨x, if lexF root.1 != f.sort then modNeg root.1 else root.1, false⟩, true)

/-- DecU(b): (A, ok). The curve equation is NOT checked (R307; 90_conflicts.md C4). -/
def decodeUncompressed (bs : List Byte) : Affine × Bool :=
  let f := headFlags bs
  let xv := beInt (maskHead (bs.take 48))
  let yv := beInt (bs.drop 48)
  if p ≤ xv || p ≤ yv then (Affine.id, false)
  else if f.compression || f.sort then (Affine.id, false)
  else if f.infinity then (Affine.id, xv == 0 && yv == 0)
  else (⟨toFp xv, toFp yv, false⟩, true)

end Sys2Proof.Machine
end

