-- ==== Sys2Proof/Machine/Flags.lean ====
section
/-!
DEFINITION. The flag computations: setT (10_state.md R48), the in-band result of a fallible command
(R49), and the flags drawn from JUNK and off-curve values (00_scope.md R20).
-/

namespace Sys2Proof.Machine

/-- setT(b): T ← b; ACC ← ACC AND b (10_state.md R48). -/
def State.setT (s : State) (b : Bool) : State := { s with t := b, acc := s.acc && b }

/-- setT(draw({0, 1})): a free flag (93_implementation_defined.md I4-I6; DESIGN CHOICE, log 2). -/
def State.setTDrawn (s : State) : State :=
  { s.setT (Config.freeBit s.draws) with draws := s.draws + 1 }

/-- setT of a flag that is known, or drawn where the spec says so. -/
def State.setTOrDraw (s : State) : Option Bool → State
  | some b => s.setT b
  | none => s.setTDrawn

/-- Equality of two P registers; a JUNK operand leaves it open (42_g1_projective.md R274). -/
def pointsEqual : PVal → PVal → Option Bool
  | .pt q1, .pt q2 => some (q1 == q2)
  | _, _ => none

/-- The identity test of a P register; JUNK leaves it open (42_g1_projective.md R275). -/
def isIdentity : PVal → Option Bool
  | .pt q => some (q == .infinity)
  | .junk => none

/-- The subgroup test of an A register; off the curve it is open (43_g1_affine_codec.md R303, R316). -/
def torsionTest (a : Affine) : Option Bool := if a.onCurve then some a.torsionFree else none

/-- Absence of value for an F destination: the value and T = 1, or stored 0 and T = 0
(10_state.md R49). -/
def State.resultF (s : State) (d : RegIdx) (v : Fp) (ok : Bool) : State :=
  (s.setF d (if ok then v else toFp 0)).setT ok

/-- Absence of value for an S destination (10_state.md R49). -/
def State.resultS (s : State) (d : RegIdx) (v : Fr) (ok : Bool) : State :=
  (s.setS d (if ok then v else toFr 0)).setT ok

/-- Absence of value for an A destination: the identity (10_state.md R49). -/
def State.resultA (s : State) (d : RegIdx) (v : Affine) (ok : Bool) : State :=
  (s.setA d (if ok then v else Affine.id)).setT ok

end Sys2Proof.Machine
end

