-- ==== Sys2Proof/Machine/Operands.lean ====
section
/-!
DEFINITION. The operand forms: the immediate (30_encoding.md R113), the IOBUF operand with its range
check (R114, 20_memory.md R72), the register ranges with theirs (R115), and the affine value drawn
from JUNK (42_g1_projective.md R264).
-/

namespace Sys2Proof.Machine

/-- zext(IMM) (30_encoding.md R113). -/
def immValue (imm : BitVec 16) : Nat := imm.toNat

/-- A command whose IOBUF range is OFF .. OFF + n − 1: before it touches any state it checks
OFF + n ≤ 4096; if the check fails it raises E_RANGE_BUF with its word and has no other effect
(20_memory.md R72; DEDUCED, log 9). Acceptance already made the check, so a run never fails it here. -/
def withBuf (off : BufOff) (n : Nat) (cmd : Word32) (s : State) (effect : State) : Result :=
  if bufFits off n then finish effect else .next (s.raise .rangeBuf cmd)

/-- A command that loads n bytes from IOBUF, reading them before it writes (10_state.md R55). -/
def loadBuf (off : BufOff) (n : Nat) (cmd : Word32) (s : State) (effect : List Byte → State) :
    Result :=
  withBuf off n cmd s (effect (readBytes s.iobuf off.toNat n))

/-- A command that stores a byte string of n bytes to IOBUF. -/
def storeBuf (off : BufOff) (n : Nat) (cmd : Word32) (s : State) (bs : List Byte) : Result :=
  withBuf off n cmd s (s.storeAt off.toNat bs)

/-- A command over two register ranges: each must lie in its file, or it raises E_RANGE_REG with its
word and has no other effect (30_encoding.md R115, R121; DEDUCED, log 9). -/
def withRanges (base1 base2 n : RegIdx) (cmd : Word32) (s : State) (effect : State) : Result :=
  if rangeFits base1 n && rangeFits base2 n then finish effect
  else .next (s.raise .rangeReg cmd)

/-- draw({(x, y, 0) : x, y ∈ Fp} ∪ {(0, 1, 1)}) (42_g1_projective.md R264; DESIGN CHOICE, log 2). -/
def drawnAffine (n : Nat) : Affine :=
  match Config.freeAffine n with
  | some (x, y) => ⟨x, y, false⟩
  | none => Affine.id

/-- The affine value of a P register and the next draw count (42_g1_projective.md R264). -/
def affineOf (v : PVal) (draws : Nat) : Affine × Nat :=
  match v with
  | .pt q => (q.toAffine, draws)
  | .junk => (drawnAffine draws, draws + 1)

/-- The affine values of a range of P registers, each JUNK element drawn on its own
(42_g1_projective.md R265). -/
def affinesOf : List PVal → Nat → List Affine × Nat
  | [], draws => ([], draws)
  | v :: vs, draws =>
    let first := affineOf v draws
    let rest := affinesOf vs first.2
    (first.1 :: rest.1, rest.2)

/-- Σ xᵢ·yᵢ, the exact integer sum (40_fp.md R164). -/
def sumOfProducts (xs ys : List Nat) : Nat := (List.zipWith (· * ·) xs ys).sum

end Sys2Proof.Machine
end

