-- ==== Sys2Proof/Machine/AffinePoints.lean ====
section
/-!
DEFINITION. The affine and codec commands (43_g1_affine_codec.md Part 2).
-/

namespace Sys2Proof.Machine

/-- `AID ad` (R310). -/
def execAid (d : RegIdx) (s : State) : Result := finish (s.setA d Affine.id)

/-- `AGEN ad` (R311). -/
def execAgen (d : RegIdx) (s : State) : Result := finish (s.setA d affineGenerator)

/-- `AMOV ad, aa` (R312): off-curve values are copied exactly. -/
def execAmov (d a : RegIdx) (s : State) : Result := finish (s.setA d (s.getA a))

/-- `ANEG ad, aa` (R313): the identity stays canonical. -/
def execAneg (d a : RegIdx) (s : State) : Result := finish (s.setA d (s.getA a).neg)

/-- `AENDO ad, aa` (R314): Phi. -/
def execAendo (d a : RegIdx) (s : State) : Result := finish (s.setA d (s.getA a).endo)

/-- `AONC aa` (R315): setT(OnCurve(A[A])). -/
def execAonc (a : RegIdx) (s : State) : Result := finish (s.setT (s.getA a).onCurve)

/-- `ATORS aa` (R316): the subgroup test; off the curve a drawn flag. -/
def execAtors (a : RegIdx) (s : State) : Result := finish (s.setTOrDraw (torsionTest (s.getA a)))

/-- `AEQ aa, ab` (R317): the flag dominates equality. -/
def execAeq (a b : RegIdx) (s : State) : Result := finish (s.setT ((s.getA a).equals (s.getA b)))

/-- `AISID aa` (R318): reads the flag only. -/
def execAisid (a : RegIdx) (s : State) : Result := finish (s.setT (s.getA a).inf)

/-- `ASEL ad, aa, ab` (R319): A[D] ← T ? A[A] : A[B]. -/
def execAsel (d a b : RegIdx) (s : State) : Result :=
  finish (s.setA d (if s.t then s.getA a else s.getA b))

/-- `ASTC aa, off` (R320): EncC. -/
def execAstc (a : RegIdx) (off : BufOff) (s : State) : Result :=
  storeBuf off 48 (encode (.astc a off)) s (encodeCompressed (s.getA a))

/-- `ASTU aa, off` (R321): EncU. -/
def execAstu (a : RegIdx) (off : BufOff) (s : State) : Result :=
  storeBuf off 96 (encode (.astu a off)) s (encodeUncompressed (s.getA a))

/-- `ALDC ad, off` (R322): DecC and the subgroup test. -/
def execAldc (d : RegIdx) (off : BufOff) (s : State) : Result :=
  loadBuf off 48 (encode (.aldc d off)) s fun bs =>
    let c := decodeCompressed bs
    s.resultA d c.1 (c.2 && c.1.torsionFree)

/-- `ALDCU ad, off` (R323): DecC alone. -/
def execAldcu (d : RegIdx) (off : BufOff) (s : State) : Result :=
  loadBuf off 48 (encode (.aldcu d off)) s fun bs =>
    let c := decodeCompressed bs
    s.resultA d c.1 c.2

/-- `ALDU ad, off` (R324): DecU, the curve equation and the subgroup test; it never draws. -/
def execAldu (d : RegIdx) (off : BufOff) (s : State) : Result :=
  loadBuf off 96 (encode (.aldu d off)) s fun bs =>
    let c := decodeUncompressed bs
    s.resultA d c.1 (c.2 && c.1.onCurve && c.1.torsionFree)

/-- `ALDUU ad, off` (R325): DecU alone; the result need not be on the curve. -/
def execAlduu (d : RegIdx) (off : BufOff) (s : State) : Result :=
  loadBuf off 96 (encode (.alduu d off)) s fun bs =>
    let c := decodeUncompressed bs
    s.resultA d c.1 c.2

end Sys2Proof.Machine
end

