-- ==== Sys2Proof/Machine/Control.lean ====
section
/-!
DEFINITION. The control and flag commands (44_control.md).
-/

namespace Sys2Proof.Machine

/-- `NOP` (R350): nothing but completion. -/
def execNop (s : State) : Result := finish s

/-- `TNOT` (R351): T ← NOT T; ACC unchanged. -/
def execTnot (s : State) : Result := finish { s with t := !s.t }

/-- `ASET` (R352): ACC ← 1; T unchanged. -/
def execAset (s : State) : Result := finish { s with acc := true }

/-- `TACC` (R353): T ← ACC; ACC unchanged. -/
def execTacc (s : State) : Result := finish { s with t := s.acc }

end Sys2Proof.Machine
end

