-- ==== Sys2Proof/Machine/Fp.lean ====
section
/-!
DEFINITION. The Fp commands (40_fp.md Part 2), on stored values.
-/

namespace Sys2Proof.Machine

/-- `FSETI fd, imm` (R150): F[D] ← montF(zext(IMM)). -/
def execFseti (d : RegIdx) (imm : BitVec 16) (s : State) : Result :=
  finish (s.setF d (montF (toFp (immValue imm))))

/-- `FMOV fd, fa` (R151). -/
def execFmov (d a : RegIdx) (s : State) : Result := finish (s.setF d (s.getF a))

/-- `FADD fd, fa, fb` (R152): ModAdd_p. -/
def execFadd (d a b : RegIdx) (s : State) : Result :=
  finish (s.setF d (modAdd (s.getF a) (s.getF b)))

/-- `FSUB fd, fa, fb` (R153): ModSub_p. -/
def execFsub (d a b : RegIdx) (s : State) : Result :=
  finish (s.setF d (modSub (s.getF a) (s.getF b)))

/-- `FNEG fd, fa` (R154): ModNeg_p. -/
def execFneg (d a : RegIdx) (s : State) : Result := finish (s.setF d (modNeg (s.getF a)))

/-- `FMUL fd, fa, fb` (R155): MontMul_p. -/
def execFmul (d a b : RegIdx) (s : State) : Result :=
  finish (s.setF d (montMulF (s.getF a).val (s.getF b).val))

/-- `FSQR fd, fa` (R156): MontMul_p of the source with itself. -/
def execFsqr (d a : RegIdx) (s : State) : Result :=
  finish (s.setF d (montMulF (s.getF a).val (s.getF a).val))

/-- `FPOW fd, fa, off` (R157): the 384-bit exponent is le_int of 48 bytes; 0^0 = 1. -/
def execFpow (d a : RegIdx) (off : BufOff) (s : State) : Result :=
  loadBuf off 48 (encode (.fpow d a off)) s fun bs =>
    s.setF d (montF (modPow 384 (valF (s.getF a)) (leInt bs)))

/-- `FINV fd, fa` (R158): ModInv_p; T = 0 and stored 0 for input 0. -/
def execFinv (d a : RegIdx) (s : State) : Result :=
  let c := modInvF (s.getF a)
  finish (s.resultF d c.1 c.2)

/-- `FSQRT fd, fa` (R159): FpSqrt; T = 0 and stored 0 for a non-residue. -/
def execFsqrt (d a : RegIdx) (s : State) : Result :=
  let c := fpSqrt (valF (s.getF a))
  finish (s.resultF d (montF c.1) c.2)

/-- `FISZ fa` (R160): setT(F[A] = 0). -/
def execFisz (a : RegIdx) (s : State) : Result := finish (s.setT (s.getF a == toFp 0))

/-- `FLEX fa` (R161): setT(valF(F[A]) > HALF_P). -/
def execFlex (a : RegIdx) (s : State) : Result := finish (s.setT (lexF (valF (s.getF a))))

/-- `FEQ fa, fb` (R162): setT(F[A] = F[B]). -/
def execFeq (a b : RegIdx) (s : State) : Result := finish (s.setT (s.getF a == s.getF b))

/-- `FSEL fd, fa, fb` (R163): F[D] ← T ? F[A] : F[B]. -/
def execFsel (d a b : RegIdx) (s : State) : Result :=
  finish (s.setF d (if s.t then s.getF a else s.getF b))

/-- `FSOP fd, fa, fb, n` (R164): the exact sum of products of the values, reduced once. -/
def execFsop (d a b n : RegIdx) (s : State) : Result :=
  withRanges a b n (encode (.fsop d a b n)) s <|
    s.setF d <| montF <| toFp <| sumOfProducts
      ((readRange s.freg a (countOf n)).map fun x => (valF x).val)
      ((readRange s.freg b (countOf n)).map fun x => (valF x).val)

/-- `FLDB fd, off` (R165): a canonical big-endian value; T = 0 and stored 0 when it is ≥ p. -/
def execFldb (d : RegIdx) (off : BufOff) (s : State) : Result :=
  loadBuf off 48 (encode (.fldb d off)) s fun bs =>
    s.resultF d (montF (toFp (beInt bs))) (beInt bs < p)

/-- `FSTB fa, off` (R166): the canonical big-endian value. -/
def execFstb (a : RegIdx) (off : BufOff) (s : State) : Result :=
  storeBuf off 48 (encode (.fstb a off)) s (beBytes 48 (valF (s.getF a)).val)

/-- `FLDM fd, off` (R167): the stored limbs; T = 0 and stored 0 when they are ≥ p. -/
def execFldm (d : RegIdx) (off : BufOff) (s : State) : Result :=
  loadBuf off 48 (encode (.fldm d off)) s fun bs =>
    s.resultF d (toFp (leInt bs)) (leInt bs < p)

/-- `FSTM fa, off` (R168): the stored limbs. -/
def execFstm (a : RegIdx) (off : BufOff) (s : State) : Result :=
  storeBuf off 48 (encode (.fstm a off)) s (leBytes 48 (s.getF a).val)

end Sys2Proof.Machine
end

