-- ==== Sys2Proof/Machine/Projective.lean ====
section
/-!
DEFINITION. The projective commands (42_g1_projective.md Part 2), on the architectural values of R43.
-/

namespace Sys2Proof.Machine

/-- `PID pd` (R260). -/
def execPid (d : RegIdx) (s : State) : Result := finish (s.setP d (.pt .infinity))

/-- `PGEN pd` (R261). -/
def execPgen (d : RegIdx) (s : State) : Result := finish (s.setP d (.pt generator))

/-- `PMOV pd, pa` (R262): JUNK is copied as JUNK. -/
def execPmov (d a : RegIdx) (s : State) : Result := finish (s.setP d (s.getP a))

/-- `PFROMA pd, aa` (R263). -/
def execPfroma (d a : RegIdx) (s : State) : Result := finish (s.setP d (fromAffine (s.getA a)))

/-- `PTOA ad, pa` (R264): JUNK gives a draw. -/
def execPtoa (d a : RegIdx) (s : State) : Result :=
  let c := affineOf (s.getP a) s.draws
  finish { s.setA d c.1 with draws := c.2 }

/-- `PBNORM ad, pa, n` (R265): each element as `PTOA` of its own source. -/
def execPbnorm (d a n : RegIdx) (s : State) : Result :=
  let c := affinesOf (readRange s.preg a (countOf n)) s.draws
  withRanges d a n (encode (.pbnorm d a n)) s
    { s with areg := writeRange s.areg d.val c.1, draws := c.2 }

/-- `PADD pd, pa, pb` (R266): complete addition. -/
def execPadd (d a b : RegIdx) (s : State) : Result :=
  finish (s.setP d ((s.getP a).map2 Point.add (s.getP b)))

/-- `PADDM pd, pa, ab` (R267): mixed addition. -/
def execPaddm (d a b : RegIdx) (s : State) : Result :=
  finish (s.setP d (addMixed (s.getP a) (s.getA b)))

/-- `PDBL pd, pa` (R268). -/
def execPdbl (d a : RegIdx) (s : State) : Result := finish (s.setP d ((s.getP a).map Point.dbl))

/-- `PNEG pd, pa` (R269). -/
def execPneg (d a : RegIdx) (s : State) : Result := finish (s.setP d ((s.getP a).map Point.neg))

/-- `PSUB pd, pa, pb` (R270). -/
def execPsub (d a b : RegIdx) (s : State) : Result :=
  finish (s.setP d ((s.getP a).map2 Point.sub (s.getP b)))

/-- `PMUL pd, pa, sb` (R271): Ladder(Q, k, 256) with k the canonical scalar (41_scalar.md R204). -/
def execPmul (d a b : RegIdx) (s : State) : Result :=
  finish (s.setP d ((s.getP a).map fun q => ladder q (valS (s.getS b)).val 256))

/-- `PMULX pd, pa` (R272): x·Q. -/
def execPmulx (d a : RegIdx) (s : State) : Result := finish (s.setP d ((s.getP a).map Point.mulX))

/-- `PCLR pd, pa` (R273): (1 − x)·Q. -/
def execPclr (d a : RegIdx) (s : State) : Result :=
  finish (s.setP d ((s.getP a).map Point.clearCofactor))

/-- `PEQ pa, pb` (R274): a JUNK operand gives a drawn flag. -/
def execPeq (a b : RegIdx) (s : State) : Result :=
  finish (s.setTOrDraw (pointsEqual (s.getP a) (s.getP b)))

/-- `PISID pa` (R275): JUNK gives a drawn flag. -/
def execPisid (a : RegIdx) (s : State) : Result := finish (s.setTOrDraw (isIdentity (s.getP a)))

/-- `PSEL pd, pa, pb` (R276): P[D] ← T ? P[A] : P[B], JUNK included. -/
def execPsel (d a b : RegIdx) (s : State) : Result :=
  finish (s.setP d (if s.t then s.getP a else s.getP b))

end Sys2Proof.Machine
end

