-- ==== Sys2Proof/Machine/Scalar.lean ====
section
/-!
DEFINITION. The Scalar commands (41_scalar.md Part 2), on stored values.
-/

namespace Sys2Proof.Machine

/-- `SSETI sd, imm` (R205): S[D] ← montS(zext(IMM)). -/
def execSseti (d : RegIdx) (imm : BitVec 16) (s : State) : Result :=
  finish (s.setS d (montS (toFr (immValue imm))))

/-- `SMOV sd, sa` (R206). -/
def execSmov (d a : RegIdx) (s : State) : Result := finish (s.setS d (s.getS a))

/-- `SADD sd, sa, sb` (R207): ModAdd_r. -/
def execSadd (d a b : RegIdx) (s : State) : Result :=
  finish (s.setS d (modAdd (s.getS a) (s.getS b)))

/-- `SSUB sd, sa, sb` (R208): ModSub_r. -/
def execSsub (d a b : RegIdx) (s : State) : Result :=
  finish (s.setS d (modSub (s.getS a) (s.getS b)))

/-- `SNEG sd, sa` (R209): ModNeg_r. -/
def execSneg (d a : RegIdx) (s : State) : Result := finish (s.setS d (modNeg (s.getS a)))

/-- `SMUL sd, sa, sb` (R210): MontMul_r. -/
def execSmul (d a b : RegIdx) (s : State) : Result :=
  finish (s.setS d (montMulS (s.getS a).val (s.getS b).val))

/-- `SSQR sd, sa` (R211): MontMul_r of the source with itself. -/
def execSsqr (d a : RegIdx) (s : State) : Result :=
  finish (s.setS d (montMulS (s.getS a).val (s.getS a).val))

/-- `SPOW sd, sa, off` (R212): the 256-bit exponent is le_int of 32 bytes; 0^0 = 1. -/
def execSpow (d a : RegIdx) (off : BufOff) (s : State) : Result :=
  loadBuf off 32 (encode (.spow d a off)) s fun bs =>
    s.setS d (montS (modPow 256 (valS (s.getS a)) (leInt bs)))

/-- `SINV sd, sa` (R213): ModInv_r; T = 0 and stored 0 for input 0. -/
def execSinv (d a : RegIdx) (s : State) : Result :=
  let c := modInvS (s.getS a)
  finish (s.resultS d c.1 c.2)

/-- `SSQRT sd, sa` (R214): ScSqrt; T = 0 and stored 0 for a non-residue. -/
def execSsqrt (d a : RegIdx) (s : State) : Result :=
  let c := scSqrt (valS (s.getS a))
  finish (s.resultS d (montS c.1) c.2)

/-- `SISZ sa` (R215): setT(S[A] = 0). -/
def execSisz (a : RegIdx) (s : State) : Result := finish (s.setT (s.getS a == toFr 0))

/-- `SLEX sa` (R216): setT(valS(S[A]) > HALF_R). -/
def execSlex (a : RegIdx) (s : State) : Result := finish (s.setT (lexS (valS (s.getS a))))

/-- `SEQ sa, sb` (R217): setT(S[A] = S[B]). -/
def execSeq (a b : RegIdx) (s : State) : Result := finish (s.setT (s.getS a == s.getS b))

/-- `SSEL sd, sa, sb` (R218): S[D] ← T ? S[A] : S[B]. -/
def execSsel (d a b : RegIdx) (s : State) : Result :=
  finish (s.setS d (if s.t then s.getS a else s.getS b))

/-- `SSOP sd, sa, sb, n` (R219): the exact sum of products of the values, reduced once. -/
def execSsop (d a b n : RegIdx) (s : State) : Result :=
  withRanges a b n (encode (.ssop d a b n)) s <|
    s.setS d <| montS <| toFr <| sumOfProducts
      ((readRange s.sreg a (countOf n)).map fun x => (valS x).val)
      ((readRange s.sreg b (countOf n)).map fun x => (valS x).val)

/-- `SLDB sd, off` (R220): a canonical little-endian value; T = 0 and stored 0 when it is ≥ r. -/
def execSldb (d : RegIdx) (off : BufOff) (s : State) : Result :=
  loadBuf off 32 (encode (.sldb d off)) s fun bs =>
    s.resultS d (montS (toFr (leInt bs))) (leInt bs < r)

/-- `SSTB sa, off` (R221): the canonical little-endian value. -/
def execSstb (a : RegIdx) (off : BufOff) (s : State) : Result :=
  storeBuf off 32 (encode (.sstb a off)) s (leBytes 32 (valS (s.getS a)).val)

/-- `SLDM sd, off` (R222): the stored limbs; T = 0 and stored 0 when they are ≥ r. -/
def execSldm (d : RegIdx) (off : BufOff) (s : State) : Result :=
  loadBuf off 32 (encode (.sldm d off)) s fun bs =>
    s.resultS d (toFr (leInt bs)) (leInt bs < r)

/-- `SSTM sa, off` (R223): the stored limbs. -/
def execSstm (a : RegIdx) (off : BufOff) (s : State) : Result :=
  storeBuf off 32 (encode (.sstm a off)) s (leBytes 32 (s.getS a).val)

/-- `SDBL sd, sa` (R224): ModDbl_r. -/
def execSdbl (d a : RegIdx) (s : State) : Result := finish (s.setS d (modDbl (s.getS a)))

/-- `SLDW sd, off` (R225): a 64-byte integer modulo r, in the datapath's two halves:
ModAdd_r(MontMul_r(lo, RS2), MontMul_r(hi, RS3)). -/
def execSldw (d : RegIdx) (off : BufOff) (s : State) : Result :=
  loadBuf off 64 (encode (.sldw d off)) s fun bs =>
    s.setS d (modAdd (montMulS (leInt (bs.take 32)) rs2) (montMulS (leInt (bs.drop 32)) rs3))

/-- `SLDR sd, off` (R226): any 256-bit integer modulo r, MontMul_r(v, RS2). -/
def execSldr (d : RegIdx) (off : BufOff) (s : State) : Result :=
  loadBuf off 32 (encode (.sldr d off)) s fun bs => s.setS d (montMulS (leInt bs) rs2)

end Sys2Proof.Machine
end

