-- ==== Sys2Proof/Machine/Dispatch.lean ====
section
/-!
DEFINITION. What the engine does when it performs a command: one meaning per command
(30_encoding.md R116, 10_state.md R40).
-/

namespace Sys2Proof.Machine

/-- The engine performs command `i`: its effect and its completion, in one atomic step (10_state.md R40). -/
def exec (i : Instr) (s : State) : Host.Outcome State Fault Refusal :=
  match i with
  -- 44_control.md: control and flags
  | .nop => Sys2Proof.Machine.execNop s
  | .tnot => Sys2Proof.Machine.execTnot s
  | .aset => Sys2Proof.Machine.execAset s
  | .tacc => Sys2Proof.Machine.execTacc s
  -- 40_fp.md: Fp
  | .fseti d imm => Sys2Proof.Machine.execFseti d imm s
  | .fmov d a => Sys2Proof.Machine.execFmov d a s
  | .fadd d a b => Sys2Proof.Machine.execFadd d a b s
  | .fsub d a b => Sys2Proof.Machine.execFsub d a b s
  | .fneg d a => Sys2Proof.Machine.execFneg d a s
  | .fmul d a b => Sys2Proof.Machine.execFmul d a b s
  | .fsqr d a => Sys2Proof.Machine.execFsqr d a s
  | .fpow d a off => Sys2Proof.Machine.execFpow d a off s
  | .finv d a => Sys2Proof.Machine.execFinv d a s
  | .fsqrt d a => Sys2Proof.Machine.execFsqrt d a s
  | .fisz a => Sys2Proof.Machine.execFisz a s
  | .flex a => Sys2Proof.Machine.execFlex a s
  | .feq a b => Sys2Proof.Machine.execFeq a b s
  | .fsel d a b => Sys2Proof.Machine.execFsel d a b s
  | .fsop d a b n => Sys2Proof.Machine.execFsop d a b n s
  | .fldb d off => Sys2Proof.Machine.execFldb d off s
  | .fstb a off => Sys2Proof.Machine.execFstb a off s
  | .fldm d off => Sys2Proof.Machine.execFldm d off s
  | .fstm a off => Sys2Proof.Machine.execFstm a off s
  -- 41_scalar.md: Scalar
  | .sseti d imm => Sys2Proof.Machine.execSseti d imm s
  | .smov d a => Sys2Proof.Machine.execSmov d a s
  | .sadd d a b => Sys2Proof.Machine.execSadd d a b s
  | .ssub d a b => Sys2Proof.Machine.execSsub d a b s
  | .sneg d a => Sys2Proof.Machine.execSneg d a s
  | .smul d a b => Sys2Proof.Machine.execSmul d a b s
  | .ssqr d a => Sys2Proof.Machine.execSsqr d a s
  | .spow d a off => Sys2Proof.Machine.execSpow d a off s
  | .sinv d a => Sys2Proof.Machine.execSinv d a s
  | .ssqrt d a => Sys2Proof.Machine.execSsqrt d a s
  | .sisz a => Sys2Proof.Machine.execSisz a s
  | .slex a => Sys2Proof.Machine.execSlex a s
  | .seq a b => Sys2Proof.Machine.execSeq a b s
  | .ssel d a b => Sys2Proof.Machine.execSsel d a b s
  | .ssop d a b n => Sys2Proof.Machine.execSsop d a b n s
  | .sldb d off => Sys2Proof.Machine.execSldb d off s
  | .sstb a off => Sys2Proof.Machine.execSstb a off s
  | .sldm d off => Sys2Proof.Machine.execSldm d off s
  | .sstm a off => Sys2Proof.Machine.execSstm a off s
  | .sdbl d a => Sys2Proof.Machine.execSdbl d a s
  | .sldw d off => Sys2Proof.Machine.execSldw d off s
  | .sldr d off => Sys2Proof.Machine.execSldr d off s
  -- 42_g1_projective.md: G1 projective
  | .pid d => Sys2Proof.Machine.execPid d s
  | .pgen d => Sys2Proof.Machine.execPgen d s
  | .pmov d a => Sys2Proof.Machine.execPmov d a s
  | .pfroma d a => Sys2Proof.Machine.execPfroma d a s
  | .ptoa d a => Sys2Proof.Machine.execPtoa d a s
  | .pbnorm d a n => Sys2Proof.Machine.execPbnorm d a n s
  | .padd d a b => Sys2Proof.Machine.execPadd d a b s
  | .paddm d a b => Sys2Proof.Machine.execPaddm d a b s
  | .pdbl d a => Sys2Proof.Machine.execPdbl d a s
  | .pneg d a => Sys2Proof.Machine.execPneg d a s
  | .psub d a b => Sys2Proof.Machine.execPsub d a b s
  | .pmul d a b => Sys2Proof.Machine.execPmul d a b s
  | .pmulx d a => Sys2Proof.Machine.execPmulx d a s
  | .pclr d a => Sys2Proof.Machine.execPclr d a s
  | .peq a b => Sys2Proof.Machine.execPeq a b s
  | .pisid a => Sys2Proof.Machine.execPisid a s
  | .psel d a b => Sys2Proof.Machine.execPsel d a b s
  -- 43_g1_affine_codec.md: G1 affine and codec
  | .aid d => Sys2Proof.Machine.execAid d s
  | .agen d => Sys2Proof.Machine.execAgen d s
  | .amov d a => Sys2Proof.Machine.execAmov d a s
  | .aneg d a => Sys2Proof.Machine.execAneg d a s
  | .aendo d a => Sys2Proof.Machine.execAendo d a s
  | .aonc a => Sys2Proof.Machine.execAonc a s
  | .ators a => Sys2Proof.Machine.execAtors a s
  | .aeq a b => Sys2Proof.Machine.execAeq a b s
  | .aisid a => Sys2Proof.Machine.execAisid a s
  | .asel d a b => Sys2Proof.Machine.execAsel d a b s
  | .astc a off => Sys2Proof.Machine.execAstc a off s
  | .astu a off => Sys2Proof.Machine.execAstu a off s
  | .aldc d off => Sys2Proof.Machine.execAldc d off s
  | .aldcu d off => Sys2Proof.Machine.execAldcu d off s
  | .aldu d off => Sys2Proof.Machine.execAldu d off s
  | .alduu d off => Sys2Proof.Machine.execAlduu d off s

end Sys2Proof.Machine
end

