-- ==== Sys2Proof/Machine/HostPort.lean ====
section
/-!
DEFINITION. The host's side of the core: the register window (20_memory.md R70, R74-R84), the
acceptance of commands (R82, 60_exceptions.md R365-R367), and the command in flight.
-/

namespace Sys2Proof.Machine

/-- The registers of the host window (20_memory.md R74). -/
inductive HostReg
  | id | version | ctrl | status | flags | cmd | cmdcnt | errinfo
  /-- 0x0020..0x0FFF (20_memory.md R77). -/
  | reserved
  /-- 0x1000..0x1FFF: the word at IOBUF byte address `a` (20_memory.md R76). -/
  | iobuf (a : Nat)
deriving DecidableEq, Repr

/-- The host window map, for word-aligned offsets (20_memory.md R74). -/
def hostReg (off : HostOff) : HostReg :=
  if 0x1000 ≤ off.toNat then .iobuf (off.toNat - 0x1000)
  else match off.toNat with
    | 0x0000 => .id
    | 0x0004 => .version
    | 0x0008 => .ctrl
    | 0x000C => .status
    | 0x0010 => .flags
    | 0x0014 => .cmd
    | 0x0018 => .cmdcnt
    | 0x001C => .errinfo
    | _ => .reserved

/-- Only 32-bit accesses at multiples of 4 are accepted (20_memory.md R75). -/
def accessLegal (a : Access) : Bool := a.width == .word && a.offset.toNat % 4 == 0

/-- The word a host read returns, and whether it was drawn: IOBUF and FLAGS are open while BUSY = 1,
every other register reads exactly (20_memory.md R76-R84, 70_reset_and_hazards.md R408; DESIGN CHOICE, log 3). -/
def hostReadWord (s : State) : HostReg → Word32 × Bool
  | .id => (idWord, false)
  | .version => (versionWord, false)
  | .ctrl => (s.ctrlWord, false)
  | .status => (s.statusWord, false)
  | .flags =>
    if s.busy then ((Config.freeFlags s.draws).setWidth 32, true)
    else (s.flagBits.setWidth 32, false)
  | .cmd => (0, false)
  | .cmdcnt => (s.cmdcnt, false)
  | .errinfo => (s.errInfo, false)
  | .reserved => (0, false)
  | .iobuf a => if s.busy then (Config.freeWord s.draws, true) else (s.bufWord a, false)

/-- A host read changes nothing but the bus answer and, when it draws, the draw counter
(20_memory.md R88). -/
def hostRead (s : State) (r : HostReg) : State :=
  let w := hostReadWord s r
  { s with response := some ⟨w.1, false⟩, draws := if w.2 then s.draws + 1 else s.draws }

/-- A write of CTRL: SRESET resets everything and discards the IE bits written with it
(20_memory.md R79). -/
def writeCtrl (s : State) (w : Word32) : State :=
  if w.getLsbD 0 then s.doReset
  else { s with ieDone := w.getLsbD 1, ieErr := w.getLsbD 2 }

/-- A write of STATUS: a 1 in DONE clears it; a 1 in ERR clears ERR, ERRCODE and ERRINFO
(20_memory.md R80). -/
def writeStatus (s : State) (w : Word32) : State :=
  let s := if w.getLsbD 1 then { s with done := false } else s
  if w.getLsbD 2 then { s with err := false, errCode := 0, errInfo := 0 } else s

/-- A write to FLAGS or IOBUF, at host offset `off`: dropped with E_HOST_BUSY while BUSY = 1
(60_exceptions.md R367). -/
def writeWhenIdle (s : State) (off : HostOff) (written : State) : State :=
  if s.busy then s.raise .hostBusy (off.setWidth 32) else written

/-- A write of CMD: dropped while ERR = 1; E_CMD_BUSY while BUSY = 1; otherwise the word is checked
and accepted, or the error the check names is raised (20_memory.md R82, 60_exceptions.md R365, R366). -/
def writeCmd (s : State) (w : Word32) : State :=
  if s.err then s
  else if s.busy then s.raise .cmdBusy w
  else match decode w with
    | .error e => s.raise e w
    | .ok _ => { s with cur := some w, busy := true }

/-- A host write of a 32-bit word (20_memory.md R76-R84). -/
def hostWrite (s : State) (off : HostOff) (w : Word32) : State :=
  match hostReg off with
  | .ctrl => writeCtrl s w
  | .status => writeStatus s w
  | .flags => writeWhenIdle s off { s with t := w.getLsbD 0, acc := w.getLsbD 1 }
  | .cmd => writeCmd s w
  | .iobuf a => writeWhenIdle s off (s.storeAt a (leBytes 4 w.toNat))
  | .id | .version | .cmdcnt | .errinfo | .reserved => s

/-- A host access. One of the wrong width or alignment gets the bus error response with read data 0
and changes no state (20_memory.md R75). A write is answered with data 0. -/
def hostAccess (s : State) (a : Access) : State :=
  if accessLegal a then
    match a.kind with
    | .read => hostRead s (hostReg a.offset)
    | .write w => { hostWrite s a.offset w with response := some ⟨0, false⟩ }
  else { s with response := some ⟨0, true⟩ }

/-- The command in flight, decoded: CUR while BUSY = 1 (10_state.md R52). The two faults are reached
only in states no run reaches (DESIGN CHOICE, log 8). -/
def commandInFlight (s : State) : Except Fault Instr :=
  match s.cur with
  | none => .error .busyWithoutCommand
  | some w =>
    match decode w with
    | .ok i => .ok i
    | .error _ => .error .commandNotAccepted

/-- The state in which word `w` has been accepted: CUR holds it and BUSY = 1 (20_memory.md R82), and the
next move is the engine's. -/
def placeInFlight (s : State) (w : Word32) : State :=
  { s with
    cur := some w
    busy := true
    agenda := match s.agenda with
      | [] => []
      | e :: rest => .engine :: e :: rest }

end Sys2Proof.Machine
end

