-- ==== Sys2Proof/Machine/Step.lean ====
section
/-!
DEFINITION. One step of the core: the next move of the interleaving of 10_state.md R40.
-/

namespace Sys2Proof.Machine

/-- The engine's step: it performs the command in flight while BUSY = 1, and has no step otherwise
(10_state.md R40, 20_memory.md R82). -/
def engineStep (s : State) : Host.Outcome State Fault Refusal :=
  if s.busy then
    match commandInFlight s with
    | .ok i => exec i s
    | .error f => .fault f
  else .next s

/-- One step: the first move of the agenda; with no move placed, the engine's (DESIGN CHOICE, log 4). -/
def step (s : State) : Host.Outcome State Fault Refusal :=
  match s.agenda with
  | [] => engineStep s
  | .engine :: rest => engineStep { s with agenda := rest }
  | .host a :: rest => .next (hostAccess { s with agenda := rest } a)
  | .hardReset :: rest => .next ({ s with agenda := rest }).doReset

/-- `s` with a table word accepted as the command in flight, so that the very next step performs it
(DESIGN CHOICE, log 6). Bits at and above `nbits` are 0. -/
def State.withFetchWord (s : State) (nbits w : Nat) : State :=
  placeInFlight s (BitVec.ofNat 32 (w % 2 ^ nbits))

end Sys2Proof.Machine
end

