-- ==== Sys2Proof/Machine/Datapath.lean ====
section
/-!
DEFINITION. The step-by-step units of the datapath: the Montgomery reduction loop (40_fp.md R141-R143),
the homogeneous projective triples and their classes (10_state.md R44), the doubling, addition and mixed
addition formulas, and what is built from them (42_g1_projective.md R251-R254, R264, R265, R274).
No intermediate value is architecturally visible (10_state.md R52): the meanings use the normative
results, and the claims about this file say that the units compute them (log 1, 12).
-/

namespace Sys2Proof.Machine

/-! ### The Montgomery multiplier -/

/-- Rounds i .. of the reduction loop on T: k ← T[i]·m' mod 2^64; T ← T + k·m·2^(64i) (40_fp.md R142). -/
def reduceRounds (m mPrime : Nat) : Nat → Nat → Nat → Nat
  | 0, _, t => t
  | n + 1, i, t =>
    let k := t / 2 ^ (64 * i) % 2 ^ 64 * mPrime % 2 ^ 64
    reduceRounds m mPrime n (i + 1) (t + k * m * 2 ^ (64 * i))

/-- The unit: full product (R141), reduction loop (R142), conditional subtraction (R143). -/
def montMulUnit (m mPrime limbs a b : Nat) : Nat :=
  let u := reduceRounds m mPrime limbs 0 (a * b) / 2 ^ (64 * limbs)
  if m ≤ u then u - m else u

/-- The Fp instance (40_fp.md R140). -/
def montMulUnitF (a b : Nat) : Nat := montMulUnit p pInv64 6 a b

/-- The Scalar instance (40_fp.md R140, 41_scalar.md R200). -/
def montMulUnitS (a b : Nat) : Nat := montMulUnit r rInv64 4 a b

/-! ### Projective triples -/

/-- A triple (X, Y, Z) of canonical values (10_state.md R43; DESIGN CHOICE, log 1). -/
structure Triple where
  x : Fp
  y : Fp
  z : Fp
deriving DecidableEq, Repr

/-- What a triple represents: an affine point, the identity (Z = 0, X = 0, Y ≠ 0), or nothing on E
(10_state.md R44). -/
def Triple.value (t : Triple) : PVal :=
  if t.z = toFp 0 then
    if t.x = toFp 0 ∧ t.y ≠ toFp 0 then .pt .infinity else .junk
  else
    let x := t.x * fpInv t.z
    let y := t.y * fpInv t.z
    if onCurve x y then .pt (.affine x y) else .junk

/-- The triple written for an affine value: (x, y, 1), or (0, 1, 0) (42_g1_projective.md R263). -/
def Affine.toTriple (a : Affine) : Triple :=
  if a.inf then ⟨toFp 0, toFp 1, toFp 0⟩ else ⟨a.x, a.y, toFp 1⟩

/-- The doubling unit (42_g1_projective.md R251). -/
def Triple.dbl (t : Triple) : Triple :=
  let t0 := t.y * t.y
  let z3 := toFp 8 * t0
  let t1 := t.y * t.z
  let t2 := t.z * t.z
  let t2 := curveB3 * t2
  let x3 := t2 * z3
  let y3 := t0 + t2
  let z3 := t1 * z3
  let t1 := toFp 2 * t2
  let t2 := t1 + t2
  let t0 := t0 - t2
  let y3 := t0 * y3
  let y3 := x3 + y3
  let t1 := t.x * t.y
  let x3 := t0 * t1
  let x3 := toFp 2 * x3
  ⟨x3, y3, z3⟩

/-- The complete addition unit (42_g1_projective.md R252). -/
def Triple.add (p1 p2 : Triple) : Triple :=
  let t0 := p1.x * p2.x
  let t1 := p1.y * p2.y
  let t2 := p1.z * p2.z
  let t3 := p1.x + p1.y
  let t4 := p2.x + p2.y
  let t3 := t3 * t4
  let t4 := t0 + t1
  let t3 := t3 - t4
  let t4 := p1.y + p1.z
  let x3 := p2.y + p2.z
  let t4 := t4 * x3
  let x3 := t1 + t2
  let t4 := t4 - x3
  let x3 := p1.x + p1.z
  let y3 := p2.x + p2.z
  let x3 := x3 * y3
  let y3 := t0 + t2
  let y3 := x3 - y3
  let x3 := t0 + t0
  let t0 := x3 + t0
  let t2 := curveB3 * t2
  let z3 := t1 + t2
  let t1 := t1 - t2
  let y3 := curveB3 * y3
  let x3 := t4 * y3
  let t2 := t3 * t1
  let x3 := t2 - x3
  let y3 := y3 * t0
  let t1 := t1 * z3
  let y3 := t1 + y3
  let t0 := t0 * t3
  let z3 := z3 * t4
  let z3 := z3 + t0
  ⟨x3, y3, z3⟩

/-- The mixed addition unit: the left triple unchanged when inf2 = 1 (42_g1_projective.md R253). -/
def Triple.addMixed (p1 : Triple) (a : Affine) : Triple :=
  let t0 := p1.x * a.x
  let t1 := p1.y * a.y
  let t3 := a.x + a.y
  let t4 := p1.x + p1.y
  let t3 := t3 * t4
  let t4 := t0 + t1
  let t3 := t3 - t4
  let t4 := a.y * p1.z
  let t4 := t4 + p1.y
  let y3 := a.x * p1.z
  let y3 := y3 + p1.x
  let x3 := t0 + t0
  let t0 := x3 + t0
  let t2 := curveB3 * p1.z
  let z3 := t1 + t2
  let t1 := t1 - t2
  let y3 := curveB3 * y3
  let x3 := t4 * y3
  let t2 := t3 * t1
  let x3 := t2 - x3
  let y3 := y3 * t0
  let t1 := t1 * z3
  let y3 := t1 + y3
  let t0 := t0 * t3
  let z3 := z3 * t4
  let z3 := z3 + t0
  if a.inf then p1 else ⟨x3, y3, z3⟩

/-- Negation writes (X, −Y, Z) (42_g1_projective.md R269). -/
def Triple.neg (t : Triple) : Triple := ⟨t.x, modNeg t.y, t.z⟩

/-- The ladder on triples from accumulator `acc` (42_g1_projective.md R254). -/
def Triple.ladderFrom (q : Triple) (k : Nat) : Nat → Triple → Triple
  | 0, acc => acc
  | i + 1, acc =>
    let acc := acc.dbl
    let sum := acc.add q
    Triple.ladderFrom q k i (if k.testBit i then sum else acc)

/-- Ladder(Q, k, L) on triples, from (0, 1, 0) (42_g1_projective.md R254). -/
def Triple.ladder (q : Triple) (k l : Nat) : Triple :=
  Triple.ladderFrom q k l ⟨toFp 0, toFp 1, toFp 0⟩

/-- Equality by cross-multiplication, with identity matching identity only (42_g1_projective.md R274). -/
def Triple.equals (t u : Triple) : Bool :=
  (t.z == toFp 0 && u.z == toFp 0) ||
    (t.z != toFp 0 && u.z != toFp 0 && t.x * u.z == u.x * t.z && t.y * u.z == u.y * t.z)

/-- The affine form with the inverse of Z given: the identity on Z = 0 (42_g1_projective.md R264). -/
def Triple.scaled (t : Triple) (zInv : Fp) : Affine :=
  if t.z = toFp 0 then Affine.id else ⟨t.x * zInv, t.y * zInv, false⟩

/-- The inversion-based conversion: (X·Z⁻¹, Y·Z⁻¹) (42_g1_projective.md R264). -/
def Triple.toAffine (t : Triple) : Affine := t.scaled (fpInv t.z)

/-- The Z a triple contributes to the batch product: 1 for the identity (42_g1_projective.md R265). -/
def Triple.batchZ (t : Triple) : Fp := if t.z = toFp 0 then toFp 1 else t.z

/-- Batch normalization by Montgomery's trick (42_g1_projective.md R265). `acc` is the product of the Z
values before the list; the answer is the affine forms and the inverse of `acc`. -/
def batchFrom (acc : Fp) : List Triple → List Affine × Fp
  | [] => ([], fpInv acc)
  | t :: ts =>
    let rest := batchFrom (acc * t.batchZ) ts
    (t.scaled (rest.2 * acc) :: rest.1, rest.2 * t.batchZ)

/-- batch_normalize: one inversion for the whole list (42_g1_projective.md R265). -/
def batchNormalize (ts : List Triple) : List Affine := (batchFrom (toFp 1) ts).1

end Sys2Proof.Machine
end

