-- ==== Sys2Proof/Safety.lean ====
section
/-!
DEFINITION. The terms claims use: the launch premises (70_reset_and_hazards.md R405), the invariant of
the state, the footprint of each command (10_state.md R57), the frame, the host's accesses and the end
of a run (R412).
-/

namespace Sys2Proof.Machine

/-! ### The spec's part of the state -/

/-- The state without the model's own three fields (log 2, 4, 5). -/
def State.coreOf (s : State) : State := { s with agenda := [], response := none, draws := 0 }

/-! ### Launch premises (70_reset_and_hazards.md R405) -/

/-- Idle(s): STATUS.BUSY = 0 and CUR = none. -/
def Idle (s : State) : Prop := s.busy = false ∧ s.cur = none

/-- NoError(s): STATUS.ERR = 0. -/
def NoError (s : State) : Prop := s.err = false

/-- AccClean(s): ACC = 1. -/
def AccClean (s : State) : Prop := s.acc = true

/-- ResetState(s): the core's state is that of R401. -/
def ResetState (s : State) : Prop := s.coreOf = State.reset

/-- NoJunk(s): no P register holds JUNK. -/
def NoJunk (s : State) : Prop := ∀ i : RegIdx, s.getP i ≠ .junk

/-- OnCurveA(s): every A register with inf = 0 holds a point on the curve. -/
def OnCurveA (s : State) : Prop := ∀ i : RegIdx, (s.getA i).onCurve = true

/-! ### Encodings -/

/-- The unassigned OP values, as 30_encoding.md R117 lists them. -/
def Unassigned (op : Nat) : Prop :=
  (0x04 ≤ op ∧ op ≤ 0x0F) ∨ (0x23 ≤ op ∧ op ≤ 0x3F) ∨ (0x56 ≤ op ∧ op ≤ 0x7F) ∨
    (0x91 ≤ op ∧ op ≤ 0x9F) ∨ 0xB0 ≤ op

/-! ### Points on the curve -/

/-- Q ∈ E(Fp) ∪ {O} (00_scope.md R15). -/
def Point.OnCurve : Point → Prop
  | .infinity => True
  | .affine x y => Machine.onCurve x y = true

/-- What R43 says of a P register: the point it represents is a point of E. -/
def PVal.OnCurve : PVal → Prop
  | .pt q => q.OnCurve
  | .junk => True

/-- Every P register holds a PVal in the sense of 10_state.md R43. -/
def PointsOnCurve (s : State) : Prop := ∀ i : RegIdx, (s.getP i).OnCurve

/-- Q3 = Q1 ⊕ Q2 as 00_scope.md R15 lists it, the slope l being a solution of its equation. -/
def IsSum : Point → Point → Point → Prop
  | .infinity, q2, q3 => q3 = q2
  | .affine x1 y1, .infinity, q3 => q3 = .affine x1 y1
  | .affine x1 y1, .affine x2 y2, q3 =>
    if x1 = x2 ∧ y1 + y2 = toFp 0 then q3 = .infinity
    else ∃ l x3 y3 : Fp, q3 = .affine x3 y3 ∧
      (if x1 = x2 then l * (toFp 2 * y1) = toFp 3 * (x1 * x1) else l * (x2 - x1) = y2 - y1) ∧
      x3 = l * l - x1 - x2 ∧ y3 = l * (x1 - x3) - y1

/-- Element k of a register range: index base + k (30_encoding.md R115). -/
def rangeIdx (base : RegIdx) (k : Nat) : RegIdx := Fin.ofNat 16 (base.val + k)

/-! ### The invariant of the state -/

/-- The command in flight: a word the acceptance check lets through while BUSY = 1, none while BUSY = 0
(10_state.md R52, 20_memory.md R82, 70_reset_and_hazards.md R405; DEDUCED, log 18). -/
def InFlight (s : State) : Prop :=
  match s.cur with
  | none => s.busy = false
  | some w => s.busy = true ∧ ∃ i, decode w = .ok i

/-- The error report: ERRCODE and ERRINFO are 0 while ERR = 0, and ERRCODE is one of the six codes
while ERR = 1 (60_exceptions.md R362-R364, 20_memory.md R80). -/
def Reported (s : State) : Prop :=
  if s.err then ∃ e, s.errCode = errorCode e else s.errCode = 0 ∧ s.errInfo = 0

/-- A register with inf = 1 holds exactly (0, 1, 1) (10_state.md R46). -/
def CanonicalIdentity (s : State) : Prop := ∀ i : RegIdx, (s.getA i).inf = true → s.getA i = Affine.id

/-- The invariant every step keeps. -/
structure Inv (s : State) : Prop where
  memory : Memory.wf s.iobuf = true
  identity : CanonicalIdentity s
  inFlight : InFlight s
  report : Reported s

/-! ### Footprints (10_state.md R57) -/

/-- The F register a command writes (10_state.md R57, column F). -/
def destF : Instr → Option RegIdx
  | .fseti d _ | .fmov d _ | .fadd d _ _ | .fsub d _ _ | .fneg d _ | .fmul d _ _ | .fsqr d _
  | .fpow d _ _ | .finv d _ | .fsqrt d _ | .fsel d _ _ | .fsop d _ _ _ | .fldb d _ | .fldm d _ => some d
  | .nop | .tnot | .aset | .tacc | .fisz _ | .flex _ | .feq _ _ | .fstb _ _ | .fstm _ _
  | .sseti _ _ | .smov _ _ | .sadd _ _ _ | .ssub _ _ _ | .sneg _ _ | .smul _ _ _ | .ssqr _ _
  | .spow _ _ _ | .sinv _ _ | .ssqrt _ _ | .sisz _ | .slex _ | .seq _ _ | .ssel _ _ _
  | .ssop _ _ _ _ | .sldb _ _ | .sstb _ _ | .sldm _ _ | .sstm _ _ | .sdbl _ _ | .sldw _ _
  | .sldr _ _ | .pid _ | .pgen _ | .pmov _ _ | .pfroma _ _ | .ptoa _ _ | .pbnorm _ _ _
  | .padd _ _ _ | .paddm _ _ _ | .pdbl _ _ | .pneg _ _ | .psub _ _ _ | .pmul _ _ _ | .pmulx _ _
  | .pclr _ _ | .peq _ _ | .pisid _ | .psel _ _ _ | .aid _ | .agen _ | .amov _ _ | .aneg _ _
  | .aendo _ _ | .aonc _ | .ators _ | .aeq _ _ | .aisid _ | .asel _ _ _ | .astc _ _ | .astu _ _
  | .aldc _ _ | .aldcu _ _ | .aldu _ _ | .alduu _ _ => none

/-- The S register a command writes (10_state.md R57, column S). -/
def destS : Instr → Option RegIdx
  | .sseti d _ | .smov d _ | .sadd d _ _ | .ssub d _ _ | .sneg d _ | .smul d _ _ | .ssqr d _
  | .spow d _ _ | .sinv d _ | .ssqrt d _ | .ssel d _ _ | .ssop d _ _ _ | .sldb d _ | .sldm d _
  | .sdbl d _ | .sldw d _ | .sldr d _ => some d
  | .nop | .tnot | .aset | .tacc | .fseti _ _ | .fmov _ _ | .fadd _ _ _ | .fsub _ _ _
  | .fneg _ _ | .fmul _ _ _ | .fsqr _ _ | .fpow _ _ _ | .finv _ _ | .fsqrt _ _ | .fisz _
  | .flex _ | .feq _ _ | .fsel _ _ _ | .fsop _ _ _ _ | .fldb _ _ | .fstb _ _ | .fldm _ _
  | .fstm _ _ | .sisz _ | .slex _ | .seq _ _ | .sstb _ _ | .sstm _ _ | .pid _ | .pgen _
  | .pmov _ _ | .pfroma _ _ | .ptoa _ _ | .pbnorm _ _ _ | .padd _ _ _ | .paddm _ _ _
  | .pdbl _ _ | .pneg _ _ | .psub _ _ _ | .pmul _ _ _ | .pmulx _ _ | .pclr _ _ | .peq _ _
  | .pisid _ | .psel _ _ _ | .aid _ | .agen _ | .amov _ _ | .aneg _ _ | .aendo _ _ | .aonc _
  | .ators _ | .aeq _ _ | .aisid _ | .asel _ _ _ | .astc _ _ | .astu _ _ | .aldc _ _
  | .aldcu _ _ | .aldu _ _ | .alduu _ _ => none

/-- The P register a command writes (10_state.md R57, column P). -/
def destP : Instr → Option RegIdx
  | .pid d | .pgen d | .pmov d _ | .pfroma d _ | .padd d _ _ | .paddm d _ _ | .pdbl d _
  | .pneg d _ | .psub d _ _ | .pmul d _ _ | .pmulx d _ | .pclr d _ | .psel d _ _ => some d
  | .nop | .tnot | .aset | .tacc | .fseti _ _ | .fmov _ _ | .fadd _ _ _ | .fsub _ _ _
  | .fneg _ _ | .fmul _ _ _ | .fsqr _ _ | .fpow _ _ _ | .finv _ _ | .fsqrt _ _ | .fisz _
  | .flex _ | .feq _ _ | .fsel _ _ _ | .fsop _ _ _ _ | .fldb _ _ | .fstb _ _ | .fldm _ _
  | .fstm _ _ | .sseti _ _ | .smov _ _ | .sadd _ _ _ | .ssub _ _ _ | .sneg _ _ | .smul _ _ _
  | .ssqr _ _ | .spow _ _ _ | .sinv _ _ | .ssqrt _ _ | .sisz _ | .slex _ | .seq _ _
  | .ssel _ _ _ | .ssop _ _ _ _ | .sldb _ _ | .sstb _ _ | .sldm _ _ | .sstm _ _ | .sdbl _ _
  | .sldw _ _ | .sldr _ _ | .ptoa _ _ | .pbnorm _ _ _ | .peq _ _ | .pisid _ | .aid _ | .agen _
  | .amov _ _ | .aneg _ _ | .aendo _ _ | .aonc _ | .ators _ | .aeq _ _ | .aisid _ | .asel _ _ _
  | .astc _ _ | .astu _ _ | .aldc _ _ | .aldcu _ _ | .aldu _ _ | .alduu _ _ => none

/-- The range of A registers a command writes: the first index and how many
(10_state.md R57, column A; 42_g1_projective.md R265). -/
def destA : Instr → Option (RegIdx × Nat)
  | .ptoa d _ | .aid d | .agen d | .amov d _ | .aneg d _ | .aendo d _ | .asel d _ _ | .aldc d _
  | .aldcu d _ | .aldu d _ | .alduu d _ => some (d, 1)
  | .pbnorm d _ n => some (d, countOf n)
  | .nop | .tnot | .aset | .tacc | .fseti _ _ | .fmov _ _ | .fadd _ _ _ | .fsub _ _ _
  | .fneg _ _ | .fmul _ _ _ | .fsqr _ _ | .fpow _ _ _ | .finv _ _ | .fsqrt _ _ | .fisz _
  | .flex _ | .feq _ _ | .fsel _ _ _ | .fsop _ _ _ _ | .fldb _ _ | .fstb _ _ | .fldm _ _
  | .fstm _ _ | .sseti _ _ | .smov _ _ | .sadd _ _ _ | .ssub _ _ _ | .sneg _ _ | .smul _ _ _
  | .ssqr _ _ | .spow _ _ _ | .sinv _ _ | .ssqrt _ _ | .sisz _ | .slex _ | .seq _ _
  | .ssel _ _ _ | .ssop _ _ _ _ | .sldb _ _ | .sstb _ _ | .sldm _ _ | .sstm _ _ | .sdbl _ _
  | .sldw _ _ | .sldr _ _ | .pid _ | .pgen _ | .pmov _ _ | .pfroma _ _ | .padd _ _ _
  | .paddm _ _ _ | .pdbl _ _ | .pneg _ _ | .psub _ _ _ | .pmul _ _ _ | .pmulx _ _ | .pclr _ _
  | .peq _ _ | .pisid _ | .psel _ _ _ | .aonc _ | .ators _ | .aeq _ _ | .aisid _ | .astc _ _
  | .astu _ _ => none

/-- The commands that perform setT: the list of 10_state.md R48. -/
def flagWriting : Instr → Bool
  | .finv _ _ | .fsqrt _ _ | .fisz _ | .flex _ | .feq _ _ | .fldb _ _ | .fldm _ _ | .sinv _ _
  | .ssqrt _ _ | .sisz _ | .slex _ | .seq _ _ | .sldb _ _ | .sldm _ _ | .peq _ _ | .pisid _
  | .aonc _ | .ators _ | .aeq _ _ | .aisid _ | .aldc _ _ | .aldcu _ _ | .aldu _ _ | .alduu _ _ => true
  | .nop | .tnot | .aset | .tacc | .fseti _ _ | .fmov _ _ | .fadd _ _ _ | .fsub _ _ _
  | .fneg _ _ | .fmul _ _ _ | .fsqr _ _ | .fpow _ _ _ | .fsel _ _ _ | .fsop _ _ _ _ | .fstb _ _
  | .fstm _ _ | .sseti _ _ | .smov _ _ | .sadd _ _ _ | .ssub _ _ _ | .sneg _ _ | .smul _ _ _
  | .ssqr _ _ | .spow _ _ _ | .ssel _ _ _ | .ssop _ _ _ _ | .sstb _ _ | .sstm _ _ | .sdbl _ _
  | .sldw _ _ | .sldr _ _ | .pid _ | .pgen _ | .pmov _ _ | .pfroma _ _ | .ptoa _ _
  | .pbnorm _ _ _ | .padd _ _ _ | .paddm _ _ _ | .pdbl _ _ | .pneg _ _ | .psub _ _ _
  | .pmul _ _ _ | .pmulx _ _ | .pclr _ _ | .psel _ _ _ | .aid _ | .agen _ | .amov _ _
  | .aneg _ _ | .aendo _ _ | .asel _ _ _ | .astc _ _ | .astu _ _ => false

/-- The bytes of IOBUF a command stores to: the first address and how many
(10_state.md R57, column IOBUF; 20_memory.md R85). -/
def storeRange : Instr → Option (Nat × Nat)
  | .fstb a off => some (off.toNat, xferLen (.fstb a off))
  | .fstm a off => some (off.toNat, xferLen (.fstm a off))
  | .sstb a off => some (off.toNat, xferLen (.sstb a off))
  | .sstm a off => some (off.toNat, xferLen (.sstm a off))
  | .astc a off => some (off.toNat, xferLen (.astc a off))
  | .astu a off => some (off.toNat, xferLen (.astu a off))
  | .nop | .tnot | .aset | .tacc | .fseti _ _ | .fmov _ _ | .fadd _ _ _ | .fsub _ _ _
  | .fneg _ _ | .fmul _ _ _ | .fsqr _ _ | .fpow _ _ _ | .finv _ _ | .fsqrt _ _ | .fisz _
  | .flex _ | .feq _ _ | .fsel _ _ _ | .fsop _ _ _ _ | .fldb _ _ | .fldm _ _ | .sseti _ _
  | .smov _ _ | .sadd _ _ _ | .ssub _ _ _ | .sneg _ _ | .smul _ _ _ | .ssqr _ _ | .spow _ _ _
  | .sinv _ _ | .ssqrt _ _ | .sisz _ | .slex _ | .seq _ _ | .ssel _ _ _ | .ssop _ _ _ _
  | .sldb _ _ | .sldm _ _ | .sdbl _ _ | .sldw _ _ | .sldr _ _ | .pid _ | .pgen _ | .pmov _ _
  | .pfroma _ _ | .ptoa _ _ | .pbnorm _ _ _ | .padd _ _ _ | .paddm _ _ _ | .pdbl _ _
  | .pneg _ _ | .psub _ _ _ | .pmul _ _ _ | .pmulx _ _ | .pclr _ _ | .peq _ _ | .pisid _
  | .psel _ _ _ | .aid _ | .agen _ | .amov _ _ | .aneg _ _ | .aendo _ _ | .aonc _ | .ators _
  | .aeq _ _ | .aisid _ | .asel _ _ _ | .aldc _ _ | .aldcu _ _ | .aldu _ _ | .alduu _ _ => none

/-- The commands that write T: those that perform setT, and `TNOT`, `TACC` (10_state.md R48). -/
def writesT (i : Instr) : Bool := flagWriting i || i = .tnot || i = .tacc

/-- The commands that write ACC: those that perform setT, and `ASET` (10_state.md R48). -/
def writesAcc (i : Instr) : Bool := flagWriting i || i = .aset

/-- A byte address lies in a range (first address, length). -/
def inRange (range : Option (Nat × Nat)) (a : Nat) : Prop :=
  match range with
  | some (base, len) => base ≤ a ∧ a < base + len
  | none => False

/-- An A register lies in a range (first index, count). -/
def inRegRange (range : Option (RegIdx × Nat)) (i : RegIdx) : Prop :=
  match range with
  | some (base, n) => base.val ≤ i.val ∧ i.val < base.val + n
  | none => False

/-- What command `i` leaves unchanged from `s` to `t`: every register that is not its destination, every
byte of IOBUF it does not store to, each flag it does not write, the interrupt enables and the error
report; and the model's fields it has no business with. BUSY, DONE, CMDCNT and CUR are the completion's,
which every command writes (20_memory.md R82). -/
structure Frame (i : Instr) (s t : State) : Prop where
  fp : ∀ k, destF i ≠ some k → t.getF k = s.getF k
  scalar : ∀ k, destS i ≠ some k → t.getS k = s.getS k
  projective : ∀ k, destP i ≠ some k → t.getP k = s.getP k
  affine : ∀ k, ¬ inRegRange (destA i) k → t.getA k = s.getA k
  bytes : ∀ a, ¬ inRange (storeRange i) a → readByte t.iobuf a = readByte s.iobuf a
  flagT : writesT i = false → t.t = s.t
  flagAcc : writesAcc i = false → t.acc = s.acc
  enables : t.ieDone = s.ieDone ∧ t.ieErr = s.ieErr
  report : t.err = s.err ∧ t.errCode = s.errCode ∧ t.errInfo = s.errInfo
  model : t.agenda = s.agenda ∧ t.response = s.response

/-- The completion of a command: BUSY ← 0, CUR ← none, DONE ← 1, CMDCNT ← CMDCNT + 1 mod 2^32
(20_memory.md R82, R83; CUR: DEDUCED, log 18). -/
structure Completed (s t : State) : Prop where
  busy : t.busy = false
  cur : t.cur = none
  done : t.done = true
  count : t.cmdcnt = s.cmdcnt + 1

/-! ### The host's accesses and the end of a run -/

/-- A legal 32-bit write at a host offset (20_memory.md R75). -/
def wordWrite (off : HostOff) (w : Word32) : Access := ⟨off, .word, .write w⟩

/-- A legal 32-bit read at a host offset (20_memory.md R75). -/
def wordRead (off : HostOff) : Access := ⟨off, .word, .read⟩

/-- The moves that issue a command word and let the engine perform it
(70_reset_and_hazards.md R406, steps 4 and 5). -/
def issue (w : Word32) : List Event := [.host (wordWrite 0x14 w), .engine]

/-- The host access is a write that resets the core (20_memory.md R79). -/
def Access.resets (a : Access) : Bool :=
  match a.kind with
  | .write w => accessLegal a && hostReg a.offset == .ctrl && w.getLsbD 0
  | .read => false

/-- The host access is a write that clears ERR (20_memory.md R80). -/
def Access.clearsErr (a : Access) : Bool :=
  match a.kind with
  | .write w => accessLegal a && hostReg a.offset == .status && w.getLsbD 2
  | .read => false

/-- The move that the next step takes; with no move placed, the engine's (log 4). -/
def State.nextEvent (s : State) : Event := s.agenda.headD .engine

/-- The run has ended: the host has no access left and BUSY = 0 (70_reset_and_hazards.md R412). -/
def RunEnded (s : State) : Prop := s.agenda = [] ∧ s.busy = false

/-- The result of a run: register files, IOBUF, T, ACC, STATUS, ERRINFO, CMDCNT; not CTRL, not CUR,
not the model's fields (70_reset_and_hazards.md R412). -/
def State.result (s : State) : State :=
  { s.coreOf with cur := none, ieDone := false, ieErr := false }

end Sys2Proof.Machine
end

