-- ==== Sys2Proof/Certificates/Slice0/Obligations.lean ====
section
/-!
DEFINITION. The statements for the provers. Where a statement says `exec i s = .next …`, its conclusion is
that the command completes; `State.setF`, `setS`, `setP`, `setA`, `setT`, `storeAt` and `complete` are the
named updates of Machine/Ops.lean and Machine/Flags.lean.
-/

open Sys2Proof Sys2Proof.Machine

/-! ### Encoding (30_encoding.md) -/

/-- Every well-formed command is what its word decodes to: no field of an encoding is dropped
(R110, R111, R116, R121). -/
def Obligations.DecodeOfEncode : Prop :=
  ∀ i : Instr, wellFormed i = true → decode (encode i) = .ok i

/-- Every accepted word is the word of the command it decodes to, and that command is well-formed: a word
has one meaning (R110, R111, R116, R121). -/
def Obligations.EncodeOfDecode : Prop :=
  ∀ (w : Word32) (i : Instr), decode w = .ok i → encode i = w ∧ wellFormed i = true

/-- Words the spec writes out decode to the commands they stand for (the Example lines of R150, R155,
R157, R164, R220, R261, R265, R271, R317, R325, R350, R353). -/
def Obligations.SpecWordsDecode : Prop :=
  decode 0x10100007 = .ok (.fseti 1 7) ∧ decode 0x15312000 = .ok (.fmul 3 1 2) ∧
  decode 0x17100100 = .ok (.fpow 1 0 0x100) ∧ decode 0x1E015100 = .ok (.fsop 0 1 5 1) ∧
  decode 0x4F100040 = .ok (.sldb 1 0x40) ∧ decode 0x81000000 = .ok (.pgen 0) ∧
  decode 0x85400200 = .ok (.pbnorm 4 0 2) ∧ decode 0x8B100000 = .ok (.pmul 1 0 0) ∧
  decode 0xA7001000 = .ok (.aeq 0 1) ∧ decode 0xAF100030 = .ok (.alduu 1 0x30) ∧
  decode 0x00000000 = .ok .nop ∧ decode 0x03000000 = .ok .tacc

/-- R117: exactly the words with a listed OP value raise E_ILLEGAL_OP, and such a word is not accepted: its
write reports code 1 and the word, and changes nothing else of the core. -/
def Obligations.UnassignedOpcodesRefused : Prop :=
  ∀ w : Word32,
    (decode w = .error .illegalOp ↔ Unassigned (opField w).toNat) ∧
    ∀ s : State, s.err = false → s.busy = false → Unassigned (opField w).toNat →
      (hostAccess s (wordWrite 0x14 w)).coreOf =
        { s.coreOf with err := true, errCode := 1, errInfo := w }

/-- R118: a word whose opcode is a command's and whose must-be-zero bits are not all 0 raises E_RESERVED
and is not accepted. -/
def Obligations.ReservedBitsRefused : Prop :=
  ∀ (w : Word32) (i : Instr), opField w = opcodeOf i → w &&& mbzMask (formatOf i) ≠ 0 →
    decode w = .error .reserved ∧
    ∀ s : State, s.err = false → s.busy = false →
      (hostAccess s (wordWrite 0x14 w)).coreOf =
        { s.coreOf with err := true, errCode := 2, errInfo := w }

/-- The operand checks of R121 with the numbers of 60_exceptions.md R382: the largest valid OFF is 4048 for
n = 48, 4064 for n = 32, 4032 for n = 64 and 4000 for n = 96, and no other; a register range base .. base +
N of formats N and N2 must end at index 15 or below. -/
def Obligations.OperandRangesChecked : Prop :=
  (∀ (i : Instr) (off : BufOff), offOf i = some off →
    (xferLen i = 32 ∨ xferLen i = 48 ∨ xferLen i = 64 ∨ xferLen i = 96) ∧
    decode (encode i) =
      if off.toNat ≤ (if xferLen i = 32 then 4064 else if xferLen i = 48 then 4048
        else if xferLen i = 64 then 4032 else 4000) then .ok i else .error .rangeBuf) ∧
  ∀ d a b n : RegIdx,
    decode (encode (.fsop d a b n)) =
      (if a.val + n.val ≤ 15 ∧ b.val + n.val ≤ 15 then .ok (.fsop d a b n) else .error .rangeReg) ∧
    decode (encode (.ssop d a b n)) =
      (if a.val + n.val ≤ 15 ∧ b.val + n.val ≤ 15 then .ok (.ssop d a b n) else .error .rangeReg) ∧
    decode (encode (.pbnorm d a n)) =
      (if d.val + n.val ≤ 15 ∧ a.val + n.val ≤ 15 then .ok (.pbnorm d a n) else .error .rangeReg)

/-! ### The step (10_state.md R40, 20_memory.md R82) -/

/-- A step runs the decoded command: the engine's move, chosen by the agenda or taken when no move is
placed, performs the command in flight; a table word placed at reset is performed by the very next step.
With no command in flight the engine's move changes nothing; the other moves are the host's access and
the hard reset. -/
def Obligations.StepRunsTheCommandInFlight : Prop :=
  (∀ (s : State) (w : Word32) (i : Instr), s.busy = true → s.cur = some w → decode w = .ok i →
    (s.agenda = [] → step s = exec i s) ∧
    ∀ rest, s.agenda = .engine :: rest → step s = exec i { s with agenda := rest }) ∧
  (∀ (nbits w : Nat) (i : Instr), decodeTableWord nbits w = some i →
    step (State.reset.withFetchWord nbits w) = exec i (State.reset.withFetchWord nbits w)) ∧
  (∀ s : State, s.busy = false →
    (s.agenda = [] → step s = .next s) ∧
    ∀ rest, s.agenda = .engine :: rest → step s = .next { s with agenda := rest }) ∧
  ∀ (s : State) (rest : List Event),
    (∀ a, s.agenda = .host a :: rest →
      step s = .next (hostAccess { s with agenda := rest } a)) ∧
    (s.agenda = .hardReset :: rest → step s = .next ({ s with agenda := rest }).doReset)

/-! ### Reset (10_state.md R56, 70_reset_and_hazards.md R400, R401) -/

/-- R56 and R401: what every piece of state holds after reset, and what the host reads at every offset
(20_memory.md R74, R77, R78, R82). The point of a P register is that of the triple (0, 1, 0) (10_state.md
R44), which the model does not hold (log 1). -/
def Obligations.ResetValues : Prop :=
  (∀ k : RegIdx, (State.reset.getF k).val = 0 ∧ (State.reset.getS k).val = 0 ∧
    State.reset.getP k = .pt .infinity ∧ State.reset.getA k = ⟨toFp 0, toFp 1, true⟩) ∧
  (⟨toFp 0, toFp 1, toFp 0⟩ : Triple).value = .pt .infinity ∧
  (∀ a, readByte State.reset.iobuf a = 0x00) ∧
  State.reset.t = false ∧ State.reset.acc = true ∧
  State.reset.ieDone = false ∧ State.reset.ieErr = false ∧
  State.reset.busy = false ∧ State.reset.done = false ∧ State.reset.err = false ∧
  State.reset.errCode = 0 ∧ State.reset.errInfo = 0 ∧ State.reset.cmdcnt = 0 ∧
  State.reset.cur = none ∧ State.reset.irq = false ∧
  hostReadWord State.reset .id = (0x424C5331, false) ∧
  hostReadWord State.reset .version = (0x00010000, false) ∧
  hostReadWord State.reset .ctrl = (0, false) ∧
  hostReadWord State.reset .status = (0, false) ∧
  hostReadWord State.reset .flags = (2, false) ∧
  hostReadWord State.reset .cmd = (0, false) ∧
  hostReadWord State.reset .reserved = (0, false) ∧
  hostReadWord State.reset .cmdcnt = (0, false) ∧
  hostReadWord State.reset .errinfo = (0, false) ∧
  ∀ a, hostReadWord State.reset (.iobuf a) = (0, false)

/-- The reset state meets the invariant and every launch premise of R405. -/
def Obligations.ResetMeetsThePremises : Prop :=
  Inv State.reset ∧ PointsOnCurve State.reset ∧ ResetState State.reset ∧ Idle State.reset ∧
  NoError State.reset ∧ AccClean State.reset ∧ NoJunk State.reset ∧ OnCurveA State.reset

/-- Both reset events put the whole of the core at its reset values in one step, whatever the state; irq
is then 0. -/
def Obligations.ResetEventsResetEverything : Prop :=
  (∀ (s : State) (rest : List Event), s.agenda = .hardReset :: rest →
    ∃ t, step s = .next t ∧ t.coreOf = State.reset ∧ t.irq = false) ∧
  ∀ (s : State) (w : Word32), w.getLsbD 0 = true →
    (hostAccess s (wordWrite 0x08 w)).coreOf = State.reset ∧
    (hostAccess s (wordWrite 0x08 w)).irq = false

/-! ### Invariants of every step -/

/-- From every state that meets the invariant a step gives a next state, which meets it: IOBUF keeps its
canonical form, an A register with inf = 1 holds (0, 1, 1) (10_state.md R46), CUR holds an accepted word
exactly while BUSY = 1 (DEDUCED, log 18), the error report is one R362 gives; and no step stops (60_exceptions.md
R381). -/
def Obligations.EveryStepKeepsTheInvariant : Prop :=
  ∀ s : State, Inv s → ∃ t, step s = .next t ∧ Inv t

/-- What a P register holds stays the identity, a point of E, or JUNK (10_state.md R43). -/
def Obligations.PointsStayOnTheCurve : Prop :=
  ∀ s t : State, PointsOnCurve s → step s = .next t → PointsOnCurve t

/-- R405: while no `ALDUU` is performed, every A register stays on the curve and no P register becomes
JUNK. -/
def Obligations.NoJunkWithoutUncheckedLoads : Prop :=
  ∀ s t : State, PointsOnCurve s → NoJunk s → OnCurveA s → step s = .next t →
    (∀ (w : Word32) (d : RegIdx) (off : BufOff), s.cur = some w → decode w ≠ .ok (.alduu d off)) →
    NoJunk t ∧ OnCurveA t

/-! ### Completion and frames -/

/-- Every well-formed command completes from every state: one step, BUSY ← 0, DONE ← 1, CMDCNT ← CMDCNT + 1
(20_memory.md R82, 60_exceptions.md R368), and CUR ← none, which R82 does not say: the model deduces it from
10_state.md R52, R56 and 70_reset_and_hazards.md R405 (DEDUCED, log 18). A command that fails check 3 or 4 of
R121 performs only `raise`, with its word (20_memory.md R72, 30_encoding.md R115); that the command itself
repeats the check of its acceptance is deduced too (DEDUCED, log 9). -/
def Obligations.EveryCommandCompletes : Prop :=
  ∀ (i : Instr) (s : State),
    (wellFormed i = true → ∃ t, exec i s = .next t ∧ Completed s t) ∧
    (regRangesFit i = false → exec i s = .next (s.raise .rangeReg (encode i))) ∧
    (bufRangeFits i = false → exec i s = .next (s.raise .rangeBuf (encode i)))

/-- The frame of the control commands `NOP`, `TNOT`, `ASET`, `TACC` (10_state.md R57). -/
def Obligations.FrameOfControlCommands : Prop :=
  ∀ (i : Instr) (s t : State), familyOf i = .control → wellFormed i = true → exec i s = .next t →
    Frame i s t ∧ t.draws = s.draws

/-- The frame of the Fp commands: only F[D], the bytes an `FSTB` or `FSTM` stores, and the flags of setT
(10_state.md R57). -/
def Obligations.FrameOfFpCommands : Prop :=
  ∀ (i : Instr) (s t : State), familyOf i = .fp → wellFormed i = true → exec i s = .next t →
    Frame i s t ∧ t.draws = s.draws

/-- The frame of the Scalar commands: only S[D], the bytes an `SSTB` or `SSTM` stores, and the flags of
setT (10_state.md R57). -/
def Obligations.FrameOfScalarCommands : Prop :=
  ∀ (i : Instr) (s t : State), familyOf i = .scalar → wellFormed i = true → exec i s = .next t →
    Frame i s t ∧ t.draws = s.draws

/-- The frame of the projective commands: only P[D], the A registers `PTOA` and `PBNORM` write, and the
flags of setT (10_state.md R57). -/
def Obligations.FrameOfProjectiveCommands : Prop :=
  ∀ (i : Instr) (s t : State), familyOf i = .projective → wellFormed i = true → exec i s = .next t →
    Frame i s t

/-- The frame of the affine and codec commands: only A[D], the bytes an `ASTC` or `ASTU` stores, and the
flags of setT (10_state.md R57). -/
def Obligations.FrameOfAffineCommands : Prop :=
  ∀ (i : Instr) (s t : State), familyOf i = .affine → wellFormed i = true → exec i s = .next t →
    Frame i s t

/-- R41: the projective and affine commands neither read nor write the F file; nor do the control and the
Scalar commands. -/
def Obligations.FpFileIsKeptApart : Prop :=
  ∀ (i : Instr) (s t : State) (f : Vector Fp 16), familyOf i ≠ .fp → wellFormed i = true →
    exec i s = .next t →
    t.freg = s.freg ∧ exec i { s with freg := f } = .next { t with freg := f }

/-! ### Flags (10_state.md R48, R49) -/

/-- R48: the commands of its list perform setT; `TNOT` and `TACC` write T but not ACC, `ASET` ACC but not
T; every other command leaves both flags unchanged. -/
def Obligations.FlagsAreWrittenBySetT : Prop :=
  ∀ (i : Instr) (s : State), wellFormed i = true → ∃ t, exec i s = .next t ∧
    (flagWriting i = true → t.acc = (s.acc && t.t)) ∧
    (i = .tnot ∨ i = .tacc → t.acc = s.acc) ∧
    (i = .aset → t.t = s.t) ∧
    (flagWriting i = false → i ≠ .tnot → i ≠ .tacc → i ≠ .aset → t.t = s.t ∧ t.acc = s.acc)

/-- R49: a fallible command writes its destination and performs setT, and changes nothing else; when it
performs setT(0) the destination gets the zero value of its file: stored 0, or (0, 1, 1). -/
def Obligations.AbsenceOfValueWritesZero : Prop :=
  ∀ (i : Instr) (s : State) (d : RegIdx), wellFormed i = true → flagWriting i = true →
    (destF i = some d → ∃ v ok, exec i s = .next ((s.setF d v).setT ok).complete ∧
      (ok = false → v = toFp 0)) ∧
    (destS i = some d → ∃ v ok, exec i s = .next ((s.setS d v).setT ok).complete ∧
      (ok = false → v = toFr 0)) ∧
    (destA i = some (d, 1) → ∃ v ok, exec i s = .next ((s.setA d v).setT ok).complete ∧
      (ok = false → v = ⟨toFp 0, toFp 1, true⟩))

/-! ### The host's side (20_memory.md, 60_exceptions.md) -/

/-- The outcome of one host write to CMD, in the order of 60_exceptions.md R366: dropped while ERR = 1;
E_CMD_BUSY while BUSY = 1; the error the check of R121 names; otherwise accepted: CUR ← w, BUSY ← 1. Nothing
else of the core changes. -/
def Obligations.CommandWriteOutcomes : Prop :=
  ∀ (s : State) (w : Word32),
    (hostAccess s (wordWrite 0x14 w)).coreOf =
      if s.err then s.coreOf
      else if s.busy then { s.coreOf with err := true, errCode := 0x05, errInfo := w }
      else match decode w with
        | .error .illegalOp => { s.coreOf with err := true, errCode := 0x01, errInfo := w }
        | .error .reserved => { s.coreOf with err := true, errCode := 0x02, errInfo := w }
        | .error .rangeBuf => { s.coreOf with err := true, errCode := 0x03, errInfo := w }
        | .error .rangeReg => { s.coreOf with err := true, errCode := 0x04, errInfo := w }
        | .error _ => s.coreOf
        | .ok _ => { s.coreOf with cur := some w, busy := true }

/-- R364: while ERR = 1 every step keeps ERR, ERRCODE and ERRINFO, whatever it refuses or performs, until the
host writes 1 to STATUS.ERR or a reset, which make all three 0. A write to CMD, and while BUSY = 1 one to FLAGS
or IOBUF, is then dropped: nothing of the core changes. -/
def Obligations.FirstErrorIsLatched : Prop :=
  (∀ s t : State, Inv s → s.err = true → step s = .next t →
    match s.nextEvent with
    | .engine => t.err = true ∧ t.errCode = s.errCode ∧ t.errInfo = s.errInfo
    | .hardReset => t.err = false ∧ t.errCode = 0 ∧ t.errInfo = 0
    | .host a =>
      if a.resets = true ∨ a.clearsErr = true then t.err = false ∧ t.errCode = 0 ∧ t.errInfo = 0
      else t.err = true ∧ t.errCode = s.errCode ∧ t.errInfo = s.errInfo) ∧
  ∀ (s : State) (a : Access), s.err = true →
    (hostReg a.offset = .cmd ∨
      s.busy = true ∧ (hostReg a.offset = .flags ∨ ∃ k, hostReg a.offset = .iobuf k)) →
    (hostAccess s a).coreOf = s.coreOf

/-- Reads have no side effect on the core; a read of any register but IOBUF and FLAGS is exact at all times,
those two while BUSY = 0; and a read repeated while idle answers the same (20_memory.md R88,
70_reset_and_hazards.md R408). The words that the host reads, from every state: ID and VERSION; IE_DONE in
bit 1 and IE_ERR in bit 2 of CTRL; BUSY, DONE and ERR in bits 0, 1, 2 and ERRCODE in bits 15:8 of STATUS;
while BUSY = 0, T in bit 0 and ACC in bit 1 of FLAGS; ERRINFO (R78-R81, R84). CMDCNT is another statement's. -/
def Obligations.ReadsHaveNoSideEffect : Prop :=
  (∀ (s : State) (a : Access), a.kind = .read →
    (hostAccess s a).coreOf = s.coreOf ∧ (hostAccess s a).agenda = s.agenda ∧
    (s.busy = false → hostAccess (hostAccess s a) a = hostAccess s a) ∧
    ((∀ k, hostReg a.offset ≠ .iobuf k) → hostReg a.offset ≠ .flags →
      hostAccess (hostAccess s a) a = hostAccess s a)) ∧
  ∀ s : State,
    (hostAccess s (wordRead 0x00)).response = some ⟨0x424C5331, false⟩ ∧
    (hostAccess s (wordRead 0x04)).response = some ⟨0x00010000, false⟩ ∧
    (hostAccess s (wordRead 0x08)).response =
      some ⟨BitVec.ofNat 32 (2 * s.ieDone.toNat + 4 * s.ieErr.toNat), false⟩ ∧
    (hostAccess s (wordRead 0x0C)).response =
      some ⟨BitVec.ofNat 32 (s.busy.toNat + 2 * s.done.toNat + 4 * s.err.toNat +
        256 * s.errCode.toNat), false⟩ ∧
    (s.busy = false → (hostAccess s (wordRead 0x10)).response =
      some ⟨BitVec.ofNat 32 (s.t.toNat + 2 * s.acc.toNat), false⟩) ∧
    (hostAccess s (wordRead 0x1C)).response = some ⟨s.errInfo, false⟩

/-- R75: an access that is not 32 bits wide at a multiple of 4 gets the bus error response with read data 0
and changes no state; every other access, a dropped write included, is answered without a bus error (60_exceptions.md
R367). That the answer is kept, and that an access without a bus error has one, is the model's choice: the field
`response` (log 5). -/
def Obligations.WrongAccessIsABusError : Prop :=
  ∀ (s : State) (a : Access),
    (a.width ≠ .word ∨ a.offset.toNat % 4 ≠ 0 →
      hostAccess s a = { s with response := some ⟨0, true⟩ }) ∧
    (a.width = .word → a.offset.toNat % 4 = 0 →
      ∃ data, (hostAccess s a).response = some ⟨data, false⟩)

/-- Reserved offsets and bits, and read-only registers (20_memory.md R77): they read as 0, and writes to
them change nothing. -/
def Obligations.ReservedReadsZeroIgnoresWrites : Prop :=
  (∀ (s : State) (off : HostOff), 0x20 ≤ off.toNat → off.toNat < 0x1000 → off.toNat % 4 = 0 →
    (hostAccess s (wordRead off)).response = some ⟨0, false⟩ ∧
    ∀ w, (hostAccess s (wordWrite off w)).coreOf = s.coreOf) ∧
  (∀ (s : State) (off : HostOff) (w : Word32), off ∈ [0x00, 0x04, 0x18, 0x1C] →
    (hostAccess s (wordWrite off w)).coreOf = s.coreOf) ∧
  (∀ (s : State) (w : Word32),
    hostAccess s (wordWrite 0x08 w) = hostAccess s (wordWrite 0x08 (w &&& 7)) ∧
    hostAccess s (wordWrite 0x0C w) = hostAccess s (wordWrite 0x0C (w &&& 6)) ∧
    hostAccess s (wordWrite 0x10 w) = hostAccess s (wordWrite 0x10 (w &&& 3))) ∧
  ∀ s : State,
    (hostReadWord s .ctrl).1 &&& 0xFFFFFFF9 = 0 ∧
    (hostReadWord s .status).1 &&& 0xFFFF00F8 = 0 ∧
    (hostReadWord s .flags).1 &&& 0xFFFFFFFC = 0 ∧
    (hostReadWord s .cmd).1 = 0

/-- The host's view of IOBUF while BUSY = 0: the word at 0x1000 + 4k is made of bytes 4k .. 4k + 3, the
lowest address least significant; a write sets those four bytes and no other, and nothing else of the core, ERR = 1
or not (20_memory.md R76, 60_exceptions.md R365). -/
def Obligations.BufferWordsAreLittleEndian : Prop :=
  ∀ (s : State) (k : Nat) (w : Word32), Memory.wf s.iobuf = true → s.busy = false → k < 1024 →
    (hostAccess s (wordRead (BitVec.ofNat 13 (0x1000 + 4 * k)))).response =
      some ⟨readByte s.iobuf (4 * k + 3) ++ readByte s.iobuf (4 * k + 2) ++
        readByte s.iobuf (4 * k + 1) ++ readByte s.iobuf (4 * k), false⟩ ∧
    (hostAccess (hostAccess s (wordWrite (BitVec.ofNat 13 (0x1000 + 4 * k)) w))
      (wordRead (BitVec.ofNat 13 (0x1000 + 4 * k)))).response = some ⟨w, false⟩ ∧
    (hostAccess s (wordWrite (BitVec.ofNat 13 (0x1000 + 4 * k)) w)).coreOf =
      { s.coreOf with
        iobuf := (hostAccess s (wordWrite (BitVec.ofNat 13 (0x1000 + 4 * k)) w)).iobuf } ∧
    ∀ a, ¬(4 * k ≤ a ∧ a < 4 * k + 4) →
      readByte (hostAccess s (wordWrite (BitVec.ofNat 13 (0x1000 + 4 * k)) w)).iobuf a =
        readByte s.iobuf a

/-- CTRL, STATUS and the interrupt: a write to CTRL with SRESET = 0 sets IE_DONE to bit 1 and IE_ERR to bit 2,
and nothing else of the core changes; a write of 1 to DONE clears DONE, a write of 1 to ERR clears ERR, ERRCODE
and ERRINFO, each on its own, and nothing else of the core changes; both while BUSY = 1 or ERR = 1 too; irq is
high exactly when an enabled cause is set, so that clearing both causes makes it low (20_memory.md R79, R80,
60_exceptions.md R365, R371). -/
def Obligations.StatusCausesAndInterrupt : Prop :=
  ∀ (s : State) (w : Word32),
    (w.getLsbD 0 = false → (hostAccess s (wordWrite 0x08 w)).coreOf =
      { s.coreOf with ieDone := w.getLsbD 1, ieErr := w.getLsbD 2 }) ∧
    (hostAccess s (wordWrite 0x0C w)).coreOf =
      { s.coreOf with
        done := s.done && !w.getLsbD 1
        err := s.err && !w.getLsbD 2
        errCode := if w.getLsbD 2 then 0 else s.errCode
        errInfo := if w.getLsbD 2 then 0 else s.errInfo } ∧
    (s.irq = true ↔ (s.ieDone = true ∧ s.done = true) ∨ (s.ieErr = true ∧ s.err = true)) ∧
    (hostAccess s (wordWrite 0x0C 6)).irq = false

/-- While a command is in flight, no access of the host that is not a reset changes what the command works
on: the register files, IOBUF, the flags, CUR and BUSY keep their values, and CMDCNT and DONE are not set
(60_exceptions.md R363, R367; 20_memory.md R87). A write to IOBUF or FLAGS then reports E_HOST_BUSY with its
offset when ERR = 0. -/
def Obligations.CommandInFlightIsUndisturbed : Prop :=
  ∀ (s : State) (a : Access), s.busy = true → a.resets = false →
    ((hostAccess s a).freg = s.freg ∧ (hostAccess s a).sreg = s.sreg ∧
      (hostAccess s a).preg = s.preg ∧ (hostAccess s a).areg = s.areg ∧
      (hostAccess s a).iobuf = s.iobuf ∧ (hostAccess s a).t = s.t ∧ (hostAccess s a).acc = s.acc ∧
      (hostAccess s a).cur = s.cur ∧ (hostAccess s a).busy = true ∧
      (hostAccess s a).cmdcnt = s.cmdcnt ∧ ((hostAccess s a).done = true → s.done = true)) ∧
    (∀ w, a = wordWrite a.offset w → a.offset.toNat % 4 = 0 → s.err = false →
      (a.offset = 0x10 ∨ 0x1000 ≤ a.offset.toNat) →
      (hostAccess s a).err = true ∧ (hostAccess s a).errCode = 0x06 ∧
        (hostAccess s a).errInfo = a.offset.setWidth 32)

/-- A host write to FLAGS while BUSY = 0 sets T to bit 0 and ACC to bit 1 and changes nothing else of the core,
ERR = 1 or not (20_memory.md R81, 60_exceptions.md R365). One that races the completion of a command: written
first it is dropped and reported, after the completion it is applied; the model admits both orders
(60_exceptions.md R372; the order is the agenda's, log 4). -/
def Obligations.FlagsWriteRacesCompletion : Prop :=
  (∀ (s : State) (w : Word32), s.busy = false →
    (hostAccess s (wordWrite 0x10 w)).coreOf =
      { s.coreOf with t := w.getLsbD 0, acc := w.getLsbD 1 }) ∧
  ∀ (i : Instr) (s : State) (w : Word32), wellFormed i = true → s.busy = true →
    s.cur = some (encode i) → s.err = false →
    (∀ rest, s.agenda = .host (wordWrite 0x10 w) :: .engine :: rest →
      ∃ t u, step s = .next t ∧ step t = .next u ∧
        t.err = true ∧ t.errCode = 0x06 ∧ t.errInfo = 0x10 ∧ t.t = s.t ∧ t.acc = s.acc ∧
        u.busy = false ∧ u.err = true ∧ u.errCode = 0x06) ∧
    (∀ rest, s.agenda = .engine :: .host (wordWrite 0x10 w) :: rest →
      ∃ t u, step s = .next t ∧ step t = .next u ∧
        t.busy = false ∧ u.err = false ∧ u.t = w.getLsbD 0 ∧ u.acc = w.getLsbD 1)

/-- The protocol of 70_reset_and_hazards.md R406 for one command: from an idle state without error, writing
the word of a well-formed command and letting the engine move performs that command on the state the host
left, and the run has ended with BUSY = 0, ERR = 0, DONE = 1 and one more command counted. The moves stand in the
model's agenda (log 4); the answer the write got, in the model's own field, is left open (log 5). -/
def Obligations.IssuedCommandIsPerformed : Prop :=
  ∀ (i : Instr) (s : State), wellFormed i = true → Idle s → NoError s →
    s.agenda = issue (encode i) →
    ∃ t answer, core.run 2 s = .next t ∧ RunEnded t ∧ t.err = false ∧ t.done = true ∧
      t.cmdcnt = s.cmdcnt + 1 ∧
      exec i { s with
        agenda := [], busy := true, cur := some (encode i), response := answer } = .next t

/-- R83: CMDCNT is the number of commands performed since the last reset modulo 2^32: a step adds 1 exactly
when the engine performs a command, a reset makes it 0, and no refused, dropped or other access counts; a
write to its offset leaves it, and a read returns it. -/
def Obligations.CmdcntCountsPerformedCommands : Prop :=
  (∀ s t : State, Inv s → step s = .next t →
    t.cmdcnt =
      match s.nextEvent with
      | .engine => if s.busy then s.cmdcnt + 1 else s.cmdcnt
      | .hardReset => 0
      | .host a => if a.resets then 0 else s.cmdcnt) ∧
  ∀ (s : State) (w : Word32),
    (hostAccess s (wordWrite 0x18 w)).cmdcnt = s.cmdcnt ∧
    (hostAccess s (wordRead 0x18)).response = some ⟨s.cmdcnt, false⟩

/-! ### Field commands on values (40_fp.md, 41_scalar.md) -/

/-- `FADD`, `FSUB`, `FNEG`, `FMUL`, `FSQR` complete and are the ring operations on values modulo p
(R152-R156). -/
def Obligations.FpRingCommands : Prop :=
  ∀ (d a b : RegIdx) (s : State),
    (∃ x, exec (.fadd d a b) s = .next (s.setF d x).complete ∧
      (valF x).val = ((valF (s.getF a)).val + (valF (s.getF b)).val) % p) ∧
    (∃ x, exec (.fsub d a b) s = .next (s.setF d x).complete ∧
      (valF x).val = ((valF (s.getF a)).val + (p - (valF (s.getF b)).val)) % p) ∧
    (∃ x, exec (.fneg d a) s = .next (s.setF d x).complete ∧
      (valF x).val = (p - (valF (s.getF a)).val) % p) ∧
    (∃ x, exec (.fmul d a b) s = .next (s.setF d x).complete ∧
      (valF x).val = (valF (s.getF a)).val * (valF (s.getF b)).val % p) ∧
    (∃ x, exec (.fsqr d a) s = .next (s.setF d x).complete ∧
      (valF x).val = (valF (s.getF a)).val ^ 2 % p)

/-- `SADD`, `SSUB`, `SNEG`, `SMUL`, `SSQR`, `SDBL` complete and are the ring operations on values modulo r
(R207-R211, R224). -/
def Obligations.ScalarRingCommands : Prop :=
  ∀ (d a b : RegIdx) (s : State),
    (∃ x, exec (.sadd d a b) s = .next (s.setS d x).complete ∧
      (valS x).val = ((valS (s.getS a)).val + (valS (s.getS b)).val) % r) ∧
    (∃ x, exec (.ssub d a b) s = .next (s.setS d x).complete ∧
      (valS x).val = ((valS (s.getS a)).val + (r - (valS (s.getS b)).val)) % r) ∧
    (∃ x, exec (.sneg d a) s = .next (s.setS d x).complete ∧
      (valS x).val = (r - (valS (s.getS a)).val) % r) ∧
    (∃ x, exec (.smul d a b) s = .next (s.setS d x).complete ∧
      (valS x).val = (valS (s.getS a)).val * (valS (s.getS b)).val % r) ∧
    (∃ x, exec (.ssqr d a) s = .next (s.setS d x).complete ∧
      (valS x).val = (valS (s.getS a)).val ^ 2 % r) ∧
    (∃ x, exec (.sdbl d a) s = .next (s.setS d x).complete ∧
      (valS x).val = 2 * (valS (s.getS a)).val % r)

/-- `FSETI`, `SSETI` load the value of the immediate; `FMOV`, `SMOV` copy; `FSEL`, `SSEL` select on T
(R150, R151, R163, R205, R206, R218). -/
def Obligations.FieldConstantsMovesSelects : Prop :=
  ∀ (d a b : RegIdx) (imm : BitVec 16) (s : State),
    (∃ x, exec (.fseti d imm) s = .next (s.setF d x).complete ∧ (valF x).val = imm.toNat) ∧
    (∃ x, exec (.sseti d imm) s = .next (s.setS d x).complete ∧ (valS x).val = imm.toNat) ∧
    exec (.fmov d a) s = .next (s.setF d (s.getF a)).complete ∧
    exec (.smov d a) s = .next (s.setS d (s.getS a)).complete ∧
    exec (.fsel d a b) s = .next (s.setF d (if s.t then s.getF a else s.getF b)).complete ∧
    exec (.ssel d a b) s = .next (s.setS d (if s.t then s.getS a else s.getS b)).complete

/-- `FPOW` and `SPOW` raise the value to the exact little-endian exponent of 48 or 32 bytes; 0^0 = 1
(R157, R212). -/
def Obligations.FieldPowers : Prop :=
  ∀ (d a : RegIdx) (off : BufOff) (s : State),
    (off.toNat ≤ 4048 → ∃ x, exec (.fpow d a off) s = .next (s.setF d x).complete ∧
      (valF x).val =
        (valF (s.getF a)).val ^ leInt (readBytes s.iobuf off.toNat 48) % p) ∧
    (off.toNat ≤ 4064 → ∃ x, exec (.spow d a off) s = .next (s.setS d x).complete ∧
      (valS x).val =
        (valS (s.getS a)).val ^ leInt (readBytes s.iobuf off.toNat 32) % r)

/-- `FINV` and `SINV`: the inverse with T = 1 for every non-zero value, stored 0 with T = 0 for 0
(R148, R158, R202, R213). -/
def Obligations.FieldInverses : Prop :=
  ∀ (d a : RegIdx) (s : State),
    (∃ x ok, exec (.finv d a) s = .next ((s.setF d x).setT ok).complete ∧
      ((s.getF a).val ≠ 0 → ok = true ∧ (valF x).val * (valF (s.getF a)).val % p = 1) ∧
      ((s.getF a).val = 0 → ok = false ∧ x.val = 0)) ∧
    (∃ x ok, exec (.sinv d a) s = .next ((s.setS d x).setT ok).complete ∧
      ((s.getS a).val ≠ 0 → ok = true ∧ (valS x).val * (valS (s.getS a)).val % r = 1) ∧
      ((s.getS a).val = 0 → ok = false ∧ x.val = 0))

/-- `FSQRT`: for a square u, the root u^((p+1)/4) with T = 1; for a non-residue, stored 0 with T = 0
(R149, R159). -/
def Obligations.FpSquareRoots : Prop :=
  ∀ (d a : RegIdx) (s : State),
    ∃ x ok, exec (.fsqrt d a) s = .next ((s.setF d x).setT ok).complete ∧
      (ok = true ↔ ∃ y : Nat, y * y % p = (valF (s.getF a)).val) ∧
      (ok = true → (valF x).val * (valF x).val % p = (valF (s.getF a)).val ∧
        (valF x).val = (valF (s.getF a)).val ^ ((p + 1) / 4) % p) ∧
      (ok = false → x.val = 0)

/-- `SSQRT`: for a square, the root that is at most (r − 1)/2, with T = 1; for a non-residue, stored 0 with
T = 0 (R203, R214). -/
def Obligations.ScalarSquareRoots : Prop :=
  ∀ (d a : RegIdx) (s : State),
    ∃ x ok, exec (.ssqrt d a) s = .next ((s.setS d x).setT ok).complete ∧
      (ok = true ↔ ∃ y : Nat, y * y % r = (valS (s.getS a)).val) ∧
      (ok = true → (valS x).val * (valS x).val % r = (valS (s.getS a)).val ∧
        (valS x).val ≤ (r - 1) / 2) ∧
      (ok = false → x.val = 0)

/-- The predicates `FISZ`, `FLEX`, `FEQ`, `SISZ`, `SLEX`, `SEQ` on values: zero, above half the modulus,
equal (R160-R162, R215-R217; 00_scope.md R21). -/
def Obligations.FieldPredicates : Prop :=
  ∀ (a b : RegIdx) (s : State),
    exec (.fisz a) s = .next (s.setT (decide ((valF (s.getF a)).val = 0))).complete ∧
    exec (.flex a) s = .next (s.setT (decide ((p - 1) / 2 < (valF (s.getF a)).val))).complete ∧
    exec (.feq a b) s =
      .next (s.setT (decide ((valF (s.getF a)).val = (valF (s.getF b)).val))).complete ∧
    exec (.sisz a) s = .next (s.setT (decide ((valS (s.getS a)).val = 0))).complete ∧
    exec (.slex a) s = .next (s.setT (decide ((r - 1) / 2 < (valS (s.getS a)).val))).complete ∧
    exec (.seq a b) s =
      .next (s.setT (decide ((valS (s.getS a)).val = (valS (s.getS b)).val))).complete

/-- `FSOP` and `SSOP`: the sum of the n = N + 1 products of the values of two register ranges, reduced
(R164, R219). -/
def Obligations.SumsOfProducts : Prop :=
  ∀ (d a b n : RegIdx) (s : State), a.val + n.val ≤ 15 → b.val + n.val ≤ 15 →
    (∃ x, exec (.fsop d a b n) s = .next (s.setF d x).complete ∧
      (valF x).val = ((List.range (n.val + 1)).map fun k =>
        (valF (s.getF (rangeIdx a k))).val * (valF (s.getF (rangeIdx b k))).val).sum % p) ∧
    (∃ x, exec (.ssop d a b n) s = .next (s.setS d x).complete ∧
      (valS x).val = ((List.range (n.val + 1)).map fun k =>
        (valS (s.getS (rangeIdx a k))).val * (valS (s.getS (rangeIdx b k))).val).sum % r)

/-- `FLDB`, `FLDM`: the canonical big-endian value and the stored limbs, with T = 1 when below p, stored 0
and T = 0 otherwise. `FSTB`, `FSTM` store what the loads read back into the register (R165-R168). -/
def Obligations.FpLoadsAndStores : Prop :=
  ∀ (d a : RegIdx) (off : BufOff) (s : State), off.toNat ≤ 4048 →
    (∃ x ok, exec (.fldb d off) s = .next ((s.setF d x).setT ok).complete ∧
      (beInt (readBytes s.iobuf off.toNat 48) < p →
        ok = true ∧ (valF x).val = beInt (readBytes s.iobuf off.toNat 48)) ∧
      (p ≤ beInt (readBytes s.iobuf off.toNat 48) → ok = false ∧ x.val = 0)) ∧
    (∃ x ok, exec (.fldm d off) s = .next ((s.setF d x).setT ok).complete ∧
      (leInt (readBytes s.iobuf off.toNat 48) < p →
        ok = true ∧ x.val = leInt (readBytes s.iobuf off.toNat 48)) ∧
      (p ≤ leInt (readBytes s.iobuf off.toNat 48) → ok = false ∧ x.val = 0)) ∧
    (Memory.wf s.iobuf = true →
      (∃ t, exec (.fstb a off) s = .next t ∧
        beInt (readBytes t.iobuf off.toNat 48) = (valF (s.getF a)).val ∧
        exec (.fldb d off) t = .next ((t.setF d (s.getF a)).setT true).complete) ∧
      (∃ t, exec (.fstm a off) s = .next t ∧
        leInt (readBytes t.iobuf off.toNat 48) = (s.getF a).val ∧
        exec (.fldm d off) t = .next ((t.setF d (s.getF a)).setT true).complete))

/-- `SLDB`, `SLDM`: the canonical little-endian value and the stored limbs, with T = 1 when below r, stored
0 and T = 0 otherwise. `SSTB`, `SSTM` store what the loads read back. `SLDR` and `SLDW` load any 256-bit and
any 512-bit integer modulo r (R220-R223, R225, R226). -/
def Obligations.ScalarLoadsAndStores : Prop :=
  ∀ (d a : RegIdx) (off : BufOff) (s : State), off.toNat ≤ 4064 →
    (∃ x ok, exec (.sldb d off) s = .next ((s.setS d x).setT ok).complete ∧
      (leInt (readBytes s.iobuf off.toNat 32) < r →
        ok = true ∧ (valS x).val = leInt (readBytes s.iobuf off.toNat 32)) ∧
      (r ≤ leInt (readBytes s.iobuf off.toNat 32) → ok = false ∧ x.val = 0)) ∧
    (∃ x ok, exec (.sldm d off) s = .next ((s.setS d x).setT ok).complete ∧
      (leInt (readBytes s.iobuf off.toNat 32) < r →
        ok = true ∧ x.val = leInt (readBytes s.iobuf off.toNat 32)) ∧
      (r ≤ leInt (readBytes s.iobuf off.toNat 32) → ok = false ∧ x.val = 0)) ∧
    (Memory.wf s.iobuf = true →
      (∃ t, exec (.sstb a off) s = .next t ∧
        leInt (readBytes t.iobuf off.toNat 32) = (valS (s.getS a)).val ∧
        exec (.sldb d off) t = .next ((t.setS d (s.getS a)).setT true).complete) ∧
      (∃ t, exec (.sstm a off) s = .next t ∧
        leInt (readBytes t.iobuf off.toNat 32) = (s.getS a).val ∧
        exec (.sldm d off) t = .next ((t.setS d (s.getS a)).setT true).complete)) ∧
    (∃ x, exec (.sldr d off) s = .next (s.setS d x).complete ∧
      (valS x).val = leInt (readBytes s.iobuf off.toNat 32) % r) ∧
    (off.toNat ≤ 4032 → ∃ x, exec (.sldw d off) s = .next (s.setS d x).complete ∧
      (valS x).val = leInt (readBytes s.iobuf off.toNat 64) % r)

/-! ### Projective commands (42_g1_projective.md) -/

/-- `PID`, `PGEN`, `PMOV`, `PSEL`, and `PFROMA`: the identity, the point of an on-curve value, JUNK
otherwise (R260-R263, R276). The generator is the point of 00_scope.md R14, on the curve; its coordinates are
what the spec itself marks as general knowledge (log 16). -/
def Obligations.ProjectiveConstantsMovesConversion : Prop :=
  ∀ (d a b : RegIdx) (s : State),
    exec (.pid d) s = .next (s.setP d (.pt .infinity)).complete ∧
    (exec (.pgen d) s = .next (s.setP d (.pt (.affine genX genY))).complete ∧
      (Point.affine genX genY).OnCurve ∧
      genX.val =
        0x17f1d3a73197d7942695638c4fa9ac0fc3688c4f9774b905a14e3a3f171bac586c55e83ff97a1aeffb3af00adb22c6bb ∧
      genY.val =
        0x08b3f481e3aaa0f1a09e30ed741d8ae4fcf5e095d5d00af600db18cb2c04b3edd03cc744a2888ae40caa232946c5e7e1) ∧
    exec (.pmov d a) s = .next (s.setP d (s.getP a)).complete ∧
    exec (.psel d a b) s = .next (s.setP d (if s.t then s.getP a else s.getP b)).complete ∧
    ((s.getA a).inf = true → exec (.pfroma d a) s = .next (s.setP d (.pt .infinity)).complete) ∧
    ((s.getA a).inf = false →
      ((s.getA a).y.val ^ 2 % p = ((s.getA a).x.val ^ 3 + 4) % p →
        exec (.pfroma d a) s =
          .next (s.setP d (.pt (.affine (s.getA a).x (s.getA a).y))).complete) ∧
      ((s.getA a).y.val ^ 2 % p ≠ ((s.getA a).x.val ^ 3 + 4) % p →
        exec (.pfroma d a) s = .next (s.setP d .junk).complete))

/-- The point adder: for points of E, `PADD`, `PADDM`, `PDBL`, `PNEG`, `PSUB` write the sum, the double, the
negative and the difference by the law of 00_scope.md R15, a point of E again; a JUNK operand, or an
off-curve right operand of `PADDM`, gives JUNK; an identity right operand of `PADDM` gives the left operand
exactly (R252, R253, R255, R266-R270). -/
def Obligations.PointAdderComputesTheGroupLaw : Prop :=
  ∀ (d a b : RegIdx) (s : State),
    (∀ q1 q2, s.getP a = .pt q1 → s.getP b = .pt q2 → q1.OnCurve → q2.OnCurve →
      (∃ q3, exec (.padd d a b) s = .next (s.setP d (.pt q3)).complete ∧
        IsSum q1 q2 q3 ∧ q3.OnCurve) ∧
      (∃ n3 q3, exec (.psub d a b) s = .next (s.setP d (.pt q3)).complete ∧
        IsSum n3 q2 .infinity ∧ IsSum q1 n3 q3 ∧ q3.OnCurve)) ∧
    (∀ q1, s.getP a = .pt q1 → q1.OnCurve →
      (∃ q3, exec (.pdbl d a) s = .next (s.setP d (.pt q3)).complete ∧
        IsSum q1 q1 q3 ∧ q3.OnCurve) ∧
      (∃ n1, exec (.pneg d a) s = .next (s.setP d (.pt n1)).complete ∧
        IsSum n1 q1 .infinity ∧ n1.OnCurve) ∧
      ((s.getA b).inf = false → (s.getA b).onCurve = true →
        ∃ q3, exec (.paddm d a b) s = .next (s.setP d (.pt q3)).complete ∧
          IsSum q1 (.affine (s.getA b).x (s.getA b).y) q3 ∧ q3.OnCurve)) ∧
    ((s.getA b).inf = true → exec (.paddm d a b) s = .next (s.setP d (s.getP a)).complete) ∧
    ((s.getA b).onCurve = false → exec (.paddm d a b) s = .next (s.setP d .junk).complete) ∧
    (s.getP a = .junk →
      exec (.padd d a b) s = .next (s.setP d .junk).complete ∧
      exec (.psub d a b) s = .next (s.setP d .junk).complete ∧
      exec (.pdbl d a) s = .next (s.setP d .junk).complete ∧
      exec (.pneg d a) s = .next (s.setP d .junk).complete ∧
      ((s.getA b).inf = false → exec (.paddm d a b) s = .next (s.setP d .junk).complete)) ∧
    (s.getP b = .junk →
      exec (.padd d a b) s = .next (s.setP d .junk).complete ∧
      exec (.psub d a b) s = .next (s.setP d .junk).complete)

/-- The scalar multiplier: for a point Q of E, `PMUL` writes k·Q, Q added to itself k times, with k the
canonical scalar; `PMULX` writes x·Q = ⊖(|x|·Q) and `PCLR` (1 − x)·Q = (|x| + 1)·Q; JUNK gives JUNK
(00_scope.md R12, R16; R254, R271-R273). -/
def Obligations.ScalarMultiplierComputesMultiples : Prop :=
  ∀ (d a b : RegIdx) (s : State),
    (∀ q, s.getP a = .pt q → q.OnCurve →
      exec (.pmul d a b) s =
        .next (s.setP d (.pt (q.nsmul (valS (s.getS b)).val))).complete ∧
      exec (.pmulx d a) s = .next (s.setP d (.pt (q.nsmul 0xd201000000010000).neg)).complete ∧
      exec (.pclr d a) s = .next (s.setP d (.pt (q.nsmul 0xd201000000010001))).complete) ∧
    (s.getP a = .junk →
      exec (.pmul d a b) s = .next (s.setP d .junk).complete ∧
      exec (.pmulx d a) s = .next (s.setP d .junk).complete ∧
      exec (.pclr d a) s = .next (s.setP d .junk).complete)

/-- `PTOA` and `PBNORM`: the affine form of each source, (0, 1, 1) for the identity; a JUNK source gives its
own destination a free value of the set R264 names, drawn on its own, and leaves the others exact
(R264, R265; log 2). -/
def Obligations.AffineFormsOfPoints : Prop :=
  ∀ (d a n : RegIdx) (s : State),
    (exec (.ptoa d a) s =
      match s.getP a with
      | .pt .infinity => .next (s.setA d ⟨toFp 0, toFp 1, true⟩).complete
      | .pt (.affine x y) => .next (s.setA d ⟨x, y, false⟩).complete
      | .junk => .next ({ s.setA d (drawnAffine s.draws) with draws := s.draws + 1 }).complete) ∧
    (d.val + n.val ≤ 15 → a.val + n.val ≤ 15 →
      ∃ t, exec (.pbnorm d a n) s = .next t ∧
        ∀ k, k ≤ n.val →
          t.getA (rangeIdx d k) =
            match s.getP (rangeIdx a k) with
            | .pt .infinity => ⟨toFp 0, toFp 1, true⟩
            | .pt (.affine x y) => ⟨x, y, false⟩
            | .junk => drawnAffine (s.draws +
                ((List.range k).filter fun j => s.getP (rangeIdx a j) = .junk).length)) ∧
    ∀ m, drawnAffine m = ⟨toFp 0, toFp 1, true⟩ ∨ ∃ x y, drawnAffine m = ⟨x, y, false⟩

/-- `PEQ` and `PISID` on points are equality and the identity test; on JUNK they perform setT of a free bit
(R274, R275; log 2). -/
def Obligations.ProjectivePredicates : Prop :=
  ∀ (a b : RegIdx) (s : State),
    (∀ q1 q2, s.getP a = .pt q1 → s.getP b = .pt q2 →
      exec (.peq a b) s = .next (s.setT (decide (q1 = q2))).complete) ∧
    (s.getP a = .junk ∨ s.getP b = .junk →
      exec (.peq a b) s =
        .next ({ s.setT (Config.freeBit s.draws) with draws := s.draws + 1 }).complete) ∧
    (∀ q1, s.getP a = .pt q1 →
      exec (.pisid a) s = .next (s.setT (decide (q1 = .infinity))).complete) ∧
    (s.getP a = .junk →
      exec (.pisid a) s =
        .next ({ s.setT (Config.freeBit s.draws) with draws := s.draws + 1 }).complete)

/-! ### Affine and codec commands (43_g1_affine_codec.md) -/

/-- `AID`, `AGEN`, `AMOV`, `ASEL`; `ANEG` keeps the identity canonical and negates y; `AENDO` multiplies x
by the β of 00_scope.md R13, a cube root of unity other than 1, and maps points of E to points of E (R302,
R310-R314, R319). `AGEN` loads the generator of R14 (general knowledge, log 16). -/
def Obligations.AffineConstantsMovesMaps : Prop :=
  ∀ (d a b : RegIdx) (s : State),
    exec (.aid d) s = .next (s.setA d ⟨toFp 0, toFp 1, true⟩).complete ∧
    exec (.agen d) s = .next (s.setA d ⟨genX, genY, false⟩).complete ∧
    genX.val =
      0x17f1d3a73197d7942695638c4fa9ac0fc3688c4f9774b905a14e3a3f171bac586c55e83ff97a1aeffb3af00adb22c6bb ∧
    genY.val =
      0x08b3f481e3aaa0f1a09e30ed741d8ae4fcf5e095d5d00af600db18cb2c04b3edd03cc744a2888ae40caa232946c5e7e1 ∧
    exec (.amov d a) s = .next (s.setA d (s.getA a)).complete ∧
    exec (.asel d a b) s = .next (s.setA d (if s.t then s.getA a else s.getA b)).complete ∧
    ((s.getA a).inf = true →
      exec (.aneg d a) s = .next (s.setA d ⟨toFp 0, toFp 1, true⟩).complete) ∧
    ((s.getA a).inf = false → ∃ y, exec (.aneg d a) s =
      .next (s.setA d ⟨(s.getA a).x, y, false⟩).complete ∧ y.val = (p - (s.getA a).y.val) % p) ∧
    (∃ v, exec (.aendo d a) s = .next (s.setA d v).complete ∧
      v.x.val = beta.val * (s.getA a).x.val % p ∧ v.y = (s.getA a).y ∧ v.inf = (s.getA a).inf ∧
      v.onCurve = (s.getA a).onCurve) ∧
    beta.val =
      0x5f19672fdf76ce51ba69c6076a0f77eaddb3a93be6f89688de17d813620a00022e01fffffffefffe ∧
    beta.val ^ 3 % p = 1 ∧ beta.val ≠ 1

/-- `AONC`, `AEQ`, `AISID`, and `ATORS`: the flag dominates; on the curve the subgroup test is
⊖(x²·Q) = φ(Q) with the β of 00_scope.md R13, off it setT of a free bit (R300, R301, R303, R315-R318; log 2). Of
the cube roots of unity β is the one for which the identity holds at the generator (R13; the generator is general
knowledge, log 16). -/
def Obligations.AffinePredicates : Prop :=
  beta.val =
    0x5f19672fdf76ce51ba69c6076a0f77eaddb3a93be6f89688de17d813620a00022e01fffffffefffe ∧
  ((Point.affine genX genY).nsmul (0xd201000000010000 ^ 2)).neg = .affine (beta * genX) genY ∧
  ∀ (a b : RegIdx) (s : State),
    exec (.aonc a) s = .next (s.setT ((s.getA a).inf ||
      decide ((s.getA a).y.val ^ 2 % p = ((s.getA a).x.val ^ 3 + 4) % p))).complete ∧
    exec (.aisid a) s = .next (s.setT (s.getA a).inf).complete ∧
    exec (.aeq a b) s = .next (s.setT (decide (
      ((s.getA a).inf = true ∧ (s.getA b).inf = true) ∨
      ((s.getA a).inf = false ∧ (s.getA b).inf = false ∧
        (s.getA a).x = (s.getA b).x ∧ (s.getA a).y = (s.getA b).y)))).complete ∧
    ((s.getA a).inf = true → exec (.ators a) s = .next (s.setT true).complete) ∧
    ((s.getA a).inf = false → (s.getA a).onCurve = true →
      exec (.ators a) s = .next (s.setT (decide (
        ((Point.affine (s.getA a).x (s.getA a).y).nsmul (0xd201000000010000 ^ 2)).neg =
          .affine (beta * (s.getA a).x) (s.getA a).y))).complete) ∧
    ((s.getA a).onCurve = false →
      exec (.ators a) s =
        .next ({ s.setT (Config.freeBit s.draws) with draws := s.draws + 1 }).complete)

/-- The bytes `ASTC` and `ASTU` store, as one big-endian integer: compressed, bit 383 set, and bit 382 for
the identity, else x with bit 381 for a y above (p − 1)/2; uncompressed, bit 766 for the identity, else x
then y (R304, R306, R320, R321). -/
def Obligations.PointsAreSerialized : Prop :=
  ∀ (a : RegIdx) (off : BufOff) (s : State), Memory.wf s.iobuf = true →
    (off.toNat ≤ 4048 → ∃ t, exec (.astc a off) s = .next t ∧
      beInt (readBytes t.iobuf off.toNat 48) =
        if (s.getA a).inf then 2 ^ 383 + 2 ^ 382
        else 2 ^ 383 + (if (p - 1) / 2 < (s.getA a).y.val then 2 ^ 381 else 0) +
          (s.getA a).x.val) ∧
    (off.toNat ≤ 4000 → ∃ t, exec (.astu a off) s = .next t ∧
      beInt (readBytes t.iobuf off.toNat 96) =
        if (s.getA a).inf then 2 ^ 766
        else (s.getA a).x.val * 2 ^ 384 + (s.getA a).y.val)

/-- Compressed deserialization: of the 48-byte big-endian integer v, with body x = v mod 2^381, `ALDCU`
answers the identity exactly for v = 2^383 + 2^382; the point (x, y) with the curve's equation and the sort
bit as the sign of y when bits 383, 382 are 1, 0, x < p and x³ + 4 is a square; and T = 0 with (0, 1, 1)
otherwise. `ALDC` answers the same when the result passes the subgroup test and T = 0 otherwise
(R305, R322, R323). -/
def Obligations.CompressedPointsAreDeserialized : Prop :=
  ∀ (d : RegIdx) (off : BufOff) (s : State) (v x : Nat), off.toNat ≤ 4048 →
    v = beInt (readBytes s.iobuf off.toNat 48) → x = v % 2 ^ 381 →
    ∃ c ok, exec (.aldcu d off) s = .next ((s.setA d c).setT ok).complete ∧
      (ok = false → c = ⟨toFp 0, toFp 1, true⟩) ∧
      (ok = true ∧ c.inf = true ↔ v = 2 ^ 383 + 2 ^ 382) ∧
      (c.inf = true → c = ⟨toFp 0, toFp 1, true⟩) ∧
      (ok = true ∧ c.inf = false ↔
        v.testBit 383 = true ∧ v.testBit 382 = false ∧ x < p ∧
          ∃ y : Nat, y ^ 2 % p = (x ^ 3 + 4) % p) ∧
      (ok = true ∧ c.inf = false →
        c.x.val = x ∧ c.y.val ^ 2 % p = (x ^ 3 + 4) % p ∧
          decide ((p - 1) / 2 < c.y.val) = v.testBit 381) ∧
      (ok = true ∧ c.torsionFree = true →
        exec (.aldc d off) s = .next ((s.setA d c).setT true).complete) ∧
      (ok = false ∨ c.torsionFree = false →
        exec (.aldc d off) s =
          .next ((s.setA d ⟨toFp 0, toFp 1, true⟩).setT false).complete)

/-- Uncompressed deserialization: of the 96-byte big-endian integer v, with x = v / 2^384 mod 2^381 and
y = v mod 2^384, `ALDUU` answers the identity exactly for v = 2^766, (x, y) as it stands when bits 767, 766
and 765 are 0 and x, y < p, on the curve or not, and T = 0 with (0, 1, 1) otherwise. `ALDU` answers the same
when the result is on the curve and passes the subgroup test, T = 0 otherwise, and never draws
(R307, R324, R325). -/
def Obligations.UncompressedPointsAreDeserialized : Prop :=
  ∀ (d : RegIdx) (off : BufOff) (s : State) (v x y : Nat), off.toNat ≤ 4000 →
    v = beInt (readBytes s.iobuf off.toNat 96) → x = v / 2 ^ 384 % 2 ^ 381 → y = v % 2 ^ 384 →
    ∃ c ok, exec (.alduu d off) s = .next ((s.setA d c).setT ok).complete ∧
      (ok = false → c = ⟨toFp 0, toFp 1, true⟩) ∧
      (ok = true ∧ c.inf = true ↔ v = 2 ^ 766) ∧
      (c.inf = true → c = ⟨toFp 0, toFp 1, true⟩) ∧
      (ok = true ∧ c.inf = false ↔ v / 2 ^ 765 = 0 ∧ x < p ∧ y < p) ∧
      (ok = true ∧ c.inf = false → c.x.val = x ∧ c.y.val = y) ∧
      (ok = true ∧ c.onCurve = true ∧ c.torsionFree = true →
        exec (.aldu d off) s = .next ((s.setA d c).setT true).complete) ∧
      (ok = false ∨ c.onCurve = false ∨ c.torsionFree = false →
        exec (.aldu d off) s =
          .next ((s.setA d ⟨toFp 0, toFp 1, true⟩).setT false).complete)

/-- The codec round trips: what `ASTU` stores `ALDUU` reads back exactly, on the curve or not; what `ASTC`
stores of an on-curve value `ALDCU` reads back; and the checked loads do so when the value passes the
subgroup test. All with T = 1, the identity included (R322, R324). -/
def Obligations.CodecRoundTrips : Prop :=
  ∀ (d a : RegIdx) (off : BufOff) (s : State), Memory.wf s.iobuf = true →
    ((s.getA a).inf = true → s.getA a = Affine.id) →
    (off.toNat ≤ 4000 → ∃ t, exec (.astu a off) s = .next t ∧
      exec (.alduu d off) t = .next ((t.setA d (s.getA a)).setT true).complete ∧
      ((s.getA a).onCurve = true → (s.getA a).torsionFree = true →
        exec (.aldu d off) t = .next ((t.setA d (s.getA a)).setT true).complete)) ∧
    (off.toNat ≤ 4048 → (s.getA a).onCurve = true → ∃ t, exec (.astc a off) s = .next t ∧
      exec (.aldcu d off) t = .next ((t.setA d (s.getA a)).setT true).complete ∧
      ((s.getA a).torsionFree = true →
        exec (.aldc d off) t = .next ((t.setA d (s.getA a)).setT true).complete))

/-! ### Control commands (44_control.md) -/

/-- `NOP` only completes; `TNOT` inverts T and keeps ACC; `ASET` sets ACC and keeps T; `TACC` copies ACC to T
(R350-R353). -/
def Obligations.ControlCommands : Prop :=
  ∀ s : State,
    exec .nop s = .next s.complete ∧
    exec .tnot s = .next ({ s with t := !s.t }).complete ∧
    exec .aset s = .next ({ s with acc := true }).complete ∧
    exec .tacc s = .next ({ s with t := s.acc }).complete

/-! ### The datapath units compute the normative results -/

/-- The Montgomery multiplier: the reduction loop over 6 or 4 limbs and the final subtraction give
a·b·R⁻¹ mod m, for every product below m·R, the second operand of `SLDW` and `SLDR` included
(40_fp.md R141-R144, 41_scalar.md R200, R225). -/
def Obligations.MontgomeryLoopIsClosedForm : Prop :=
  (∀ a b : Nat, a * b < p * 2 ^ 384 → montMulUnitF a b = (montMulF a b).val) ∧
  ∀ a b : Nat, a * b < r * 2 ^ 256 → montMulUnitS a b = (montMulS a b).val

/-- The doubling unit: for every triple of the class of a point Q, the output is a triple of the class of
Q ⊕ Q, the identity included (R251). -/
def Obligations.DoublingUnitDoubles : Prop :=
  ∀ (t : Triple) (q : Point), t.value = .pt q → t.dbl.value = .pt q.dbl

/-- Units on triples, for classes of points: negation (R269), equality by cross-multiplication
(R274), the conversions from and to affine form (R263, R264); and batch normalization with one inversion
gives each element's own affine form, identities included (R265). -/
def Obligations.TripleUnitsAndBatchNormalization : Prop :=
  (∀ (t : Triple) (q : Point), t.value = .pt q →
    t.neg.value = .pt q.neg ∧ t.toAffine = q.toAffine) ∧
  (∀ (t u : Triple) (q1 q2 : Point), t.value = .pt q1 → u.value = .pt q2 →
    t.equals u = decide (q1 = q2)) ∧
  (∀ a : Affine, a.toTriple.value = fromAffine a) ∧
  ∀ (ts : List Triple) (qs : List Point), ts.map Triple.value = qs.map PVal.pt →
    batchNormalize ts = qs.map Point.toAffine

/-- The complete addition, mixed addition and scalar multiplication units: for all triples of the classes of
points Q1, Q2 of E, equal, opposite and identity included, the sum's triple is of the class of Q1 ⊕ Q2; mixed
addition of an on-curve affine value is too, and leaves the left triple unchanged when inf = 1; the ladder over L
bits, from (0, 1, 0), gives a triple of the class of k·Q for every k < 2^L (R252-R254). -/
def Obligations.AdditionUnitsAdd : Prop :=
  (∀ (t u : Triple) (q1 q2 : Point), t.value = .pt q1 → u.value = .pt q2 →
    (t.add u).value = .pt (q1.add q2)) ∧
  (∀ (t : Triple) (q : Point) (a : Affine), t.value = .pt q → a.onCurve = true →
    (t.addMixed a).value = .pt (q.add a.toPoint)) ∧
  (∀ (t : Triple) (a : Affine), a.inf = true → t.addMixed a = t) ∧
  ∀ (t : Triple) (q : Point) (k l : Nat), t.value = .pt q → k < 2 ^ l →
    (t.ladder k l).value = .pt (q.nsmul k)
end

