-- ==== Sys2Proof/Laws/Memory.lean ====
section
/-!
SUPPORT. The laws of IOBUF: a read after a write, the canonical form, and the byte strings.
-/

namespace Sys2Proof.Machine

set_option Elab.async false

/-! ### Reads after writes -/

theorem readByte_writeByte (m : Memory) (a : Nat) (v : Byte) (b : Nat)
    (hm : Memory.wf m = true) :
    readByte (writeByte m a v) b = if b = a then v else readByte m b := by
  suffices h : ∀ lo, Memory.wfFrom lo m = true →
      readByte (writeByte m a v) b = if b = a then v else readByte m b from h 0 hm
  have absent : ∀ (m : Memory) (lo : Nat), Memory.wfFrom lo m = true → ∀ c, c < lo →
      readByte m c = 0 := by
    intro m
    induction m with
    | nil => intros; rfl
    | cons c rest ih =>
      obtain ⟨k, w⟩ := c
      intro lo h c hc
      simp only [Memory.wfFrom, Bool.and_eq_true, decide_eq_true_eq] at h
      have hk : k ≠ c := by omega
      simp only [readByte, hk, if_false]
      exact ih (k + 1) h.2 c (by omega)
  clear hm
  induction m with
  | nil =>
    intro lo _
    by_cases hb : b = a
    · subst hb
      by_cases hv : v = 0
      · simp only [writeByte, readByte, if_true, hv]
      · simp only [writeByte, if_neg hv, readByte, if_true]
    · by_cases hv : v = 0
      · simp only [writeByte, if_pos hv, readByte, if_neg hb]
      · simp only [writeByte, if_neg hv, readByte, if_neg hb, if_neg (Ne.symm hb)]
  | cons c rest ih =>
    obtain ⟨k, w⟩ := c
    intro lo h
    have h' := h
    simp only [Memory.wfFrom, Bool.and_eq_true, decide_eq_true_eq] at h
    have hrest := absent rest (k + 1) h.2
    simp only [writeByte]
    by_cases h1 : a < k
    · have hka : k ≠ a := by omega
      by_cases hv : v = 0
      · simp only [h1, hv, if_true]
        by_cases hb : b = a
        · subst hb
          simp only [if_true, readByte, hka, if_false]
          exact hrest b (by omega)
        · simp [hb]
      · simp only [h1, hv, if_true, if_false]
        by_cases hb : b = a
        · subst hb; simp [readByte]
        · simp [readByte, hb, Ne.symm hb]
    · by_cases h2 : a = k
      · subst h2
        by_cases hv : v = 0
        · simp only [lt_irrefl, hv, if_true, if_false]
          by_cases hb : b = a
          · subst hb; simp only [if_true]; exact hrest b (by omega)
          · simp [readByte, hb, Ne.symm hb]
        · simp only [lt_irrefl, hv, if_true, if_false]
          by_cases hb : b = a
          · subst hb; simp [readByte]
          · simp [readByte, hb, Ne.symm hb]
      · simp only [h1, h2, if_false, readByte]
        rw [ih (k + 1) h.2]
        by_cases hk : k = b
        · subst hk; simp [Ne.symm h2]
        · simp [hk]

/-! ### The canonical form -/

theorem Memory.wfFrom_mono (m : Memory) {lo lo' : Nat} (hlo : lo ≤ lo')
    (h : Memory.wfFrom lo' m = true) : Memory.wfFrom lo m = true := by
  cases m with
  | nil => rfl
  | cons c rest =>
    obtain ⟨k, w⟩ := c
    simp only [Memory.wfFrom, Bool.and_eq_true, decide_eq_true_eq] at h ⊢
    exact ⟨⟨⟨by omega, h.1.1.2⟩, h.1.2⟩, h.2⟩

theorem writeByte_wfFrom (m : Memory) (a : Nat) (v : Byte) (ha : a < 4096) :
    ∀ lo, lo ≤ a → Memory.wfFrom lo m = true → Memory.wfFrom lo (writeByte m a v) = true := by
  induction m with
  | nil =>
    intro lo hlo _
    by_cases hv : v = 0
    · simp only [writeByte, if_pos hv, Memory.wfFrom]
    · simp only [writeByte, if_neg hv, Memory.wfFrom, Bool.and_eq_true, decide_eq_true_eq,
        bne_iff_ne, ne_eq]
      exact ⟨⟨⟨hlo, ha⟩, hv⟩, trivial⟩
  | cons c rest ih =>
    obtain ⟨k, w⟩ := c
    intro lo hlo h
    have h' := h
    simp only [Memory.wfFrom, Bool.and_eq_true, decide_eq_true_eq, bne_iff_ne, ne_eq] at h'
    obtain ⟨⟨⟨h1, h2⟩, h3⟩, h4⟩ := h'
    simp only [writeByte]
    by_cases hak : a < k
    · by_cases hv : v = 0
      · simpa only [hak, hv, if_true] using h
      · simp only [hak, hv, if_true, if_false]
        simp only [Memory.wfFrom, Bool.and_eq_true, decide_eq_true_eq, bne_iff_ne, ne_eq]
        exact ⟨⟨⟨hlo, ha⟩, hv⟩, ⟨⟨by omega, h2⟩, h3⟩, h4⟩
    · by_cases hk : a = k
      · subst hk
        by_cases hv : v = 0
        · simp only [lt_irrefl, hv, if_true, if_false]
          exact Memory.wfFrom_mono rest (by omega) h4
        · simp only [lt_irrefl, hv, if_true, if_false]
          simp only [Memory.wfFrom, Bool.and_eq_true, decide_eq_true_eq, bne_iff_ne, ne_eq]
          exact ⟨⟨⟨hlo, ha⟩, hv⟩, h4⟩
      · simp only [hak, hk, if_false]
        simp only [Memory.wfFrom, Bool.and_eq_true, decide_eq_true_eq, bne_iff_ne, ne_eq]
        exact ⟨⟨⟨h1, h2⟩, h3⟩, ih (k + 1) (by omega) h4⟩

theorem writeByte_wf (m : Memory) (a : Nat) (v : Byte) (ha : a < 4096) (h : Memory.wf m = true) :
    Memory.wf (writeByte m a v) = true :=
  writeByte_wfFrom m a v ha 0 (Nat.zero_le _) h

theorem writeBytes_wf (bs : List Byte) : ∀ (m : Memory) (a : Nat), a + bs.length ≤ 4096 →
    Memory.wf m = true → Memory.wf (writeBytes m a bs) = true := by
  induction bs with
  | nil => intro m a _ h; exact h
  | cons b bs ih =>
    intro m a hlen h
    simp only [List.length_cons] at hlen
    exact ih (writeByte m a b) (a + 1) (by omega) (writeByte_wf m a b (by omega) h)

/-- One byte after a string has been written at `a`: the string's byte inside, the old byte outside. -/
theorem readByte_writeBytes (bs : List Byte) : ∀ (m : Memory) (a b : Nat), a + bs.length ≤ 4096 →
    Memory.wf m = true →
    readByte (writeBytes m a bs) b =
      if a ≤ b ∧ b < a + bs.length then bs.getD (b - a) 0 else readByte m b := by
  induction bs with
  | nil => intro m a b _ _; simp [writeBytes]
  | cons c bs ih =>
    intro m a b hlen h
    simp only [List.length_cons] at hlen
    have hwf := writeByte_wf m a c (by omega) h
    simp only [writeBytes, List.length_cons]
    rw [ih (writeByte m a c) (a + 1) b (by omega) hwf, readByte_writeByte m a c b h]
    by_cases hb : b = a
    · subst hb; simp
    · by_cases hin : a + 1 ≤ b ∧ b < a + 1 + bs.length
      · have h2 : a ≤ b ∧ b < a + (bs.length + 1) := by omega
        have h3 : b - a = (b - (a + 1)) + 1 := by omega
        simp only [if_pos hin, if_pos h2]
        rw [h3, List.getD_cons_succ]
      · have h2 : ¬(a ≤ b ∧ b < a + (bs.length + 1)) := by omega
        simp only [if_neg hin, if_neg h2, hb, if_false]

@[simp] theorem readBytes_length (m : Memory) (a n : Nat) : (readBytes m a n).length = n := by
  induction n generalizing a with
  | zero => rfl
  | succ n ih => simp [readBytes, ih]

/-- Byte i of a string that was read. -/
theorem readBytes_getD (m : Memory) (n : Nat) : ∀ (a i : Nat), i < n →
    (readBytes m a n).getD i 0 = readByte m (a + i) := by
  induction n with
  | zero => intro a i h; omega
  | succ n ih =>
    intro a i h
    cases i with
    | zero => simp [readBytes]
    | succ i =>
      simp only [readBytes, List.getD_cons_succ]
      rw [ih (a + 1) i (by omega)]; congr 1; omega

/-- Reading back what was written. -/
theorem readBytes_writeBytes (m : Memory) (a : Nat) (bs : List Byte) (n : Nat)
    (hn : bs.length = n) (hlen : a + n ≤ 4096) (h : Memory.wf m = true) :
    readBytes (writeBytes m a bs) a n = bs := by
  subst hn
  apply List.ext_getElem (by simp)
  intro i h1 h2
  have e1 := readBytes_getD (writeBytes m a bs) bs.length a i h2
  have e2 := readByte_writeBytes bs m a (a + i) hlen h
  rw [if_pos (by omega), Nat.add_sub_cancel_left] at e2
  rw [List.getD_eq_getElem _ _ h1] at e1
  rw [List.getD_eq_getElem _ _ h2] at e2
  rw [e1, e2]

/-! ### Byte strings (00_scope.md R18) -/

@[simp] theorem leBytes_length (n v : Nat) : (leBytes n v).length = n := by
  induction n generalizing v with
  | zero => rfl
  | succ n ih => simp [leBytes, ih]

@[simp] theorem beBytes_length (n v : Nat) : (beBytes n v).length = n := by simp [beBytes]

theorem leInt_leBytes (n : Nat) : ∀ v, leInt (leBytes n v) = v % 256 ^ n := by
  induction n with
  | zero => intro v; simp [leBytes, leInt, Nat.mod_one]
  | succ n ih =>
    intro v
    simp only [leBytes, leInt, ih, BitVec.toNat_ofNat]
    have hsplit : v % 256 ^ (n + 1) = v % 256 + 256 * (v / 256 % 256 ^ n) := by
      rw [Nat.pow_succ', Nat.mod_mul]
    rw [hsplit]

theorem beInt_beBytes (n v : Nat) : beInt (beBytes n v) = v % 256 ^ n := by
  simp [beInt, beBytes, leInt_leBytes]

theorem leInt_lt (bs : List Byte) : leInt bs < 256 ^ bs.length := by
  induction bs with
  | nil => simp [leInt]
  | cons b bs ih =>
    have := b.isLt
    simp only [leInt, List.length_cons, pow_succ]
    omega

theorem beInt_lt (bs : List Byte) : beInt bs < 256 ^ bs.length := by
  have := leInt_lt bs.reverse
  simpa [beInt] using this

theorem leBytes_leInt (bs : List Byte) : leBytes bs.length (leInt bs) = bs := by
  induction bs with
  | nil => rfl
  | cons b bs ih =>
    have hb := b.isLt
    simp only [List.length_cons, leInt, leBytes]
    have h1 : (b.toNat + 256 * leInt bs) / 256 = leInt bs := by omega
    have h2 : BitVec.ofNat 8 (b.toNat + 256 * leInt bs) = b := by
      apply BitVec.eq_of_toNat_eq
      simp only [BitVec.toNat_ofNat]; omega
    rw [h1, h2, ih]

end Sys2Proof.Machine
end

