-- ==== Sys2Proof/Laws/Codec.lean ====
section
/-!
SUPPORT. Byte strings as integers with their flag bits: the split of a big-endian string into the three
flag bits of byte 0 and the masked rest (43_g1_affine_codec.md R304-R307).
-/

namespace Sys2Proof.Machine

set_option Elab.async false

theorem leInt_append (a b : List Byte) : leInt (a ++ b) = leInt a + 256 ^ a.length * leInt b := by
  induction a with
  | nil => simp [leInt]
  | cons x xs ih => simp only [List.cons_append, leInt, ih, List.length_cons, pow_succ]; ring

theorem beInt_cons (b : Byte) (bs : List Byte) :
    beInt (b :: bs) = b.toNat * 256 ^ bs.length + beInt bs := by
  rw [beInt, List.reverse_cons, leInt_append]
  simp [leInt, beInt]
  ring

theorem beInt_append (a b : List Byte) : beInt (a ++ b) = beInt a * 256 ^ b.length + beInt b := by
  rw [beInt, List.reverse_append, leInt_append, List.length_reverse, beInt, beInt]
  ring

theorem byte_mask (b : Byte) : (b &&& 0x1F).toNat = b.toNat % 32 := by revert b; decide +kernel

theorem byte_split (b : Byte) :
    b.toNat = ((if b.getLsbD 7 = true then 4 else 0) + (if b.getLsbD 6 = true then 2 else 0) +
      (if b.getLsbD 5 = true then 1 else 0)) * 32 + b.toNat % 32 := by
  revert b; decide +kernel

theorem head_split_cons (b b' : Byte) (bs : List Byte) (n : Nat) (h : bs.length = n)
    (hm : b'.toNat = b.toNat % 32) :
    beInt (b :: bs) =
        ((if b.getLsbD 7 = true then 4 else 0) + (if b.getLsbD 6 = true then 2 else 0) +
          (if b.getLsbD 5 = true then 1 else 0)) * (32 * 256 ^ n) + beInt (b' :: bs) ∧
      beInt (b' :: bs) < 32 * 256 ^ n := by
  have hb := byte_split b
  have hl : beInt bs < 256 ^ n := by rw [← h]; exact beInt_lt bs
  have e1 := beInt_cons b bs
  have e2 := beInt_cons b' bs
  rw [hm, h] at e2
  rw [h] at e1
  have hlt : b.toNat % 32 < 32 := Nat.mod_lt _ (by norm_num)
  generalize beInt (b :: bs) = X at e1 ⊢
  generalize beInt (b' :: bs) = Y at e2 ⊢
  subst e1 e2
  clear h
  generalize b.toNat % 32 = m at hb hlt ⊢
  generalize 256 ^ n = M at hl ⊢
  constructor
  · rw [hb]; ring
  · nlinarith

/-- A non-empty big-endian string is its flag bits above its masked value. -/
theorem head_split (bs : List Byte) (n : Nat) (h : bs.length = n + 1) :
    beInt bs =
        ((if (headFlags bs).compression = true then 4 else 0) +
          (if (headFlags bs).infinity = true then 2 else 0) +
          (if (headFlags bs).sort = true then 1 else 0)) * (32 * 256 ^ n) + beInt (maskHead bs) ∧
      beInt (maskHead bs) < 32 * 256 ^ n := by
  cases bs with
  | nil => simp at h
  | cons b bs =>
    simp only [List.length_cons, Nat.add_right_cancel_iff] at h
    exact head_split_cons b _ bs n h (byte_mask b)

theorem orHead_length (f : Byte) (bs : List Byte) : (orHead f bs).length = bs.length := by
  cases bs <;> rfl

theorem encodeCompressed_length (a : Affine) : (encodeCompressed a).length = 48 := by
  rw [encodeCompressed, orHead_length, beBytes_length]

theorem encodeUncompressed_length (a : Affine) : (encodeUncompressed a).length = 96 := by
  rw [encodeUncompressed, orHead_length, List.length_append, beBytes_length, beBytes_length]

end Sys2Proof.Machine
end

