-- ==== Sys2Proof/Laws/Field.lean ====
section
/-!
SUPPORT. The laws of the field units: the values of the adder, subtractor, negator and multipliers, the
maps between stored values and values, the power unit, and the embedding of a field into `ZMod`.
-/

namespace Sys2Proof.Machine

set_option Elab.async false

/-! ### Adder, subtractor, negator (40_fp.md R145-R147) -/

theorem modAdd_val {m : Nat} (a b : Fin m) : (modAdd a b).val = (a.val + b.val) % m := by
  have ha := a.isLt
  have hb := b.isLt
  unfold modAdd
  split
  · rename_i h; exact (Nat.mod_eq_of_lt h).symm
  · rename_i h
    show a.val + b.val - m = _
    rw [Nat.mod_eq_sub_mod (by omega), Nat.mod_eq_of_lt (by omega)]

theorem modSub_val {m : Nat} (a b : Fin m) : (modSub a b).val = (a.val + m - b.val) % m := by
  have ha := a.isLt
  have hb := b.isLt
  unfold modSub
  split
  · rename_i h; exact (Nat.mod_eq_of_lt (by omega)).symm
  · rename_i h
    show a.val - b.val = _
    rw [Nat.mod_eq_sub_mod (by omega), Nat.mod_eq_of_lt (by omega)]
    omega

theorem modNeg_val {m : Nat} (a : Fin m) : (modNeg a).val = (m - a.val) % m := by
  have ha := a.isLt
  unfold modNeg
  split
  · rename_i h; rw [h]; simp
  · rename_i h; exact (Nat.mod_eq_of_lt (by omega)).symm

/-! ### The power unit -/

theorem powMod_eq (m b : Nat) : ∀ bits e, powMod m b bits e = b ^ (e % 2 ^ bits) % m := by
  intro bits
  induction bits with
  | zero => intro e; simp [powMod, Nat.mod_one]
  | succ k ih =>
    intro e
    simp only [powMod, ih]
    have hsplit : e % 2 ^ (k + 1) = 2 * (e / 2 % 2 ^ k) + e % 2 := by
      rw [Nat.pow_succ', Nat.mod_mul]; omega
    have hsq : ∀ x : Nat, b ^ (2 * x) = b ^ x * b ^ x := fun x => by rw [Nat.two_mul, Nat.pow_add]
    rw [hsplit]
    split
    · rename_i h
      rw [h, Nat.pow_succ, hsq, Nat.mod_mul_mod,
        Nat.mul_mod _ b m, ← Nat.mul_mod (b ^ _) (b ^ _) m, ← Nat.mul_mod]
    · rename_i h
      have h0 : e % 2 = 0 := by omega
      rw [h0, Nat.add_zero, hsq, ← Nat.mul_mod]

theorem modPow_val {m : Nat} (bits : Nat) (b : Fin m) (e : Nat) (he : e < 2 ^ bits) :
    (modPow bits b e).val = b.val ^ e % m := by
  show powMod m b.val bits e = _
  rw [powMod_eq, Nat.mod_eq_of_lt he]

/-! ### Stored values and values (00_scope.md R19) -/

theorem rpInv_spec : rp * rpInv % p = 1 := by decide +kernel
theorem rp2_spec : rp2 = rp * rp % p := by decide +kernel
theorem rsInv_spec : rs * rsInv % r = 1 := by decide +kernel
theorem rs2_spec : rs2 = rs * rs % r := by decide +kernel
theorem rs3_spec : rs3 = rs * rs * rs % r := by decide +kernel

theorem toFp_val (v : Nat) : (toFp v).val = v % p := rfl
theorem toFr_val (v : Nat) : (toFr v).val = v % r := rfl
theorem toFp_val_self (x : Fp) : toFp x.val = x := Fin.ext (Nat.mod_eq_of_lt x.isLt)
theorem toFr_val_self (x : Fr) : toFr x.val = x := Fin.ext (Nat.mod_eq_of_lt x.isLt)
theorem montMulF_val (a b : Nat) : (montMulF a b).val = a * b * rpInv % p := rfl
theorem montMulS_val (a b : Nat) : (montMulS a b).val = a * b * rsInv % r := rfl

theorem valF_val (s : Fp) : (valF s).val = s.val * rpInv % p := by
  rw [valF, montMulF_val, Nat.mul_one]

theorem valS_val (s : Fr) : (valS s).val = s.val * rsInv % r := by
  rw [valS, montMulS_val, Nat.mul_one]

/-- montF(v) = v·RP mod p. -/
theorem montF_val (v : Fp) : (montF v).val = v.val * rp % p := by
  rw [montF, montMulF_val, rp2_spec]
  have h : v.val * (rp * rp % p) * rpInv ≡ v.val * rp * (rp * rpInv) [MOD p] := by
    have h1 : rp * rp % p ≡ rp * rp [MOD p] := Nat.mod_modEq _ _
    calc v.val * (rp * rp % p) * rpInv
        ≡ v.val * (rp * rp) * rpInv [MOD p] := (h1.mul_left _).mul_right _
      _ = v.val * rp * (rp * rpInv) := by ring
  have h2 : rp * rpInv ≡ 1 [MOD p] := by
    show rp * rpInv % p = 1 % p
    rw [rpInv_spec, Nat.mod_eq_of_lt (by decide)]
  have h3 := h.trans (h2.mul_left (v.val * rp))
  rw [Nat.mul_one] at h3
  exact h3

/-- montS(v) = v·RS mod r. -/
theorem montS_val (v : Fr) : (montS v).val = v.val * rs % r := by
  rw [montS, montMulS_val, rs2_spec]
  have h : v.val * (rs * rs % r) * rsInv ≡ v.val * rs * (rs * rsInv) [MOD r] := by
    have h1 : rs * rs % r ≡ rs * rs [MOD r] := Nat.mod_modEq _ _
    calc v.val * (rs * rs % r) * rsInv
        ≡ v.val * (rs * rs) * rsInv [MOD r] := (h1.mul_left _).mul_right _
      _ = v.val * rs * (rs * rsInv) := by ring
  have h2 : rs * rsInv ≡ 1 [MOD r] := by
    show rs * rsInv % r = 1 % r
    rw [rsInv_spec, Nat.mod_eq_of_lt (by decide)]
  have h3 := h.trans (h2.mul_left (v.val * rs))
  rw [Nat.mul_one] at h3
  exact h3

/-! ### The embedding into `ZMod` -/

/-- An element of `Fin m` as a residue class. -/
def toZ {m : Nat} (a : Fin m) : ZMod m := (a.val : ZMod m)

theorem toZ_injective {m : Nat} : Function.Injective (toZ (m := m)) := by
  intro a b h
  have h' := (ZMod.natCast_eq_natCast_iff' a.val b.val m).mp h
  rw [Nat.mod_eq_of_lt a.isLt, Nat.mod_eq_of_lt b.isLt] at h'
  exact Fin.ext h'

theorem toZ_of_val {m : Nat} {a : Fin m} {n : Nat} (h : a.val = n % m) : toZ a = (n : ZMod m) := by
  rw [toZ, h, ZMod.natCast_mod]

theorem toZ_toFp (v : Nat) : toZ (toFp v) = (v : ZMod p) := toZ_of_val rfl
theorem toZ_toFr (v : Nat) : toZ (toFr v) = (v : ZMod r) := toZ_of_val rfl

theorem toZ_add {m : Nat} (a b : Fin m) : toZ (a + b) = toZ a + toZ b := by
  rw [toZ_of_val (Fin.val_add a b), Nat.cast_add]; rfl

theorem toZ_mul {m : Nat} (a b : Fin m) : toZ (a * b) = toZ a * toZ b := by
  rw [toZ_of_val (Fin.val_mul a b), Nat.cast_mul]; rfl

theorem toZ_sub {m : Nat} (a b : Fin m) : toZ (a - b) = toZ a - toZ b := by
  have hb := b.isLt
  have h : (a - b).val = (m - b.val + a.val) % m := by rw [Fin.sub_def]
  rw [toZ_of_val h, Nat.cast_add, Nat.cast_sub (Nat.le_of_lt hb), ZMod.natCast_self]
  simp only [toZ]; ring

theorem toZ_modAdd {m : Nat} (a b : Fin m) : toZ (modAdd a b) = toZ a + toZ b := by
  rw [toZ_of_val (modAdd_val a b), Nat.cast_add]; rfl

theorem toZ_modSub {m : Nat} (a b : Fin m) : toZ (modSub a b) = toZ a - toZ b := by
  have hb := b.isLt
  rw [toZ_of_val (modSub_val a b), Nat.cast_sub (by omega), Nat.cast_add, ZMod.natCast_self]
  simp only [toZ]; ring

theorem toZ_modNeg {m : Nat} (a : Fin m) : toZ (modNeg a) = -toZ a := by
  have ha := a.isLt
  rw [toZ_of_val (modNeg_val a), Nat.cast_sub (Nat.le_of_lt ha), ZMod.natCast_self]
  simp only [toZ]; ring

theorem toZ_modPow {m : Nat} (bits : Nat) (a : Fin m) (e : Nat) (he : e < 2 ^ bits) :
    toZ (modPow bits a e) = toZ a ^ e := by
  rw [toZ_of_val (modPow_val bits a e he), Nat.cast_pow]; rfl

theorem rp_mul_rpInv : (rp : ZMod p) * (rpInv : ZMod p) = 1 := by
  have h : ((rp * rpInv : Nat) : ZMod p) = ((1 : Nat) : ZMod p) := by
    rw [ZMod.natCast_eq_natCast_iff', rpInv_spec, Nat.mod_eq_of_lt (by decide)]
  rw [Nat.cast_mul, Nat.cast_one] at h; exact h

theorem rs_mul_rsInv : (rs : ZMod r) * (rsInv : ZMod r) = 1 := by
  have h : ((rs * rsInv : Nat) : ZMod r) = ((1 : Nat) : ZMod r) := by
    rw [ZMod.natCast_eq_natCast_iff', rsInv_spec, Nat.mod_eq_of_lt (by decide)]
  rw [Nat.cast_mul, Nat.cast_one] at h; exact h

theorem toZ_montMulF (a b : Nat) : toZ (montMulF a b) = (a : ZMod p) * b * rpInv := by
  rw [toZ_of_val (montMulF_val a b)]; push_cast; ring

theorem toZ_montMulS (a b : Nat) : toZ (montMulS a b) = (a : ZMod r) * b * rsInv := by
  rw [toZ_of_val (montMulS_val a b)]; push_cast; ring

theorem toZ_valF (s : Fp) : toZ (valF s) = toZ s * rpInv := by
  rw [toZ_of_val (valF_val s), Nat.cast_mul]; rfl

theorem toZ_montF (v : Fp) : toZ (montF v) = toZ v * rp := by
  rw [toZ_of_val (montF_val v), Nat.cast_mul]; rfl

theorem toZ_valS (s : Fr) : toZ (valS s) = toZ s * rsInv := by
  rw [toZ_of_val (valS_val s), Nat.cast_mul]; rfl

theorem toZ_montS (v : Fr) : toZ (montS v) = toZ v * rs := by
  rw [toZ_of_val (montS_val v), Nat.cast_mul]; rfl

theorem valF_montF (v : Fp) : valF (montF v) = v := by
  apply toZ_injective
  rw [toZ_valF, toZ_montF, mul_assoc, rp_mul_rpInv, mul_one]

theorem montF_valF (s : Fp) : montF (valF s) = s := by
  apply toZ_injective
  rw [toZ_montF, toZ_valF, mul_assoc, mul_comm (rpInv : ZMod p), rp_mul_rpInv, mul_one]

theorem valS_montS (v : Fr) : valS (montS v) = v := by
  apply toZ_injective
  rw [toZ_valS, toZ_montS, mul_assoc, rs_mul_rsInv, mul_one]

theorem montS_valS (s : Fr) : montS (valS s) = s := by
  apply toZ_injective
  rw [toZ_montS, toZ_valS, mul_assoc, mul_comm (rsInv : ZMod r), rs_mul_rsInv, mul_one]

theorem toZ_val {m : Nat} (x : Fin m) : ((x.val : Nat) : ZMod m) = toZ x := rfl

/-- A residue computed in ZMod is the residue of the integer. -/
theorem val_of_toZ {m : Nat} {x : Fin m} {n : Nat} (h : toZ x = (n : ZMod m)) : x.val = n % m := by
  have hn : ((x.val : Nat) : ZMod m) = (n : ZMod m) := h
  rw [ZMod.natCast_eq_natCast_iff] at hn
  rw [← hn]
  exact (Nat.mod_eq_of_lt x.isLt).symm

theorem valF_injective {a b : Fp} (h : valF a = valF b) : a = b := by
  rw [← montF_valF a, h, montF_valF]

theorem valS_injective {a b : Fr} (h : valS a = valS b) : a = b := by
  rw [← montS_valS a, h, montS_valS]

end Sys2Proof.Machine
end

