-- ==== Sys2Proof/Laws/Primality.lean ====
section
/-!
SUPPORT. p and r are prime (00_scope.md R8, R9), by Pratt certificates: the factors of n − 1 and an
element of order n − 1, checked with the power unit.
-/

namespace Sys2Proof.Machine

set_option Elab.async false

/-- A Pratt certificate: `a` has order n − 1 modulo n, and the primes `fs` multiply to n − 1. -/
theorem prime_of_certificate (n a bits : Nat) (fs : List Nat) (hn : 1 < n) (hb : n - 1 < 2 ^ bits)
    (hfs : ∀ q ∈ fs, q.Prime) (hprod : fs.prod = n - 1) (hone : powMod n a bits (n - 1) = 1)
    (hord : ∀ q ∈ fs, powMod n a bits ((n - 1) / q) ≠ 1) : n.Prime := by
  have hpow : ∀ e, e < 2 ^ bits → ((a : ZMod n) ^ e = 1 ↔ powMod n a bits e = 1) := by
    intro e he
    rw [powMod_eq, Nat.mod_eq_of_lt he, ← Nat.cast_pow, ← Nat.cast_one,
      ZMod.natCast_eq_natCast_iff', Nat.mod_eq_of_lt hn]
  apply lucas_primality n (a : ZMod n) ((hpow _ hb).mpr hone)
  intro q hq hdvd
  rw [← hprod] at hdvd
  obtain ⟨f, hf, hqf⟩ := (Prime.dvd_prod_iff hq.prime).mp hdvd
  have he : q = f := (Nat.prime_dvd_prime_iff_eq hq (hfs f hf)).mp hqf
  subst he
  rw [Ne, hpow _ (Nat.lt_of_le_of_lt (Nat.div_le_self _ _) hb)]
  exact hord q hf

theorem prime_52437899 : Nat.Prime 52437899 := by
  refine prime_of_certificate 52437899 2 26
    [2, 43, 609743]
    (by decide +kernel) (by decide +kernel) ?_ (by decide +kernel) (by decide +kernel) (by decide +kernel)
  simp only [List.forall_mem_cons, List.not_mem_nil, IsEmpty.forall_iff, implies_true, and_true]
  refine ⟨by norm_num, by norm_num, by norm_num⟩

theorem prime_of_13_digits_901 : Nat.Prime 9272813673901 := by
  refine prime_of_certificate 9272813673901 2 44
    [2, 2, 3, 5, 5, 7, 7577, 582767]
    (by decide +kernel) (by decide +kernel) ?_ (by decide +kernel) (by decide +kernel) (by decide +kernel)
  simp only [List.forall_mem_cons, List.not_mem_nil, IsEmpty.forall_iff, implies_true, and_true]
  refine ⟨by norm_num, by norm_num, by norm_num, by norm_num, by norm_num, by norm_num,
      by norm_num, by norm_num⟩

theorem prime_of_16_digits_409 : Nat.Prime 1928745244171409 := by
  refine prime_of_certificate 1928745244171409 3 51
    [2, 2, 2, 2, 13, 9272813673901]
    (by decide +kernel) (by decide +kernel) ?_ (by decide +kernel) (by decide +kernel) (by decide +kernel)
  simp only [List.forall_mem_cons, List.not_mem_nil, IsEmpty.forall_iff, implies_true, and_true]
  refine ⟨by norm_num, by norm_num, by norm_num, by norm_num, by norm_num, prime_of_13_digits_901⟩

theorem prime_of_19_digits_477 : Nat.Prime 7259797099061183477 := by
  refine prime_of_certificate 7259797099061183477 2 63
    [2, 2, 941, 1928745244171409]
    (by decide +kernel) (by decide +kernel) ?_ (by decide +kernel) (by decide +kernel) (by decide +kernel)
  simp only [List.forall_mem_cons, List.not_mem_nil, IsEmpty.forall_iff, implies_true, and_true]
  refine ⟨by norm_num, by norm_num, by norm_num, prime_of_16_digits_409⟩

theorem prime_of_22_digits_813 : Nat.Prime 2584487767265781317813 := by
  refine prime_of_certificate 2584487767265781317813 2 72
    [2, 2, 89, 7259797099061183477]
    (by decide +kernel) (by decide +kernel) ?_ (by decide +kernel) (by decide +kernel) (by decide +kernel)
  simp only [List.forall_mem_cons, List.not_mem_nil, IsEmpty.forall_iff, implies_true, and_true]
  refine ⟨by norm_num, by norm_num, by norm_num, prime_of_19_digits_477⟩

theorem prime_475709467 : Nat.Prime 475709467 := by
  refine prime_of_certificate 475709467 2 29
    [2, 3, 47, 1686913]
    (by decide +kernel) (by decide +kernel) ?_ (by decide +kernel) (by decide +kernel) (by decide +kernel)
  simp only [List.forall_mem_cons, List.not_mem_nil, IsEmpty.forall_iff, implies_true, and_true]
  refine ⟨by norm_num, by norm_num, by norm_num, by norm_num⟩

theorem prime_927093389 : Nat.Prime 927093389 := by
  refine prime_of_certificate 927093389 3 30
    [2, 2, 13, 409, 43591]
    (by decide +kernel) (by decide +kernel) ?_ (by decide +kernel) (by decide +kernel) (by decide +kernel)
  simp only [List.forall_mem_cons, List.not_mem_nil, IsEmpty.forall_iff, implies_true, and_true]
  refine ⟨by norm_num, by norm_num, by norm_num, by norm_num, by norm_num⟩

theorem prime_of_14_digits_777 : Nat.Prime 64881703735777 := by
  refine prime_of_certificate 64881703735777 5 46
    [2, 2, 2, 2, 2, 3, 3, 3, 3, 3, 3, 3, 927093389]
    (by decide +kernel) (by decide +kernel) ?_ (by decide +kernel) (by decide +kernel) (by decide +kernel)
  simp only [List.forall_mem_cons, List.not_mem_nil, IsEmpty.forall_iff, implies_true, and_true]
  refine ⟨by norm_num, by norm_num, by norm_num, by norm_num, by norm_num, by norm_num,
      by norm_num, by norm_num, by norm_num, by norm_num, by norm_num, by norm_num, prime_927093389⟩

theorem prime_of_23_digits_979 : Nat.Prime 92691255082156974996979 := by
  refine prime_of_certificate 92691255082156974996979 3 77
    [2, 3, 31, 467, 16447, 64881703735777]
    (by decide +kernel) (by decide +kernel) ?_ (by decide +kernel) (by decide +kernel) (by decide +kernel)
  simp only [List.forall_mem_cons, List.not_mem_nil, IsEmpty.forall_iff, implies_true, and_true]
  refine ⟨by norm_num, by norm_num, by norm_num, by norm_num, by norm_num, prime_of_14_digits_777⟩

theorem prime_51376543 : Nat.Prime 51376543 := by
  refine prime_of_certificate 51376543 3 26
    [2, 3, 7, 151, 8101]
    (by decide +kernel) (by decide +kernel) ?_ (by decide +kernel) (by decide +kernel) (by decide +kernel)
  simp only [List.forall_mem_cons, List.not_mem_nil, IsEmpty.forall_iff, implies_true, and_true]
  refine ⟨by norm_num, by norm_num, by norm_num, by norm_num, by norm_num⟩

theorem prime_43670061551 : Nat.Prime 43670061551 := by
  refine prime_of_certificate 43670061551 7 36
    [2, 5, 5, 17, 51376543]
    (by decide +kernel) (by decide +kernel) ?_ (by decide +kernel) (by decide +kernel) (by decide +kernel)
  simp only [List.forall_mem_cons, List.not_mem_nil, IsEmpty.forall_iff, implies_true, and_true]
  refine ⟨by norm_num, by norm_num, by norm_num, by norm_num, prime_51376543⟩

theorem prime_13090036741 : Nat.Prime 13090036741 := by
  refine prime_of_certificate 13090036741 10 34
    [2, 2, 3, 5, 11, 47, 421987]
    (by decide +kernel) (by decide +kernel) ?_ (by decide +kernel) (by decide +kernel) (by decide +kernel)
  simp only [List.forall_mem_cons, List.not_mem_nil, IsEmpty.forall_iff, implies_true, and_true]
  refine ⟨by norm_num, by norm_num, by norm_num, by norm_num, by norm_num, by norm_num, by norm_num⟩

theorem prime_of_22_digits_21 : Nat.Prime 3819663927398918131021 := by
  refine prime_of_certificate 3819663927398918131021 6 72
    [2, 2, 3, 3, 5, 19, 113, 755057, 13090036741]
    (by decide +kernel) (by decide +kernel) ?_ (by decide +kernel) (by decide +kernel) (by decide +kernel)
  simp only [List.forall_mem_cons, List.not_mem_nil, IsEmpty.forall_iff, implies_true, and_true]
  refine ⟨by norm_num, by norm_num, by norm_num, by norm_num, by norm_num, by norm_num,
      by norm_num, by norm_num, prime_13090036741⟩

theorem prime_of_37_digits_967 : Nat.Prime 1125266252156850182658904441386709967 := by
  refine prime_of_certificate 1125266252156850182658904441386709967 5 120
    [2, 3373, 43670061551, 3819663927398918131021]
    (by decide +kernel) (by decide +kernel) ?_ (by decide +kernel) (by decide +kernel) (by decide +kernel)
  simp only [List.forall_mem_cons, List.not_mem_nil, IsEmpty.forall_iff, implies_true, and_true]
  refine ⟨by norm_num, by norm_num, prime_43670061551, prime_of_22_digits_21⟩

theorem prime_of_71_digits_659 : Nat.Prime 15778400344354997994418419698270088123916926905054652752758194827714659 := by
  refine prime_of_certificate 15778400344354997994418419698270088123916926905054652752758194827714659 2 234
    [2, 3, 53, 475709467, 92691255082156974996979, 1125266252156850182658904441386709967]
    (by decide +kernel) (by decide +kernel) ?_ (by decide +kernel) (by decide +kernel) (by decide +kernel)
  simp only [List.forall_mem_cons, List.not_mem_nil, IsEmpty.forall_iff, implies_true, and_true]
  refine ⟨by norm_num, by norm_num, by norm_num, prime_475709467, prime_of_23_digits_979,
      prime_of_37_digits_967⟩

theorem p_prime : Nat.Prime p := by
  refine prime_of_certificate p 2 381
    [2, 3, 3, 11, 23, 47, 10177, 859267, 52437899, 2584487767265781317813,
      15778400344354997994418419698270088123916926905054652752758194827714659]
    (by decide +kernel) (by decide +kernel) ?_ (by decide +kernel) (by decide +kernel) (by decide +kernel)
  simp only [List.forall_mem_cons, List.not_mem_nil, IsEmpty.forall_iff, implies_true, and_true]
  refine ⟨by norm_num, by norm_num, by norm_num, by norm_num, by norm_num, by norm_num,
      by norm_num, by norm_num, prime_52437899, prime_of_22_digits_813, prime_of_71_digits_659⟩

theorem prime_63690073 : Nat.Prime 63690073 := by
  refine prime_of_certificate 63690073 7 26
    [2, 2, 2, 3, 2653753]
    (by decide +kernel) (by decide +kernel) ?_ (by decide +kernel) (by decide +kernel) (by decide +kernel)
  simp only [List.forall_mem_cons, List.not_mem_nil, IsEmpty.forall_iff, implies_true, and_true]
  refine ⟨by norm_num, by norm_num, by norm_num, by norm_num, by norm_num⟩

theorem prime_254760293 : Nat.Prime 254760293 := by
  refine prime_of_certificate 254760293 2 28
    [2, 2, 63690073]
    (by decide +kernel) (by decide +kernel) ?_ (by decide +kernel) (by decide +kernel) (by decide +kernel)
  simp only [List.forall_mem_cons, List.not_mem_nil, IsEmpty.forall_iff, implies_true, and_true]
  refine ⟨by norm_num, by norm_num, prime_63690073⟩

theorem r_prime : Nat.Prime r := by
  refine prime_of_certificate r 7 255
    [2, 2, 2, 2, 2, 2, 2, 2, 2, 2, 2, 2, 2, 2, 2, 2, 2, 2, 2, 2, 2, 2, 2, 2, 2, 2, 2, 2, 2, 2, 2,
      2, 3, 11, 19, 10177, 125527, 859267, 906349, 906349, 2508409, 2529403, 52437899, 254760293,
      254760293]
    (by decide +kernel) (by decide +kernel) ?_ (by decide +kernel) (by decide +kernel) (by decide +kernel)
  simp only [List.forall_mem_cons, List.not_mem_nil, IsEmpty.forall_iff, implies_true, and_true]
  refine ⟨by norm_num, by norm_num, by norm_num, by norm_num, by norm_num, by norm_num,
      by norm_num, by norm_num, by norm_num, by norm_num, by norm_num, by norm_num, by norm_num,
      by norm_num, by norm_num, by norm_num, by norm_num, by norm_num, by norm_num, by norm_num,
      by norm_num, by norm_num, by norm_num, by norm_num, by norm_num, by norm_num, by norm_num,
      by norm_num, by norm_num, by norm_num, by norm_num, by norm_num, by norm_num, by norm_num,
      by norm_num, by norm_num, by norm_num, by norm_num, by norm_num, by norm_num, by norm_num,
      by norm_num, prime_52437899, prime_254760293, prime_254760293⟩

end Sys2Proof.Machine
end

