-- ==== Sys2Proof/Laws/Curve.lean ====
section
/-!
SUPPORT. The group law of 00_scope.md R15 on canonical values is the group of the curve
y² = x³ + 4 over `ZMod p` (Mathlib's `WeierstrassCurve.Affine.Point`): the points of E are closed under
it, it is associative and commutative, and the ladder computes k·Q.
-/

namespace Sys2Proof.Machine

set_option Elab.async false

/-- The field fact the lemmas below take as an instance argument. -/
theorem fact_p : Fact (Nat.Prime p) := ⟨p_prime⟩

theorem p_lt_pow : p < 2 ^ 384 := by decide +kernel

/-- Fermat's inverse is the field inverse (and 0 for 0) (40_fp.md R148). -/
theorem toZ_fpInv [Fact (Nat.Prime p)] (u : Fp) : toZ (fpInv u) = (toZ u)⁻¹ := by
  rw [fpInv, toZ_modPow _ _ _ (by decide +kernel)]
  by_cases h : toZ u = 0
  · rw [h, inv_zero, zero_pow (by decide +kernel)]
  · refine eq_inv_of_mul_eq_one_left ?_
    rw [← pow_succ]
    have h2 : p - 2 + 1 = p - 1 := by decide +kernel
    rw [h2, ZMod.pow_card_sub_one_eq_one h]

theorem onCurve_iff (x y : Fp) :
    onCurve x y = true ↔ toZ y * toZ y = toZ x * toZ x * toZ x + 4 := by
  rw [onCurve, beq_iff_eq, ← toZ_injective.eq_iff, toZ_mul, toZ_add, toZ_mul, toZ_mul, curveB,
    toZ_toFp, Nat.cast_ofNat]

/-- E over `ZMod p`. -/
def curveE : WeierstrassCurve.Affine (ZMod p) := ⟨0, 0, 0, 0, 4⟩

theorem curveE_equation (x y : ZMod p) : curveE.Equation x y ↔ y * y = x * x * x + 4 := by
  rw [WeierstrassCurve.Affine.equation_iff]
  simp only [curveE]
  constructor <;> intro h <;> linear_combination h

theorem curveE_nonsingular (x y : ZMod p) (h : y * y = x * x * x + 4) : curveE.Nonsingular x y := by
  rw [← WeierstrassCurve.Affine.equation_iff_nonsingular_of_Δ_ne_zero, curveE_equation]
  · exact h
  · have hd : curveE.Δ = ((p - 6912 : Nat) : ZMod p) := by
      rw [Nat.cast_sub (by decide +kernel), ZMod.natCast_self]
      simp only [WeierstrassCurve.Δ, WeierstrassCurve.b₂, WeierstrassCurve.b₄,
        WeierstrassCurve.b₆, WeierstrassCurve.b₈, curveE]
      push_cast; ring
    rw [hd, Ne, ZMod.natCast_eq_zero_iff]
    decide +kernel

/-- A model's point and the Mathlib point it stands for. -/
def Point.Rep : Point → curveE.Point → Prop
  | .infinity, P => P = 0
  | .affine x y, P => ∃ h, P = .some (toZ x) (toZ y) h

theorem Point.OnCurve.rep {q : Point} (h : q.OnCurve) : ∃ P, q.Rep P := by
  cases q with
  | infinity => exact ⟨0, rfl⟩
  | affine x y => exact ⟨_, curveE_nonsingular _ _ ((onCurve_iff x y).mp h), rfl⟩

theorem Point.Rep.onCurve {q : Point} {P : curveE.Point} (h : q.Rep P) : q.OnCurve := by
  cases q with
  | infinity => trivial
  | affine x y =>
    obtain ⟨hn, -⟩ := h
    exact (onCurve_iff x y).mpr ((curveE_equation _ _).mp hn.1)

theorem Point.Rep.inj {q q' : Point} {P : curveE.Point} (h : q.Rep P) (h' : q'.Rep P) : q = q' := by
  cases q with
  | infinity =>
    cases q' with
    | infinity => rfl
    | affine x y =>
      obtain ⟨hn, rfl⟩ := h'
      exact absurd h (WeierstrassCurve.Affine.Point.some_ne_zero hn)
  | affine x y =>
    obtain ⟨hn, rfl⟩ := h
    cases q' with
    | infinity => exact absurd h' (WeierstrassCurve.Affine.Point.some_ne_zero hn)
    | affine x' y' =>
      obtain ⟨hn', he⟩ := h'
      rw [WeierstrassCurve.Affine.Point.some.injEq] at he
      rw [toZ_injective he.1, toZ_injective he.2]

theorem Point.Rep.neg {q : Point} {P : curveE.Point} (h : q.Rep P) : q.neg.Rep (-P) := by
  cases q with
  | infinity => rw [show P = 0 from h]; exact WeierstrassCurve.Affine.Point.neg_zero
  | affine x y =>
    obtain ⟨hn, rfl⟩ := h
    have hy : toZ (modNeg y) = curveE.negY (toZ x) (toZ y) := by
      rw [toZ_modNeg, WeierstrassCurve.Affine.negY]; simp only [curveE]; ring
    refine ⟨hy ▸ (WeierstrassCurve.Affine.nonsingular_neg _ _).mpr hn, ?_⟩
    rw [WeierstrassCurve.Affine.Point.neg_some]
    simp only [hy]

/-- The chord or tangent of the right slope gives the sum. -/
theorem rep_chordPoint [Fact (Nat.Prime p)] (l x1 y1 x2 y2 : Fp)
    (h1 : curveE.Nonsingular (toZ x1) (toZ y1)) (h2 : curveE.Nonsingular (toZ x2) (toZ y2))
    (hxy : ¬(toZ x1 = toZ x2 ∧ toZ y1 = curveE.negY (toZ x2) (toZ y2)))
    (hl : toZ l = curveE.slope (toZ x1) (toZ x2) (toZ y1) (toZ y2)) :
    (chordPoint l x1 y1 x2).Rep (.some _ _ h1 + .some _ _ h2) := by
  rw [WeierstrassCurve.Affine.Point.add_some hxy]
  have hx : toZ (l * l - x1 - x2) =
      curveE.addX (toZ x1) (toZ x2) (curveE.slope (toZ x1) (toZ x2) (toZ y1) (toZ y2)) := by
    rw [toZ_sub, toZ_sub, toZ_mul, hl, WeierstrassCurve.Affine.addX]
    simp only [curveE]; ring
  have hy : toZ (l * (x1 - (l * l - x1 - x2)) - y1) =
      curveE.addY (toZ x1) (toZ x2) (toZ y1)
        (curveE.slope (toZ x1) (toZ x2) (toZ y1) (toZ y2)) := by
    rw [toZ_sub, toZ_mul, toZ_sub, hx, hl, WeierstrassCurve.Affine.addY,
      WeierstrassCurve.Affine.negY, WeierstrassCurve.Affine.negAddY]
    simp only [curveE]; ring
  refine ⟨?_, ?_⟩
  · rw [hx, hy]; exact WeierstrassCurve.Affine.nonsingular_add h1 h2 hxy
  · simp only [hx, hy]

theorem Point.Rep.add [Fact (Nat.Prime p)] {q q' : Point} {P P' : curveE.Point} (h : q.Rep P)
    (h' : q'.Rep P') : (q.add q').Rep (P + P') := by
  cases q with
  | infinity => rw [show P = 0 from h, zero_add]; exact h'
  | affine x1 y1 =>
    cases q' with
    | infinity => rw [show P' = 0 from h', add_zero]; exact h
    | affine x2 y2 =>
      obtain ⟨h1, rfl⟩ := h
      obtain ⟨h2, rfl⟩ := h'
      have hneg : curveE.negY (toZ x2) (toZ y2) = -toZ y2 := by
        rw [WeierstrassCurve.Affine.negY]; simp only [curveE]; ring
      have hsum : y1 + y2 = toFp 0 ↔ toZ y1 = -toZ y2 := by
        rw [← toZ_injective.eq_iff, toZ_add, toZ_toFp, Nat.cast_zero, add_eq_zero_iff_eq_neg]
      simp only [Point.add]
      split
      · rename_i hx
        subst hx
        split
        · rename_i hy
          have hy' : toZ y1 = curveE.negY (toZ x1) (toZ y2) := by rw [hneg]; exact hsum.mp hy
          exact WeierstrassCurve.Affine.Point.add_of_Y_eq rfl hy'
        · rename_i hy
          have hy' : toZ y1 ≠ curveE.negY (toZ x1) (toZ y2) := by
            rw [hneg]; exact fun e => hy (hsum.mpr e)
          refine rep_chordPoint _ x1 y1 x1 y2 h1 h2 (fun e => hy' e.2) ?_
          have hyy : toZ y1 = toZ y2 :=
            WeierstrassCurve.Affine.Y_eq_of_Y_ne h1.1 h2.1 rfl hy'
          have hneg1 : curveE.negY (toZ x1) (toZ y1) = -toZ y1 := by
            rw [WeierstrassCurve.Affine.negY]; simp only [curveE]; ring
          rw [WeierstrassCurve.Affine.slope_of_Y_ne rfl hy', hneg1, toZ_mul, toZ_mul, toZ_mul,
            toZ_fpInv, toZ_mul, toZ_toFp, toZ_toFp, div_eq_mul_inv]
          simp only [curveE]; push_cast; congr 1 <;> ring
      · rename_i hx
        have hx' : toZ x1 ≠ toZ x2 := fun e => hx (toZ_injective e)
        refine rep_chordPoint _ x1 y1 x2 y2 h1 h2 (fun e => hx' e.1) ?_
        rw [WeierstrassCurve.Affine.slope_of_X_ne hx', toZ_mul, toZ_sub, toZ_fpInv, toZ_sub,
          ← neg_sub (toZ y1), ← neg_sub (toZ x1), div_eq_mul_inv, inv_neg]
        ring

/-! ### The laws of the group (00_scope.md R15, R16) -/

theorem Point.add_onCurve {q q' : Point} (h : q.OnCurve) (h' : q'.OnCurve) :
    (q.add q').OnCurve := by
  have := fact_p
  obtain ⟨P, hP⟩ := h.rep
  obtain ⟨P', hP'⟩ := h'.rep
  exact (hP.add hP').onCurve

theorem Point.neg_onCurve {q : Point} (h : q.OnCurve) : q.neg.OnCurve := by
  obtain ⟨P, hP⟩ := h.rep
  exact hP.neg.onCurve

theorem Point.add_assoc {q1 q2 q3 : Point} (h1 : q1.OnCurve) (h2 : q2.OnCurve) (h3 : q3.OnCurve) :
    (q1.add q2).add q3 = q1.add (q2.add q3) := by
  have := fact_p
  obtain ⟨P1, r1⟩ := h1.rep
  obtain ⟨P2, r2⟩ := h2.rep
  obtain ⟨P3, r3⟩ := h3.rep
  refine ((r1.add r2).add r3).inj ?_
  rw [AddSemigroup.add_assoc]; exact r1.add (r2.add r3)

theorem Point.add_comm {q1 q2 : Point} (h1 : q1.OnCurve) (h2 : q2.OnCurve) :
    q1.add q2 = q2.add q1 := by
  have := fact_p
  obtain ⟨P1, r1⟩ := h1.rep
  obtain ⟨P2, r2⟩ := h2.rep
  refine (r1.add r2).inj ?_
  rw [AddCommMagma.add_comm]; exact r2.add r1

theorem Point.add_neg {q : Point} (h : q.OnCurve) : q.add q.neg = .infinity := by
  have := fact_p
  obtain ⟨P, hP⟩ := h.rep
  refine (hP.add hP.neg).inj ?_
  rw [add_neg_cancel]; rfl

theorem Point.Rep.nsmul [Fact (Nat.Prime p)] {q : Point} {P : curveE.Point} (h : q.Rep P) (k : Nat) :
    (q.nsmul k).Rep (k • P) := by
  induction k with
  | zero => rw [zero_nsmul]; rfl
  | succ k ih => rw [succ_nsmul]; exact ih.add h

/-- The ladder from an accumulator: 2^L·acc + (k mod 2^L)·Q. -/
theorem Point.Rep.ladderFrom [Fact (Nat.Prime p)] {q : Point} {P : curveE.Point} (h : q.Rep P)
    (k : Nat) : ∀ (l : Nat) (acc : Point) (A : curveE.Point), acc.Rep A →
    (Machine.ladderFrom q k l acc).Rep (2 ^ l • A + (k % 2 ^ l) • P) := by
  intro l
  induction l with
  | zero => intro acc A hA; simpa [Machine.ladderFrom, Nat.mod_one] using hA
  | succ l ih =>
    intro acc A hA
    have hbit : k % 2 ^ (l + 1) = 2 ^ l * (if k.testBit l then 1 else 0) + k % 2 ^ l := by
      rw [Nat.pow_succ, Nat.mod_mul, Nat.testBit_eq_decide_div_mod_eq]
      by_cases hb : k / 2 ^ l % 2 = 1
      · simp [hb]; omega
      · have : k / 2 ^ l % 2 = 0 := by omega
        simp [this]
    simp only [Machine.ladderFrom]
    rw [hbit]
    split
    · have hrep := ih _ _ ((hA.add hA).add h)
      have heq : 2 ^ (l + 1) • A + (2 ^ l * 1 + k % 2 ^ l) • P =
          2 ^ l • (A + A + P) + (k % 2 ^ l) • P := by rw [pow_succ]; module
      rw [heq]; exact hrep
    · have hrep := ih _ _ (hA.add hA)
      have heq : 2 ^ (l + 1) • A + (2 ^ l * 0 + k % 2 ^ l) • P =
          2 ^ l • (A + A) + (k % 2 ^ l) • P := by rw [pow_succ]; module
      rw [heq]; exact hrep

theorem ladder_eq_nsmul {q : Point} (h : q.OnCurve) (k l : Nat) (hk : k < 2 ^ l) :
    ladder q k l = q.nsmul k := by
  have := fact_p
  obtain ⟨P, hP⟩ := h.rep
  refine Point.Rep.inj (hP.ladderFrom k l .infinity 0 rfl) ?_
  rw [nsmul_zero, zero_add, Nat.mod_eq_of_lt hk]
  exact hP.nsmul k

theorem Point.nsmul_onCurve {q : Point} (h : q.OnCurve) (k : Nat) : (q.nsmul k).OnCurve := by
  have := fact_p
  obtain ⟨P, hP⟩ := h.rep
  exact (hP.nsmul k).onCurve

theorem Point.sub_onCurve {q q' : Point} (h : q.OnCurve) (h' : q'.OnCurve) : (q.sub q').OnCurve :=
  Point.add_onCurve h (Point.neg_onCurve h')

/-- x·Q is the negated |x|-fold sum (00_scope.md R12, R16). -/
theorem Point.mulX_eq {q : Point} (h : q.OnCurve) : q.mulX = (q.nsmul seedAbs).neg := by
  rw [Point.mulX, ladder_eq_nsmul h _ _ (by decide +kernel)]

theorem Point.mulX_onCurve {q : Point} (h : q.OnCurve) : q.mulX.OnCurve := by
  rw [Point.mulX_eq h]
  generalize seedAbs = k
  exact Point.neg_onCurve (Point.nsmul_onCurve h k)

theorem generator_onCurve : generator.OnCurve := by
  show onCurve genX genY = true
  decide +kernel

/-- The curve equation on canonical integers (00_scope.md R11). -/
theorem onCurve_iff_val (x y : Fp) :
    onCurve x y = true ↔ y.val ^ 2 % p = (x.val ^ 3 + 4) % p := by
  rw [onCurve_iff]
  have hn : (y.val ^ 2 % p = (x.val ^ 3 + 4) % p) ↔
      ((y.val ^ 2 : Nat) : ZMod p) = ((x.val ^ 3 + 4 : Nat) : ZMod p) := by
    rw [ZMod.natCast_eq_natCast_iff]; rfl
  rw [hn]
  push_cast [toZ_val]
  constructor <;> intro h <;> linear_combination h

/-- No point of E has order two: −4 is not a cube, so y = 0 never occurs. -/
theorem no_two_torsion (x : ZMod p) : x * x * x + 4 ≠ 0 := by
  have := fact_p
  intro h
  have h3 : x ^ 3 = -4 := by linear_combination h
  have hx : x ≠ 0 := by
    rintro rfl
    have h4 : toZ (toFp 4) = toZ (toFp 0) := by
      rw [toZ_toFp, toZ_toFp]; push_cast; linear_combination h
    have h5 := toZ_injective h4
    revert h5; decide +kernel
  have hf := ZMod.pow_card_sub_one_eq_one hx
  rw [show p - 1 = 3 * ((p - 1) / 3) by decide +kernel, pow_mul, h3] at hf
  have h1 : toZ (modPow 384 (toFp (p - 4)) ((p - 1) / 3)) = toZ (toFp 1) := by
    rw [toZ_modPow _ _ _ (by decide +kernel), toZ_toFp, toZ_toFp, Nat.cast_sub (by decide +kernel),
      ZMod.natCast_self]
    push_cast
    rw [zero_sub]
    exact hf
  have h2 := toZ_injective h1
  revert h2; decide +kernel

end Sys2Proof.Machine
end

