-- ==== Sys2Proof/Laws/State.lean ====
section
/-!
SUPPORT. One lemma per field and update of State, so that no proof unfolds a record update.
-/

namespace Sys2Proof.Machine

set_option Elab.async false

/-! ### `State.setF` -/

@[simp] theorem State.setF_freg (s : State) (i : RegIdx) (v : Fp) :
    (s.setF i v).freg = s.freg.set i v := rfl
@[simp] theorem State.setF_sreg (s : State) (i : RegIdx) (v : Fp) :
    (s.setF i v).sreg = s.sreg := rfl
@[simp] theorem State.setF_preg (s : State) (i : RegIdx) (v : Fp) :
    (s.setF i v).preg = s.preg := rfl
@[simp] theorem State.setF_areg (s : State) (i : RegIdx) (v : Fp) :
    (s.setF i v).areg = s.areg := rfl
@[simp] theorem State.setF_iobuf (s : State) (i : RegIdx) (v : Fp) :
    (s.setF i v).iobuf = s.iobuf := rfl
@[simp] theorem State.setF_t (s : State) (i : RegIdx) (v : Fp) : (s.setF i v).t = s.t := rfl
@[simp] theorem State.setF_acc (s : State) (i : RegIdx) (v : Fp) : (s.setF i v).acc = s.acc := rfl
@[simp] theorem State.setF_ieDone (s : State) (i : RegIdx) (v : Fp) :
    (s.setF i v).ieDone = s.ieDone := rfl
@[simp] theorem State.setF_ieErr (s : State) (i : RegIdx) (v : Fp) :
    (s.setF i v).ieErr = s.ieErr := rfl
@[simp] theorem State.setF_busy (s : State) (i : RegIdx) (v : Fp) :
    (s.setF i v).busy = s.busy := rfl
@[simp] theorem State.setF_done (s : State) (i : RegIdx) (v : Fp) :
    (s.setF i v).done = s.done := rfl
@[simp] theorem State.setF_err (s : State) (i : RegIdx) (v : Fp) : (s.setF i v).err = s.err := rfl
@[simp] theorem State.setF_errCode (s : State) (i : RegIdx) (v : Fp) :
    (s.setF i v).errCode = s.errCode := rfl
@[simp] theorem State.setF_errInfo (s : State) (i : RegIdx) (v : Fp) :
    (s.setF i v).errInfo = s.errInfo := rfl
@[simp] theorem State.setF_cmdcnt (s : State) (i : RegIdx) (v : Fp) :
    (s.setF i v).cmdcnt = s.cmdcnt := rfl
@[simp] theorem State.setF_cur (s : State) (i : RegIdx) (v : Fp) : (s.setF i v).cur = s.cur := rfl
@[simp] theorem State.setF_agenda (s : State) (i : RegIdx) (v : Fp) :
    (s.setF i v).agenda = s.agenda := rfl
@[simp] theorem State.setF_response (s : State) (i : RegIdx) (v : Fp) :
    (s.setF i v).response = s.response := rfl
@[simp] theorem State.setF_draws (s : State) (i : RegIdx) (v : Fp) :
    (s.setF i v).draws = s.draws := rfl

/-! ### `State.setS` -/

@[simp] theorem State.setS_freg (s : State) (i : RegIdx) (v : Fr) :
    (s.setS i v).freg = s.freg := rfl
@[simp] theorem State.setS_sreg (s : State) (i : RegIdx) (v : Fr) :
    (s.setS i v).sreg = s.sreg.set i v := rfl
@[simp] theorem State.setS_preg (s : State) (i : RegIdx) (v : Fr) :
    (s.setS i v).preg = s.preg := rfl
@[simp] theorem State.setS_areg (s : State) (i : RegIdx) (v : Fr) :
    (s.setS i v).areg = s.areg := rfl
@[simp] theorem State.setS_iobuf (s : State) (i : RegIdx) (v : Fr) :
    (s.setS i v).iobuf = s.iobuf := rfl
@[simp] theorem State.setS_t (s : State) (i : RegIdx) (v : Fr) : (s.setS i v).t = s.t := rfl
@[simp] theorem State.setS_acc (s : State) (i : RegIdx) (v : Fr) : (s.setS i v).acc = s.acc := rfl
@[simp] theorem State.setS_ieDone (s : State) (i : RegIdx) (v : Fr) :
    (s.setS i v).ieDone = s.ieDone := rfl
@[simp] theorem State.setS_ieErr (s : State) (i : RegIdx) (v : Fr) :
    (s.setS i v).ieErr = s.ieErr := rfl
@[simp] theorem State.setS_busy (s : State) (i : RegIdx) (v : Fr) :
    (s.setS i v).busy = s.busy := rfl
@[simp] theorem State.setS_done (s : State) (i : RegIdx) (v : Fr) :
    (s.setS i v).done = s.done := rfl
@[simp] theorem State.setS_err (s : State) (i : RegIdx) (v : Fr) : (s.setS i v).err = s.err := rfl
@[simp] theorem State.setS_errCode (s : State) (i : RegIdx) (v : Fr) :
    (s.setS i v).errCode = s.errCode := rfl
@[simp] theorem State.setS_errInfo (s : State) (i : RegIdx) (v : Fr) :
    (s.setS i v).errInfo = s.errInfo := rfl
@[simp] theorem State.setS_cmdcnt (s : State) (i : RegIdx) (v : Fr) :
    (s.setS i v).cmdcnt = s.cmdcnt := rfl
@[simp] theorem State.setS_cur (s : State) (i : RegIdx) (v : Fr) : (s.setS i v).cur = s.cur := rfl
@[simp] theorem State.setS_agenda (s : State) (i : RegIdx) (v : Fr) :
    (s.setS i v).agenda = s.agenda := rfl
@[simp] theorem State.setS_response (s : State) (i : RegIdx) (v : Fr) :
    (s.setS i v).response = s.response := rfl
@[simp] theorem State.setS_draws (s : State) (i : RegIdx) (v : Fr) :
    (s.setS i v).draws = s.draws := rfl

/-! ### `State.setP` -/

@[simp] theorem State.setP_freg (s : State) (i : RegIdx) (v : PVal) :
    (s.setP i v).freg = s.freg := rfl
@[simp] theorem State.setP_sreg (s : State) (i : RegIdx) (v : PVal) :
    (s.setP i v).sreg = s.sreg := rfl
@[simp] theorem State.setP_preg (s : State) (i : RegIdx) (v : PVal) :
    (s.setP i v).preg = s.preg.set i v := rfl
@[simp] theorem State.setP_areg (s : State) (i : RegIdx) (v : PVal) :
    (s.setP i v).areg = s.areg := rfl
@[simp] theorem State.setP_iobuf (s : State) (i : RegIdx) (v : PVal) :
    (s.setP i v).iobuf = s.iobuf := rfl
@[simp] theorem State.setP_t (s : State) (i : RegIdx) (v : PVal) : (s.setP i v).t = s.t := rfl
@[simp] theorem State.setP_acc (s : State) (i : RegIdx) (v : PVal) : (s.setP i v).acc = s.acc := rfl
@[simp] theorem State.setP_ieDone (s : State) (i : RegIdx) (v : PVal) :
    (s.setP i v).ieDone = s.ieDone := rfl
@[simp] theorem State.setP_ieErr (s : State) (i : RegIdx) (v : PVal) :
    (s.setP i v).ieErr = s.ieErr := rfl
@[simp] theorem State.setP_busy (s : State) (i : RegIdx) (v : PVal) :
    (s.setP i v).busy = s.busy := rfl
@[simp] theorem State.setP_done (s : State) (i : RegIdx) (v : PVal) :
    (s.setP i v).done = s.done := rfl
@[simp] theorem State.setP_err (s : State) (i : RegIdx) (v : PVal) : (s.setP i v).err = s.err := rfl
@[simp] theorem State.setP_errCode (s : State) (i : RegIdx) (v : PVal) :
    (s.setP i v).errCode = s.errCode := rfl
@[simp] theorem State.setP_errInfo (s : State) (i : RegIdx) (v : PVal) :
    (s.setP i v).errInfo = s.errInfo := rfl
@[simp] theorem State.setP_cmdcnt (s : State) (i : RegIdx) (v : PVal) :
    (s.setP i v).cmdcnt = s.cmdcnt := rfl
@[simp] theorem State.setP_cur (s : State) (i : RegIdx) (v : PVal) : (s.setP i v).cur = s.cur := rfl
@[simp] theorem State.setP_agenda (s : State) (i : RegIdx) (v : PVal) :
    (s.setP i v).agenda = s.agenda := rfl
@[simp] theorem State.setP_response (s : State) (i : RegIdx) (v : PVal) :
    (s.setP i v).response = s.response := rfl
@[simp] theorem State.setP_draws (s : State) (i : RegIdx) (v : PVal) :
    (s.setP i v).draws = s.draws := rfl

/-! ### `State.setA` -/

@[simp] theorem State.setA_freg (s : State) (i : RegIdx) (v : Affine) :
    (s.setA i v).freg = s.freg := rfl
@[simp] theorem State.setA_sreg (s : State) (i : RegIdx) (v : Affine) :
    (s.setA i v).sreg = s.sreg := rfl
@[simp] theorem State.setA_preg (s : State) (i : RegIdx) (v : Affine) :
    (s.setA i v).preg = s.preg := rfl
@[simp] theorem State.setA_areg (s : State) (i : RegIdx) (v : Affine) :
    (s.setA i v).areg = s.areg.set i v := rfl
@[simp] theorem State.setA_iobuf (s : State) (i : RegIdx) (v : Affine) :
    (s.setA i v).iobuf = s.iobuf := rfl
@[simp] theorem State.setA_t (s : State) (i : RegIdx) (v : Affine) : (s.setA i v).t = s.t := rfl
@[simp] theorem State.setA_acc (s : State) (i : RegIdx) (v : Affine) :
    (s.setA i v).acc = s.acc := rfl
@[simp] theorem State.setA_ieDone (s : State) (i : RegIdx) (v : Affine) :
    (s.setA i v).ieDone = s.ieDone := rfl
@[simp] theorem State.setA_ieErr (s : State) (i : RegIdx) (v : Affine) :
    (s.setA i v).ieErr = s.ieErr := rfl
@[simp] theorem State.setA_busy (s : State) (i : RegIdx) (v : Affine) :
    (s.setA i v).busy = s.busy := rfl
@[simp] theorem State.setA_done (s : State) (i : RegIdx) (v : Affine) :
    (s.setA i v).done = s.done := rfl
@[simp] theorem State.setA_err (s : State) (i : RegIdx) (v : Affine) :
    (s.setA i v).err = s.err := rfl
@[simp] theorem State.setA_errCode (s : State) (i : RegIdx) (v : Affine) :
    (s.setA i v).errCode = s.errCode := rfl
@[simp] theorem State.setA_errInfo (s : State) (i : RegIdx) (v : Affine) :
    (s.setA i v).errInfo = s.errInfo := rfl
@[simp] theorem State.setA_cmdcnt (s : State) (i : RegIdx) (v : Affine) :
    (s.setA i v).cmdcnt = s.cmdcnt := rfl
@[simp] theorem State.setA_cur (s : State) (i : RegIdx) (v : Affine) :
    (s.setA i v).cur = s.cur := rfl
@[simp] theorem State.setA_agenda (s : State) (i : RegIdx) (v : Affine) :
    (s.setA i v).agenda = s.agenda := rfl
@[simp] theorem State.setA_response (s : State) (i : RegIdx) (v : Affine) :
    (s.setA i v).response = s.response := rfl
@[simp] theorem State.setA_draws (s : State) (i : RegIdx) (v : Affine) :
    (s.setA i v).draws = s.draws := rfl

/-! ### `State.storeAt` -/

@[simp] theorem State.storeAt_freg (s : State) (a : Nat) (bs : List Byte) :
    (s.storeAt a bs).freg = s.freg := rfl
@[simp] theorem State.storeAt_sreg (s : State) (a : Nat) (bs : List Byte) :
    (s.storeAt a bs).sreg = s.sreg := rfl
@[simp] theorem State.storeAt_preg (s : State) (a : Nat) (bs : List Byte) :
    (s.storeAt a bs).preg = s.preg := rfl
@[simp] theorem State.storeAt_areg (s : State) (a : Nat) (bs : List Byte) :
    (s.storeAt a bs).areg = s.areg := rfl
@[simp] theorem State.storeAt_iobuf (s : State) (a : Nat) (bs : List Byte) :
    (s.storeAt a bs).iobuf = writeBytes s.iobuf a bs := rfl
@[simp] theorem State.storeAt_t (s : State) (a : Nat) (bs : List Byte) :
    (s.storeAt a bs).t = s.t := rfl
@[simp] theorem State.storeAt_acc (s : State) (a : Nat) (bs : List Byte) :
    (s.storeAt a bs).acc = s.acc := rfl
@[simp] theorem State.storeAt_ieDone (s : State) (a : Nat) (bs : List Byte) :
    (s.storeAt a bs).ieDone = s.ieDone := rfl
@[simp] theorem State.storeAt_ieErr (s : State) (a : Nat) (bs : List Byte) :
    (s.storeAt a bs).ieErr = s.ieErr := rfl
@[simp] theorem State.storeAt_busy (s : State) (a : Nat) (bs : List Byte) :
    (s.storeAt a bs).busy = s.busy := rfl
@[simp] theorem State.storeAt_done (s : State) (a : Nat) (bs : List Byte) :
    (s.storeAt a bs).done = s.done := rfl
@[simp] theorem State.storeAt_err (s : State) (a : Nat) (bs : List Byte) :
    (s.storeAt a bs).err = s.err := rfl
@[simp] theorem State.storeAt_errCode (s : State) (a : Nat) (bs : List Byte) :
    (s.storeAt a bs).errCode = s.errCode := rfl
@[simp] theorem State.storeAt_errInfo (s : State) (a : Nat) (bs : List Byte) :
    (s.storeAt a bs).errInfo = s.errInfo := rfl
@[simp] theorem State.storeAt_cmdcnt (s : State) (a : Nat) (bs : List Byte) :
    (s.storeAt a bs).cmdcnt = s.cmdcnt := rfl
@[simp] theorem State.storeAt_cur (s : State) (a : Nat) (bs : List Byte) :
    (s.storeAt a bs).cur = s.cur := rfl
@[simp] theorem State.storeAt_agenda (s : State) (a : Nat) (bs : List Byte) :
    (s.storeAt a bs).agenda = s.agenda := rfl
@[simp] theorem State.storeAt_response (s : State) (a : Nat) (bs : List Byte) :
    (s.storeAt a bs).response = s.response := rfl
@[simp] theorem State.storeAt_draws (s : State) (a : Nat) (bs : List Byte) :
    (s.storeAt a bs).draws = s.draws := rfl

/-! ### `State.setT` -/

@[simp] theorem State.setT_freg (s : State) (b : Bool) : (s.setT b).freg = s.freg := rfl
@[simp] theorem State.setT_sreg (s : State) (b : Bool) : (s.setT b).sreg = s.sreg := rfl
@[simp] theorem State.setT_preg (s : State) (b : Bool) : (s.setT b).preg = s.preg := rfl
@[simp] theorem State.setT_areg (s : State) (b : Bool) : (s.setT b).areg = s.areg := rfl
@[simp] theorem State.setT_iobuf (s : State) (b : Bool) : (s.setT b).iobuf = s.iobuf := rfl
@[simp] theorem State.setT_t (s : State) (b : Bool) : (s.setT b).t = b := rfl
@[simp] theorem State.setT_acc (s : State) (b : Bool) : (s.setT b).acc = (s.acc && b) := rfl
@[simp] theorem State.setT_ieDone (s : State) (b : Bool) : (s.setT b).ieDone = s.ieDone := rfl
@[simp] theorem State.setT_ieErr (s : State) (b : Bool) : (s.setT b).ieErr = s.ieErr := rfl
@[simp] theorem State.setT_busy (s : State) (b : Bool) : (s.setT b).busy = s.busy := rfl
@[simp] theorem State.setT_done (s : State) (b : Bool) : (s.setT b).done = s.done := rfl
@[simp] theorem State.setT_err (s : State) (b : Bool) : (s.setT b).err = s.err := rfl
@[simp] theorem State.setT_errCode (s : State) (b : Bool) : (s.setT b).errCode = s.errCode := rfl
@[simp] theorem State.setT_errInfo (s : State) (b : Bool) : (s.setT b).errInfo = s.errInfo := rfl
@[simp] theorem State.setT_cmdcnt (s : State) (b : Bool) : (s.setT b).cmdcnt = s.cmdcnt := rfl
@[simp] theorem State.setT_cur (s : State) (b : Bool) : (s.setT b).cur = s.cur := rfl
@[simp] theorem State.setT_agenda (s : State) (b : Bool) : (s.setT b).agenda = s.agenda := rfl
@[simp] theorem State.setT_response (s : State) (b : Bool) : (s.setT b).response = s.response := rfl
@[simp] theorem State.setT_draws (s : State) (b : Bool) : (s.setT b).draws = s.draws := rfl

/-! ### `State.setTDrawn` -/

@[simp] theorem State.setTDrawn_freg (s : State) : (s.setTDrawn).freg = s.freg := rfl
@[simp] theorem State.setTDrawn_sreg (s : State) : (s.setTDrawn).sreg = s.sreg := rfl
@[simp] theorem State.setTDrawn_preg (s : State) : (s.setTDrawn).preg = s.preg := rfl
@[simp] theorem State.setTDrawn_areg (s : State) : (s.setTDrawn).areg = s.areg := rfl
@[simp] theorem State.setTDrawn_iobuf (s : State) : (s.setTDrawn).iobuf = s.iobuf := rfl
@[simp] theorem State.setTDrawn_t (s : State) : (s.setTDrawn).t = Config.freeBit s.draws := rfl
@[simp] theorem State.setTDrawn_acc (s : State) :
    (s.setTDrawn).acc = (s.acc && Config.freeBit s.draws) := rfl
@[simp] theorem State.setTDrawn_ieDone (s : State) : (s.setTDrawn).ieDone = s.ieDone := rfl
@[simp] theorem State.setTDrawn_ieErr (s : State) : (s.setTDrawn).ieErr = s.ieErr := rfl
@[simp] theorem State.setTDrawn_busy (s : State) : (s.setTDrawn).busy = s.busy := rfl
@[simp] theorem State.setTDrawn_done (s : State) : (s.setTDrawn).done = s.done := rfl
@[simp] theorem State.setTDrawn_err (s : State) : (s.setTDrawn).err = s.err := rfl
@[simp] theorem State.setTDrawn_errCode (s : State) : (s.setTDrawn).errCode = s.errCode := rfl
@[simp] theorem State.setTDrawn_errInfo (s : State) : (s.setTDrawn).errInfo = s.errInfo := rfl
@[simp] theorem State.setTDrawn_cmdcnt (s : State) : (s.setTDrawn).cmdcnt = s.cmdcnt := rfl
@[simp] theorem State.setTDrawn_cur (s : State) : (s.setTDrawn).cur = s.cur := rfl
@[simp] theorem State.setTDrawn_agenda (s : State) : (s.setTDrawn).agenda = s.agenda := rfl
@[simp] theorem State.setTDrawn_response (s : State) : (s.setTDrawn).response = s.response := rfl
@[simp] theorem State.setTDrawn_draws (s : State) : (s.setTDrawn).draws = s.draws + 1 := rfl

/-! ### `State.complete` -/

@[simp] theorem State.complete_freg (s : State) : (s.complete).freg = s.freg := rfl
@[simp] theorem State.complete_sreg (s : State) : (s.complete).sreg = s.sreg := rfl
@[simp] theorem State.complete_preg (s : State) : (s.complete).preg = s.preg := rfl
@[simp] theorem State.complete_areg (s : State) : (s.complete).areg = s.areg := rfl
@[simp] theorem State.complete_iobuf (s : State) : (s.complete).iobuf = s.iobuf := rfl
@[simp] theorem State.complete_t (s : State) : (s.complete).t = s.t := rfl
@[simp] theorem State.complete_acc (s : State) : (s.complete).acc = s.acc := rfl
@[simp] theorem State.complete_ieDone (s : State) : (s.complete).ieDone = s.ieDone := rfl
@[simp] theorem State.complete_ieErr (s : State) : (s.complete).ieErr = s.ieErr := rfl
@[simp] theorem State.complete_busy (s : State) : (s.complete).busy = false := rfl
@[simp] theorem State.complete_done (s : State) : (s.complete).done = true := rfl
@[simp] theorem State.complete_err (s : State) : (s.complete).err = s.err := rfl
@[simp] theorem State.complete_errCode (s : State) : (s.complete).errCode = s.errCode := rfl
@[simp] theorem State.complete_errInfo (s : State) : (s.complete).errInfo = s.errInfo := rfl
@[simp] theorem State.complete_cmdcnt (s : State) : (s.complete).cmdcnt = s.cmdcnt + 1 := rfl
@[simp] theorem State.complete_cur (s : State) : (s.complete).cur = none := rfl
@[simp] theorem State.complete_agenda (s : State) : (s.complete).agenda = s.agenda := rfl
@[simp] theorem State.complete_response (s : State) : (s.complete).response = s.response := rfl
@[simp] theorem State.complete_draws (s : State) : (s.complete).draws = s.draws := rfl

/-! ### Register reads after updates -/

@[simp] theorem State.setF_getS (s : State) (i : RegIdx) (v : Fp) (j : RegIdx) :
    (s.setF i v).getS j = s.getS j := rfl
@[simp] theorem State.setF_getP (s : State) (i : RegIdx) (v : Fp) (j : RegIdx) :
    (s.setF i v).getP j = s.getP j := rfl
@[simp] theorem State.setF_getA (s : State) (i : RegIdx) (v : Fp) (j : RegIdx) :
    (s.setF i v).getA j = s.getA j := rfl
@[simp] theorem State.setS_getF (s : State) (i : RegIdx) (v : Fr) (j : RegIdx) :
    (s.setS i v).getF j = s.getF j := rfl
@[simp] theorem State.setS_getP (s : State) (i : RegIdx) (v : Fr) (j : RegIdx) :
    (s.setS i v).getP j = s.getP j := rfl
@[simp] theorem State.setS_getA (s : State) (i : RegIdx) (v : Fr) (j : RegIdx) :
    (s.setS i v).getA j = s.getA j := rfl
@[simp] theorem State.setP_getF (s : State) (i : RegIdx) (v : PVal) (j : RegIdx) :
    (s.setP i v).getF j = s.getF j := rfl
@[simp] theorem State.setP_getS (s : State) (i : RegIdx) (v : PVal) (j : RegIdx) :
    (s.setP i v).getS j = s.getS j := rfl
@[simp] theorem State.setP_getA (s : State) (i : RegIdx) (v : PVal) (j : RegIdx) :
    (s.setP i v).getA j = s.getA j := rfl
@[simp] theorem State.setA_getF (s : State) (i : RegIdx) (v : Affine) (j : RegIdx) :
    (s.setA i v).getF j = s.getF j := rfl
@[simp] theorem State.setA_getS (s : State) (i : RegIdx) (v : Affine) (j : RegIdx) :
    (s.setA i v).getS j = s.getS j := rfl
@[simp] theorem State.setA_getP (s : State) (i : RegIdx) (v : Affine) (j : RegIdx) :
    (s.setA i v).getP j = s.getP j := rfl
@[simp] theorem State.storeAt_getF (s : State) (a : Nat) (bs : List Byte) (j : RegIdx) :
    (s.storeAt a bs).getF j = s.getF j := rfl
@[simp] theorem State.storeAt_getS (s : State) (a : Nat) (bs : List Byte) (j : RegIdx) :
    (s.storeAt a bs).getS j = s.getS j := rfl
@[simp] theorem State.storeAt_getP (s : State) (a : Nat) (bs : List Byte) (j : RegIdx) :
    (s.storeAt a bs).getP j = s.getP j := rfl
@[simp] theorem State.storeAt_getA (s : State) (a : Nat) (bs : List Byte) (j : RegIdx) :
    (s.storeAt a bs).getA j = s.getA j := rfl
@[simp] theorem State.setT_getF (s : State) (b : Bool) (j : RegIdx) :
    (s.setT b).getF j = s.getF j := rfl
@[simp] theorem State.setT_getS (s : State) (b : Bool) (j : RegIdx) :
    (s.setT b).getS j = s.getS j := rfl
@[simp] theorem State.setT_getP (s : State) (b : Bool) (j : RegIdx) :
    (s.setT b).getP j = s.getP j := rfl
@[simp] theorem State.setT_getA (s : State) (b : Bool) (j : RegIdx) :
    (s.setT b).getA j = s.getA j := rfl
@[simp] theorem State.setTDrawn_getF (s : State) (j : RegIdx) :
    (s.setTDrawn).getF j = s.getF j := rfl
@[simp] theorem State.setTDrawn_getS (s : State) (j : RegIdx) :
    (s.setTDrawn).getS j = s.getS j := rfl
@[simp] theorem State.setTDrawn_getP (s : State) (j : RegIdx) :
    (s.setTDrawn).getP j = s.getP j := rfl
@[simp] theorem State.setTDrawn_getA (s : State) (j : RegIdx) :
    (s.setTDrawn).getA j = s.getA j := rfl
@[simp] theorem State.complete_getF (s : State) (j : RegIdx) : (s.complete).getF j = s.getF j := rfl
@[simp] theorem State.complete_getS (s : State) (j : RegIdx) : (s.complete).getS j = s.getS j := rfl
@[simp] theorem State.complete_getP (s : State) (j : RegIdx) : (s.complete).getP j = s.getP j := rfl
@[simp] theorem State.complete_getA (s : State) (j : RegIdx) : (s.complete).getA j = s.getA j := rfl

/-- A read of a written register file: the written value at the written index only. -/
theorem State.setF_getF (s : State) (i j : RegIdx) (v : Fp) :
    (s.setF i v).getF j = if j = i then v else s.getF j := by
  simp only [State.getF, State.setF, Fin.getElem_fin, Vector.getElem_set, Fin.ext_iff, eq_comm]

@[simp] theorem State.setF_getF_same (s : State) (i : RegIdx) (v : Fp) :
    (s.setF i v).getF i = v := by simp [State.setF_getF]

@[simp] theorem State.setF_getF_ne (s : State) (i j : RegIdx) (v : Fp) (h : j ≠ i) :
    (s.setF i v).getF j = s.getF j := by simp [State.setF_getF, h]

/-- A read of a written register file: the written value at the written index only. -/
theorem State.setS_getS (s : State) (i j : RegIdx) (v : Fr) :
    (s.setS i v).getS j = if j = i then v else s.getS j := by
  simp only [State.getS, State.setS, Fin.getElem_fin, Vector.getElem_set, Fin.ext_iff, eq_comm]

@[simp] theorem State.setS_getS_same (s : State) (i : RegIdx) (v : Fr) :
    (s.setS i v).getS i = v := by simp [State.setS_getS]

@[simp] theorem State.setS_getS_ne (s : State) (i j : RegIdx) (v : Fr) (h : j ≠ i) :
    (s.setS i v).getS j = s.getS j := by simp [State.setS_getS, h]

/-- A read of a written register file: the written value at the written index only. -/
theorem State.setP_getP (s : State) (i j : RegIdx) (v : PVal) :
    (s.setP i v).getP j = if j = i then v else s.getP j := by
  simp only [State.getP, State.setP, Fin.getElem_fin, Vector.getElem_set, Fin.ext_iff, eq_comm]

@[simp] theorem State.setP_getP_same (s : State) (i : RegIdx) (v : PVal) :
    (s.setP i v).getP i = v := by simp [State.setP_getP]

@[simp] theorem State.setP_getP_ne (s : State) (i j : RegIdx) (v : PVal) (h : j ≠ i) :
    (s.setP i v).getP j = s.getP j := by simp [State.setP_getP, h]

/-- A read of a written register file: the written value at the written index only. -/
theorem State.setA_getA (s : State) (i j : RegIdx) (v : Affine) :
    (s.setA i v).getA j = if j = i then v else s.getA j := by
  simp only [State.getA, State.setA, Fin.getElem_fin, Vector.getElem_set, Fin.ext_iff, eq_comm]

@[simp] theorem State.setA_getA_same (s : State) (i : RegIdx) (v : Affine) :
    (s.setA i v).getA i = v := by simp [State.setA_getA]

@[simp] theorem State.setA_getA_ne (s : State) (i j : RegIdx) (v : Affine) (h : j ≠ i) :
    (s.setA i v).getA j = s.getA j := by simp [State.setA_getA, h]

end Sys2Proof.Machine
end

