-- ==== Sys2Proof/Laws/Ops.lean ====
section
/-!
SUPPORT. What each shared operation can do: reads after register writes, register ranges, the operand
forms, completion, the command error, reset, and the host's writes.
-/

namespace Sys2Proof.Machine

set_option Elab.async false

/-! ### Reads after register writes -/

theorem State.getF_setF (s : State) (i k : RegIdx) (v : Fp) :
    (s.setF i v).getF k = if i = k then v else s.getF k := by
  simp only [State.getF, State.setF, Fin.getElem_fin, Vector.getElem_set, Fin.ext_iff]

theorem State.getS_setS (s : State) (i k : RegIdx) (v : Fr) :
    (s.setS i v).getS k = if i = k then v else s.getS k := by
  simp only [State.getS, State.setS, Fin.getElem_fin, Vector.getElem_set, Fin.ext_iff]

theorem State.getP_setP (s : State) (i k : RegIdx) (v : PVal) :
    (s.setP i v).getP k = if i = k then v else s.getP k := by
  simp only [State.getP, State.setP, Fin.getElem_fin, Vector.getElem_set, Fin.ext_iff]

theorem State.getA_setA (s : State) (i k : RegIdx) (v : Affine) :
    (s.setA i v).getA k = if i = k then v else s.getA k := by
  simp only [State.getA, State.setA, Fin.getElem_fin, Vector.getElem_set, Fin.ext_iff]

/-! ### Reads across the other updates -/

@[simp] theorem State.getF_setS (s : State) (i k : RegIdx) (v : Fr) :
    (s.setS i v).getF k = s.getF k := rfl
@[simp] theorem State.getF_setP (s : State) (i k : RegIdx) (v : PVal) :
    (s.setP i v).getF k = s.getF k := rfl
@[simp] theorem State.getF_setA (s : State) (i k : RegIdx) (v : Affine) :
    (s.setA i v).getF k = s.getF k := rfl
@[simp] theorem State.getF_setT (s : State) (b : Bool) (k : RegIdx) :
    (s.setT b).getF k = s.getF k := rfl
@[simp] theorem State.getF_storeAt (s : State) (a : Nat) (bs : List Byte) (k : RegIdx) :
    (s.storeAt a bs).getF k = s.getF k := rfl
@[simp] theorem State.getF_complete (s : State) (k : RegIdx) :
    s.complete.getF k = s.getF k := rfl
@[simp] theorem State.getS_setF (s : State) (i k : RegIdx) (v : Fp) :
    (s.setF i v).getS k = s.getS k := rfl
@[simp] theorem State.getS_setP (s : State) (i k : RegIdx) (v : PVal) :
    (s.setP i v).getS k = s.getS k := rfl
@[simp] theorem State.getS_setA (s : State) (i k : RegIdx) (v : Affine) :
    (s.setA i v).getS k = s.getS k := rfl
@[simp] theorem State.getS_setT (s : State) (b : Bool) (k : RegIdx) :
    (s.setT b).getS k = s.getS k := rfl
@[simp] theorem State.getS_storeAt (s : State) (a : Nat) (bs : List Byte) (k : RegIdx) :
    (s.storeAt a bs).getS k = s.getS k := rfl
@[simp] theorem State.getS_complete (s : State) (k : RegIdx) :
    s.complete.getS k = s.getS k := rfl
@[simp] theorem State.getP_setF (s : State) (i k : RegIdx) (v : Fp) :
    (s.setF i v).getP k = s.getP k := rfl
@[simp] theorem State.getP_setS (s : State) (i k : RegIdx) (v : Fr) :
    (s.setS i v).getP k = s.getP k := rfl
@[simp] theorem State.getP_setA (s : State) (i k : RegIdx) (v : Affine) :
    (s.setA i v).getP k = s.getP k := rfl
@[simp] theorem State.getP_setT (s : State) (b : Bool) (k : RegIdx) :
    (s.setT b).getP k = s.getP k := rfl
@[simp] theorem State.getP_storeAt (s : State) (a : Nat) (bs : List Byte) (k : RegIdx) :
    (s.storeAt a bs).getP k = s.getP k := rfl
@[simp] theorem State.getP_complete (s : State) (k : RegIdx) :
    s.complete.getP k = s.getP k := rfl
@[simp] theorem State.getA_setF (s : State) (i k : RegIdx) (v : Fp) :
    (s.setF i v).getA k = s.getA k := rfl
@[simp] theorem State.getA_setS (s : State) (i k : RegIdx) (v : Fr) :
    (s.setS i v).getA k = s.getA k := rfl
@[simp] theorem State.getA_setP (s : State) (i k : RegIdx) (v : PVal) :
    (s.setP i v).getA k = s.getA k := rfl
@[simp] theorem State.getA_setT (s : State) (b : Bool) (k : RegIdx) :
    (s.setT b).getA k = s.getA k := rfl
@[simp] theorem State.getA_storeAt (s : State) (a : Nat) (bs : List Byte) (k : RegIdx) :
    (s.storeAt a bs).getA k = s.getA k := rfl
@[simp] theorem State.getA_complete (s : State) (k : RegIdx) :
    s.complete.getA k = s.getA k := rfl

/-! ### Reads after a fallible result (10_state.md R49) -/

theorem State.getF_resultF (s : State) (d k : RegIdx) (v : Fp) (ok : Bool) :
    (s.resultF d v ok).getF k = if d = k then (if ok then v else toFp 0) else s.getF k := by
  rw [State.resultF, State.getF_setT, State.getF_setF]

theorem State.getS_resultS (s : State) (d k : RegIdx) (v : Fr) (ok : Bool) :
    (s.resultS d v ok).getS k = if d = k then (if ok then v else toFr 0) else s.getS k := by
  rw [State.resultS, State.getS_setT, State.getS_setS]

theorem State.getA_resultA (s : State) (d k : RegIdx) (v : Affine) (ok : Bool) :
    (s.resultA d v ok).getA k = if d = k then (if ok then v else Affine.id) else s.getA k := by
  rw [State.resultA, State.getA_setT, State.getA_setA]

/-! ### Register ranges (30_encoding.md R115) -/

theorem rangeFits_iff (base n : RegIdx) : rangeFits base n = true ↔ base.val + n.val + 1 ≤ 16 := by
  rw [rangeFits, countOf, decide_eq_true_iff, Nat.add_assoc]

theorem bufFits_iff (off : BufOff) (len : Nat) :
    bufFits off len = true ↔ off.toNat + len ≤ 4096 := by
  simp only [bufFits, decide_eq_true_eq]

theorem readRange_length {α : Type} (v : Vector α 16) (base : RegIdx) (n : Nat)
    (h : base.val + n ≤ 16) : (readRange v base n).length = n := by
  simp only [readRange, List.length_take, List.length_drop, Vector.length_toList]; omega

/-- Element k of a register range. -/
theorem readRange_getElem {α : Type} (v : Vector α 16) (base : RegIdx) (n k : Nat)
    (h : k < (readRange v base n).length) (hk : base.val + k < 16) :
    (readRange v base n)[k] = v[base.val + k] := by
  simp only [readRange, List.getElem_take, List.getElem_drop, Vector.getElem_toList]

/-- Register k after a range has been written from index i on. -/
theorem writeRange_getElem {α : Type} (xs : List α) : ∀ (v : Vector α 16) (i k : Nat) (hk : k < 16),
    (writeRange v i xs)[k] = if h : i ≤ k ∧ k - i < xs.length then xs[k - i] else v[k] := by
  induction xs with
  | nil => intro v i k hk; simp [writeRange]
  | cons x xs ih =>
    intro v i k hk
    simp only [writeRange]
    rw [ih]
    by_cases h1 : i + 1 ≤ k ∧ k - (i + 1) < xs.length
    · have h2 : i ≤ k ∧ k - i < (x :: xs).length := by simp only [List.length_cons]; omega
      rw [dif_pos h1, dif_pos h2]
      have h3 : k - i = (k - (i + 1)) + 1 := by omega
      simp only [h3, List.getElem_cons_succ]
    · rw [dif_neg h1, Vector.getElem_setIfInBounds]
      by_cases h2 : i = k
      · subst h2; simp
      · have h3 : ¬(i ≤ k ∧ k - i < (x :: xs).length) := by simp only [List.length_cons]; omega
        rw [dif_neg h3, if_neg h2]

/-! ### Operand forms -/

theorem withBuf_fits {off : BufOff} {n : Nat} (cmd : Word32) (s e : State)
    (h : bufFits off n = true) : withBuf off n cmd s e = .next e.complete := by
  simp only [withBuf, h, if_true, finish]

theorem withBuf_not_fits {off : BufOff} {n : Nat} (cmd : Word32) (s e : State)
    (h : bufFits off n = false) : withBuf off n cmd s e = .next (s.raise .rangeBuf cmd) := by
  simp [withBuf, h]

theorem loadBuf_fits {off : BufOff} {n : Nat} (cmd : Word32) (s : State) (e : List Byte → State)
    (h : bufFits off n = true) :
    loadBuf off n cmd s e = .next (e (readBytes s.iobuf off.toNat n)).complete :=
  withBuf_fits cmd s _ h

theorem storeBuf_fits {off : BufOff} {n : Nat} (cmd : Word32) (s : State) (bs : List Byte)
    (h : bufFits off n = true) :
    storeBuf off n cmd s bs = .next (s.storeAt off.toNat bs).complete :=
  withBuf_fits cmd s _ h

theorem withRanges_fits {base1 base2 n : RegIdx} (cmd : Word32) (s e : State)
    (h1 : rangeFits base1 n = true) (h2 : rangeFits base2 n = true) :
    withRanges base1 base2 n cmd s e = .next e.complete := by
  simp only [withRanges, h1, h2, Bool.and_self, if_true, finish]

/-! ### Completion, command errors, reset -/

theorem State.complete_completed (s e : State) (h : e.cmdcnt = s.cmdcnt) : Completed s e.complete :=
  ⟨rfl, rfl, rfl, by simp only [State.complete, h]⟩

/-- A second error while ERR = 1 changes nothing (60_exceptions.md R364). -/
theorem State.raise_of_err {s : State} (h : s.err = true) (e : CmdError) (info : Word32) :
    s.raise e info = s := by simp [State.raise, h]

/-- The first error sets ERR and the report, and nothing else (60_exceptions.md R363). -/
theorem State.raise_of_not_err {s : State} (h : s.err = false) (e : CmdError) (info : Word32) :
    s.raise e info = { s with err := true, errCode := errorCode e, errInfo := info } := by
  simp [State.raise, h]

theorem State.coreOf_doReset (s : State) : s.doReset.coreOf = State.reset := rfl

/-! ### IOBUF through the state -/

/-- A byte after a store: the stored string's inside its range, the old one outside. -/
theorem State.readByte_storeAt (s : State) (a b : Nat) (bs : List Byte) (h : a + bs.length ≤ 4096)
    (hm : Memory.wf s.iobuf = true) :
    readByte (s.storeAt a bs).iobuf b =
      if a ≤ b ∧ b < a + bs.length then bs.getD (b - a) 0 else readByte s.iobuf b :=
  readByte_writeBytes bs s.iobuf a b h hm

/-- What was stored reads back. -/
theorem State.readBytes_storeAt (s : State) (a : Nat) (bs : List Byte) (h : a + bs.length ≤ 4096)
    (hm : Memory.wf s.iobuf = true) :
    readBytes (s.storeAt a bs).iobuf a bs.length = bs :=
  readBytes_writeBytes s.iobuf a bs bs.length rfl h hm

theorem State.storeAt_wf (s : State) (a : Nat) (bs : List Byte) (h : a + bs.length ≤ 4096)
    (hm : Memory.wf s.iobuf = true) : Memory.wf (s.storeAt a bs).iobuf = true :=
  writeBytes_wf bs s.iobuf a h hm

/-- A store changes no byte outside its range, whatever the form of the buffer. -/
theorem readByte_writeByte_other (m : Memory) (a : Nat) (v : Byte) (b : Nat) (h : b ≠ a) :
    readByte (writeByte m a v) b = readByte m b := by
  induction m with
  | nil =>
    by_cases hv : v = 0
    · simp only [writeByte, if_pos hv]
    · simp only [writeByte, if_neg hv, readByte, if_neg (Ne.symm h)]
  | cons c rest ih =>
    obtain ⟨k, w⟩ := c
    simp only [writeByte]
    split
    · split
      · rfl
      · simp only [readByte, if_neg (Ne.symm h)]
    · split
      · rename_i hk; subst hk
        split
        · simp only [readByte, if_neg (Ne.symm h)]
        · simp only [readByte, if_neg (Ne.symm h)]
      · simp only [readByte, ih]

theorem readByte_writeBytes_other (bs : List Byte) : ∀ (m : Memory) (a b : Nat),
    ¬(a ≤ b ∧ b < a + bs.length) → readByte (writeBytes m a bs) b = readByte m b := by
  induction bs with
  | nil => intro m a b _; rfl
  | cons c bs ih =>
    intro m a b h
    simp only [List.length_cons] at h
    simp only [writeBytes]
    rw [ih _ _ _ (by omega), readByte_writeByte_other _ _ _ _ (by omega)]

/-- The reset state's buffer is in canonical form. -/
theorem State.reset_wf : Memory.wf State.reset.iobuf = true := rfl

/-! ### The host's accesses (20_memory.md R74, R75) -/

theorem hostAccess_wordWrite (s : State) (off : HostOff) (w : Word32) (h : off.toNat % 4 = 0) :
    hostAccess s (wordWrite off w) = { hostWrite s off w with response := some ⟨0, false⟩ } := by
  have hl : accessLegal (wordWrite off w) = true := by simp [accessLegal, wordWrite, h]
  rw [hostAccess, if_pos hl]; rfl

theorem hostAccess_wordRead (s : State) (off : HostOff) (h : off.toNat % 4 = 0) :
    hostAccess s (wordRead off) = hostRead s (hostReg off) := by
  have hl : accessLegal (wordRead off) = true := by simp [accessLegal, wordRead, h]
  rw [hostAccess, if_pos hl]; rfl

/-- An access of the wrong width or alignment. -/
theorem hostAccess_illegal (s : State) (a : Access) (h : accessLegal a = false) :
    hostAccess s a = { s with response := some ⟨0, true⟩ } := by
  simp only [hostAccess, h, Bool.false_eq_true, if_false]

theorem hostAccess_writeCtrl (s : State) (w : Word32) :
    hostAccess s (wordWrite 0x08 w) = { writeCtrl s w with response := some ⟨0, false⟩ } :=
  hostAccess_wordWrite s _ w rfl

theorem hostAccess_writeStatus (s : State) (w : Word32) :
    hostAccess s (wordWrite 0x0C w) = { writeStatus s w with response := some ⟨0, false⟩ } :=
  hostAccess_wordWrite s _ w rfl

theorem hostAccess_writeFlags (s : State) (w : Word32) :
    hostAccess s (wordWrite 0x10 w) =
      { writeWhenIdle s 0x10 { s with t := w.getLsbD 0, acc := w.getLsbD 1 } with
        response := some ⟨0, false⟩ } :=
  hostAccess_wordWrite s _ w rfl

theorem hostAccess_writeCmd (s : State) (w : Word32) :
    hostAccess s (wordWrite 0x14 w) = { writeCmd s w with response := some ⟨0, false⟩ } :=
  hostAccess_wordWrite s _ w rfl

theorem hostReg_buffer (off : HostOff) (h : 0x1000 ≤ off.toNat) :
    hostReg off = .iobuf (off.toNat - 0x1000) := by simp [hostReg, h]

theorem hostReg_reserved (off : HostOff) (h : 0x20 ≤ off.toNat) (h' : off.toNat < 0x1000) :
    hostReg off = .reserved := by
  simp only [hostReg]
  rw [if_neg (by omega)]
  split <;> first | omega | rfl

end Sys2Proof.Machine
end

