-- ==== Sys2Proof/Laws/Exec.lean ====
section
/-!
SUPPORT. Per command: the next state `exec` answers, as one equation. The commands without an IOBUF or
range operand answer it always; the others when their operand check passes.
-/

namespace Sys2Proof.Machine

set_option Elab.async false

/-! ### Control -/

theorem exec_nop (s : State) :
    exec .nop s = .next s.complete :=
  rfl

theorem exec_tnot (s : State) :
    exec .tnot s = .next { s with t := !s.t }.complete :=
  rfl

theorem exec_aset (s : State) :
    exec .aset s = .next { s with acc := true }.complete :=
  rfl

theorem exec_tacc (s : State) :
    exec .tacc s = .next { s with t := s.acc }.complete :=
  rfl

/-! ### Fp -/

theorem exec_fseti (d : RegIdx) (imm : BitVec 16) (s : State) :
    exec (.fseti d imm) s = .next (s.setF d (montF (toFp (immValue imm)))).complete :=
  rfl

theorem exec_fmov (d a : RegIdx) (s : State) :
    exec (.fmov d a) s = .next (s.setF d (s.getF a)).complete :=
  rfl

theorem exec_fadd (d a b : RegIdx) (s : State) :
    exec (.fadd d a b) s = .next (s.setF d (modAdd (s.getF a) (s.getF b))).complete :=
  rfl

theorem exec_fsub (d a b : RegIdx) (s : State) :
    exec (.fsub d a b) s = .next (s.setF d (modSub (s.getF a) (s.getF b))).complete :=
  rfl

theorem exec_fneg (d a : RegIdx) (s : State) :
    exec (.fneg d a) s = .next (s.setF d (modNeg (s.getF a))).complete :=
  rfl

theorem exec_fmul (d a b : RegIdx) (s : State) :
    exec (.fmul d a b) s = .next (s.setF d (montMulF (s.getF a).val (s.getF b).val)).complete :=
  rfl

theorem exec_fsqr (d a : RegIdx) (s : State) :
    exec (.fsqr d a) s = .next (s.setF d (montMulF (s.getF a).val (s.getF a).val)).complete :=
  rfl

theorem exec_fpow (d a : RegIdx) (off : BufOff) (s : State) (h : bufFits off 48 = true) :
    exec (.fpow d a off) s = .next (s.setF d (montF (modPow 384 (valF (s.getF a)) (leInt
      (readBytes s.iobuf off.toNat 48))))).complete := by
  rw [exec, execFpow, loadBuf_fits _ _ _ h]

theorem exec_finv (d a : RegIdx) (s : State) :
    exec (.finv d a) s = .next (s.resultF d (modInvF (s.getF a)).1 (modInvF (s.getF
      a)).2).complete :=
  rfl

theorem exec_fsqrt (d a : RegIdx) (s : State) :
    exec (.fsqrt d a) s = .next (s.resultF d (montF (fpSqrt (valF (s.getF a))).1) (fpSqrt (valF
      (s.getF a))).2).complete :=
  rfl

theorem exec_fisz (a : RegIdx) (s : State) :
    exec (.fisz a) s = .next (s.setT (s.getF a == toFp 0)).complete :=
  rfl

theorem exec_flex (a : RegIdx) (s : State) :
    exec (.flex a) s = .next (s.setT (lexF (valF (s.getF a)))).complete :=
  rfl

theorem exec_feq (a b : RegIdx) (s : State) :
    exec (.feq a b) s = .next (s.setT (s.getF a == s.getF b)).complete :=
  rfl

theorem exec_fsel (d a b : RegIdx) (s : State) :
    exec (.fsel d a b) s = .next (s.setF d (if s.t then s.getF a else s.getF b)).complete :=
  rfl

theorem exec_fsop (d a b n : RegIdx) (s : State) (h1 : rangeFits a n = true) (h2 : rangeFits b n =
      true) :
    exec (.fsop d a b n) s = .next (s.setF d <| montF <| toFp <| sumOfProducts ((readRange s.freg
      a (countOf n)).map fun x => (valF x).val) ((readRange s.freg b (countOf n)).map fun x =>
      (valF x).val)).complete := by
  rw [exec, execFsop, withRanges_fits _ _ _ h1 h2]

theorem exec_fldb (d : RegIdx) (off : BufOff) (s : State) (h : bufFits off 48 = true) :
    exec (.fldb d off) s = .next (s.resultF d (montF (toFp (beInt (readBytes s.iobuf off.toNat
      48)))) (beInt (readBytes s.iobuf off.toNat 48) < p)).complete := by
  rw [exec, execFldb, loadBuf_fits _ _ _ h]

theorem exec_fstb (a : RegIdx) (off : BufOff) (s : State) (h : bufFits off 48 = true) :
    exec (.fstb a off) s = .next (s.storeAt off.toNat (beBytes 48 (valF (s.getF a)).val)).complete
      := by
  rw [exec, execFstb, storeBuf_fits _ _ _ h]

theorem exec_fldm (d : RegIdx) (off : BufOff) (s : State) (h : bufFits off 48 = true) :
    exec (.fldm d off) s = .next (s.resultF d (toFp (leInt (readBytes s.iobuf off.toNat 48)))
      (leInt (readBytes s.iobuf off.toNat 48) < p)).complete := by
  rw [exec, execFldm, loadBuf_fits _ _ _ h]

theorem exec_fstm (a : RegIdx) (off : BufOff) (s : State) (h : bufFits off 48 = true) :
    exec (.fstm a off) s = .next (s.storeAt off.toNat (leBytes 48 (s.getF a).val)).complete := by
  rw [exec, execFstm, storeBuf_fits _ _ _ h]

/-! ### Scalar -/

theorem exec_sseti (d : RegIdx) (imm : BitVec 16) (s : State) :
    exec (.sseti d imm) s = .next (s.setS d (montS (toFr (immValue imm)))).complete :=
  rfl

theorem exec_smov (d a : RegIdx) (s : State) :
    exec (.smov d a) s = .next (s.setS d (s.getS a)).complete :=
  rfl

theorem exec_sadd (d a b : RegIdx) (s : State) :
    exec (.sadd d a b) s = .next (s.setS d (modAdd (s.getS a) (s.getS b))).complete :=
  rfl

theorem exec_ssub (d a b : RegIdx) (s : State) :
    exec (.ssub d a b) s = .next (s.setS d (modSub (s.getS a) (s.getS b))).complete :=
  rfl

theorem exec_sneg (d a : RegIdx) (s : State) :
    exec (.sneg d a) s = .next (s.setS d (modNeg (s.getS a))).complete :=
  rfl

theorem exec_smul (d a b : RegIdx) (s : State) :
    exec (.smul d a b) s = .next (s.setS d (montMulS (s.getS a).val (s.getS b).val)).complete :=
  rfl

theorem exec_ssqr (d a : RegIdx) (s : State) :
    exec (.ssqr d a) s = .next (s.setS d (montMulS (s.getS a).val (s.getS a).val)).complete :=
  rfl

theorem exec_spow (d a : RegIdx) (off : BufOff) (s : State) (h : bufFits off 32 = true) :
    exec (.spow d a off) s = .next (s.setS d (montS (modPow 256 (valS (s.getS a)) (leInt
      (readBytes s.iobuf off.toNat 32))))).complete := by
  rw [exec, execSpow, loadBuf_fits _ _ _ h]

theorem exec_sinv (d a : RegIdx) (s : State) :
    exec (.sinv d a) s = .next (s.resultS d (modInvS (s.getS a)).1 (modInvS (s.getS
      a)).2).complete :=
  rfl

theorem exec_ssqrt (d a : RegIdx) (s : State) :
    exec (.ssqrt d a) s = .next (s.resultS d (montS (scSqrt (valS (s.getS a))).1) (scSqrt (valS
      (s.getS a))).2).complete :=
  rfl

theorem exec_sisz (a : RegIdx) (s : State) :
    exec (.sisz a) s = .next (s.setT (s.getS a == toFr 0)).complete :=
  rfl

theorem exec_slex (a : RegIdx) (s : State) :
    exec (.slex a) s = .next (s.setT (lexS (valS (s.getS a)))).complete :=
  rfl

theorem exec_seq (a b : RegIdx) (s : State) :
    exec (.seq a b) s = .next (s.setT (s.getS a == s.getS b)).complete :=
  rfl

theorem exec_ssel (d a b : RegIdx) (s : State) :
    exec (.ssel d a b) s = .next (s.setS d (if s.t then s.getS a else s.getS b)).complete :=
  rfl

theorem exec_ssop (d a b n : RegIdx) (s : State) (h1 : rangeFits a n = true) (h2 : rangeFits b n =
      true) :
    exec (.ssop d a b n) s = .next (s.setS d <| montS <| toFr <| sumOfProducts ((readRange s.sreg
      a (countOf n)).map fun x => (valS x).val) ((readRange s.sreg b (countOf n)).map fun x =>
      (valS x).val)).complete := by
  rw [exec, execSsop, withRanges_fits _ _ _ h1 h2]

theorem exec_sldb (d : RegIdx) (off : BufOff) (s : State) (h : bufFits off 32 = true) :
    exec (.sldb d off) s = .next (s.resultS d (montS (toFr (leInt (readBytes s.iobuf off.toNat
      32)))) (leInt (readBytes s.iobuf off.toNat 32) < r)).complete := by
  rw [exec, execSldb, loadBuf_fits _ _ _ h]

theorem exec_sstb (a : RegIdx) (off : BufOff) (s : State) (h : bufFits off 32 = true) :
    exec (.sstb a off) s = .next (s.storeAt off.toNat (leBytes 32 (valS (s.getS a)).val)).complete
      := by
  rw [exec, execSstb, storeBuf_fits _ _ _ h]

theorem exec_sldm (d : RegIdx) (off : BufOff) (s : State) (h : bufFits off 32 = true) :
    exec (.sldm d off) s = .next (s.resultS d (toFr (leInt (readBytes s.iobuf off.toNat 32)))
      (leInt (readBytes s.iobuf off.toNat 32) < r)).complete := by
  rw [exec, execSldm, loadBuf_fits _ _ _ h]

theorem exec_sstm (a : RegIdx) (off : BufOff) (s : State) (h : bufFits off 32 = true) :
    exec (.sstm a off) s = .next (s.storeAt off.toNat (leBytes 32 (s.getS a).val)).complete := by
  rw [exec, execSstm, storeBuf_fits _ _ _ h]

theorem exec_sdbl (d a : RegIdx) (s : State) :
    exec (.sdbl d a) s = .next (s.setS d (modDbl (s.getS a))).complete :=
  rfl

theorem exec_sldw (d : RegIdx) (off : BufOff) (s : State) (h : bufFits off 64 = true) :
    exec (.sldw d off) s = .next (s.setS d (modAdd (montMulS (leInt ((readBytes s.iobuf off.toNat
      64).take 32)) rs2) (montMulS (leInt ((readBytes s.iobuf off.toNat 64).drop 32))
      rs3))).complete := by
  rw [exec, execSldw, loadBuf_fits _ _ _ h]

theorem exec_sldr (d : RegIdx) (off : BufOff) (s : State) (h : bufFits off 32 = true) :
    exec (.sldr d off) s = .next (s.setS d (montMulS (leInt (readBytes s.iobuf off.toNat 32))
      rs2)).complete := by
  rw [exec, execSldr, loadBuf_fits _ _ _ h]

/-! ### Projective -/

theorem exec_pid (d : RegIdx) (s : State) :
    exec (.pid d) s = .next (s.setP d (.pt .infinity)).complete :=
  rfl

theorem exec_pgen (d : RegIdx) (s : State) :
    exec (.pgen d) s = .next (s.setP d (.pt generator)).complete :=
  rfl

theorem exec_pmov (d a : RegIdx) (s : State) :
    exec (.pmov d a) s = .next (s.setP d (s.getP a)).complete :=
  rfl

theorem exec_pfroma (d a : RegIdx) (s : State) :
    exec (.pfroma d a) s = .next (s.setP d (fromAffine (s.getA a))).complete :=
  rfl

theorem exec_ptoa (d a : RegIdx) (s : State) :
    exec (.ptoa d a) s =
      .next ({ s.setA d (affineOf (s.getP a) s.draws).1 with
        draws := (affineOf (s.getP a) s.draws).2 } : State).complete :=
  rfl

theorem exec_pbnorm (d a n : RegIdx) (s : State) (h1 : rangeFits d n = true)
    (h2 : rangeFits a n = true) :
    exec (.pbnorm d a n) s =
      .next ({ s with
        areg := writeRange s.areg d.val
          (affinesOf (readRange s.preg a (countOf n)) s.draws).1
        draws := (affinesOf (readRange s.preg a (countOf n)) s.draws).2 } : State).complete := by
  rw [exec, execPbnorm, withRanges_fits _ _ _ h1 h2]

theorem exec_padd (d a b : RegIdx) (s : State) :
    exec (.padd d a b) s = .next (s.setP d ((s.getP a).map2 Point.add (s.getP b))).complete :=
  rfl

theorem exec_paddm (d a b : RegIdx) (s : State) :
    exec (.paddm d a b) s = .next (s.setP d (addMixed (s.getP a) (s.getA b))).complete :=
  rfl

theorem exec_pdbl (d a : RegIdx) (s : State) :
    exec (.pdbl d a) s = .next (s.setP d ((s.getP a).map Point.dbl)).complete :=
  rfl

theorem exec_pneg (d a : RegIdx) (s : State) :
    exec (.pneg d a) s = .next (s.setP d ((s.getP a).map Point.neg)).complete :=
  rfl

theorem exec_psub (d a b : RegIdx) (s : State) :
    exec (.psub d a b) s = .next (s.setP d ((s.getP a).map2 Point.sub (s.getP b))).complete :=
  rfl

theorem exec_pmul (d a b : RegIdx) (s : State) :
    exec (.pmul d a b) s = .next (s.setP d ((s.getP a).map fun q => ladder q (valS (s.getS b)).val
      256)).complete :=
  rfl

theorem exec_pmulx (d a : RegIdx) (s : State) :
    exec (.pmulx d a) s = .next (s.setP d ((s.getP a).map Point.mulX)).complete :=
  rfl

theorem exec_pclr (d a : RegIdx) (s : State) :
    exec (.pclr d a) s = .next (s.setP d ((s.getP a).map Point.clearCofactor)).complete :=
  rfl

theorem exec_peq (a b : RegIdx) (s : State) :
    exec (.peq a b) s = .next (s.setTOrDraw (pointsEqual (s.getP a) (s.getP b))).complete :=
  rfl

theorem exec_pisid (a : RegIdx) (s : State) :
    exec (.pisid a) s = .next (s.setTOrDraw (isIdentity (s.getP a))).complete :=
  rfl

theorem exec_psel (d a b : RegIdx) (s : State) :
    exec (.psel d a b) s = .next (s.setP d (if s.t then s.getP a else s.getP b)).complete :=
  rfl

/-! ### AffinePoints -/

theorem exec_aid (d : RegIdx) (s : State) :
    exec (.aid d) s = .next (s.setA d Affine.id).complete :=
  rfl

theorem exec_agen (d : RegIdx) (s : State) :
    exec (.agen d) s = .next (s.setA d affineGenerator).complete :=
  rfl

theorem exec_amov (d a : RegIdx) (s : State) :
    exec (.amov d a) s = .next (s.setA d (s.getA a)).complete :=
  rfl

theorem exec_aneg (d a : RegIdx) (s : State) :
    exec (.aneg d a) s = .next (s.setA d (s.getA a).neg).complete :=
  rfl

theorem exec_aendo (d a : RegIdx) (s : State) :
    exec (.aendo d a) s = .next (s.setA d (s.getA a).endo).complete :=
  rfl

theorem exec_aonc (a : RegIdx) (s : State) :
    exec (.aonc a) s = .next (s.setT (s.getA a).onCurve).complete :=
  rfl

theorem exec_ators (a : RegIdx) (s : State) :
    exec (.ators a) s = .next (s.setTOrDraw (torsionTest (s.getA a))).complete :=
  rfl

theorem exec_aeq (a b : RegIdx) (s : State) :
    exec (.aeq a b) s = .next (s.setT ((s.getA a).equals (s.getA b))).complete :=
  rfl

theorem exec_aisid (a : RegIdx) (s : State) :
    exec (.aisid a) s = .next (s.setT (s.getA a).inf).complete :=
  rfl

theorem exec_asel (d a b : RegIdx) (s : State) :
    exec (.asel d a b) s = .next (s.setA d (if s.t then s.getA a else s.getA b)).complete :=
  rfl

theorem exec_astc (a : RegIdx) (off : BufOff) (s : State) (h : bufFits off 48 = true) :
    exec (.astc a off) s = .next (s.storeAt off.toNat (encodeCompressed (s.getA a))).complete := by
  rw [exec, execAstc, storeBuf_fits _ _ _ h]

theorem exec_astu (a : RegIdx) (off : BufOff) (s : State) (h : bufFits off 96 = true) :
    exec (.astu a off) s = .next (s.storeAt off.toNat (encodeUncompressed (s.getA a))).complete := by
  rw [exec, execAstu, storeBuf_fits _ _ _ h]

theorem exec_aldc (d : RegIdx) (off : BufOff) (s : State) (h : bufFits off 48 = true) :
    exec (.aldc d off) s = .next (s.resultA d (decodeCompressed (readBytes s.iobuf off.toNat
      48)).1 ((decodeCompressed (readBytes s.iobuf off.toNat 48)).2 && (decodeCompressed
      (readBytes s.iobuf off.toNat 48)).1.torsionFree)).complete := by
  rw [exec, execAldc, loadBuf_fits _ _ _ h]

theorem exec_aldcu (d : RegIdx) (off : BufOff) (s : State) (h : bufFits off 48 = true) :
    exec (.aldcu d off) s = .next (s.resultA d (decodeCompressed (readBytes s.iobuf off.toNat
      48)).1 (decodeCompressed (readBytes s.iobuf off.toNat 48)).2).complete := by
  rw [exec, execAldcu, loadBuf_fits _ _ _ h]

theorem exec_aldu (d : RegIdx) (off : BufOff) (s : State) (h : bufFits off 96 = true) :
    exec (.aldu d off) s = .next (s.resultA d (decodeUncompressed (readBytes s.iobuf off.toNat
      96)).1 ((decodeUncompressed (readBytes s.iobuf off.toNat 96)).2 && (decodeUncompressed
      (readBytes s.iobuf off.toNat 96)).1.onCurve && (decodeUncompressed (readBytes s.iobuf
      off.toNat 96)).1.torsionFree)).complete := by
  rw [exec, execAldu, loadBuf_fits _ _ _ h]

theorem exec_alduu (d : RegIdx) (off : BufOff) (s : State) (h : bufFits off 96 = true) :
    exec (.alduu d off) s = .next (s.resultA d (decodeUncompressed (readBytes s.iobuf off.toNat
      96)).1 (decodeUncompressed (readBytes s.iobuf off.toNat 96)).2).complete := by
  rw [exec, execAlduu, loadBuf_fits _ _ _ h]

end Sys2Proof.Machine
end

