-- ==== Sys2Proof/Laws/Effect.lean ====
section
/-!
SUPPORT. What a performed command can do, said once: the shapes its effect can take, with the footprint of
10_state.md R57 that each shape comes with. Frames and invariants follow by cases on the shape.
-/

namespace Sys2Proof.Machine

set_option Elab.async false

/-- The shapes of the effect of command `i` on `s`, before the completion. -/
inductive Effect (i : Instr) (s : State) : State → Prop
  | nop (h : i = .nop) : Effect i s s
  | tnot (h : i = .tnot) : Effect i s { s with t := !s.t }
  | aset (h : i = .aset) : Effect i s { s with acc := true }
  | tacc (h : i = .tacc) : Effect i s { s with t := s.acc }
  | setF (d : RegIdx) (v : Fp) (h : destF i = some d) (hf : flagWriting i = false) :
      Effect i s (s.setF d v)
  | setS (d : RegIdx) (v : Fr) (h : destS i = some d) (hf : flagWriting i = false) :
      Effect i s (s.setS d v)
  | setP (d : RegIdx) (v : PVal) (h : destP i = some d) (hf : flagWriting i = false) :
      Effect i s (s.setP d v)
  | setA (d : RegIdx) (v : Affine) (h : destA i = some (d, 1)) (hf : flagWriting i = false) :
      Effect i s (s.setA d v)
  | resultF (d : RegIdx) (v : Fp) (ok : Bool) (h : destF i = some d) (hf : flagWriting i = true) :
      Effect i s (s.resultF d v ok)
  | resultS (d : RegIdx) (v : Fr) (ok : Bool) (h : destS i = some d) (hf : flagWriting i = true) :
      Effect i s (s.resultS d v ok)
  | resultA (d : RegIdx) (v : Affine) (ok : Bool) (h : destA i = some (d, 1))
      (hf : flagWriting i = true) : Effect i s (s.resultA d v ok)
  | flag (b : Bool) (hf : flagWriting i = true) : Effect i s (s.setT b)
  | flagOrDraw (b : Option Bool) (hf : flagWriting i = true)
      (hm : familyOf i = .projective ∨ familyOf i = .affine) : Effect i s (s.setTOrDraw b)
  | affineDrawn (d : RegIdx) (v : Affine) (n : Nat) (h : destA i = some (d, 1))
      (hf : flagWriting i = false) (hm : familyOf i = .projective) :
      Effect i s { s.setA d v with draws := n }
  | affineRange (d : RegIdx) (vs : List Affine) (n : Nat) (h : destA i = some (d, vs.length))
      (hf : flagWriting i = false) (hm : familyOf i = .projective) :
      Effect i s { s with areg := writeRange s.areg d.val vs, draws := n }
  | store (a : Nat) (bs : List Byte) (h : storeRange i = some (a, bs.length))
      (hf : flagWriting i = false) (hb : a + bs.length ≤ 4096) : Effect i s (s.storeAt a bs)

theorem affinesOf_length : ∀ (vs : List PVal) (n : Nat), (affinesOf vs n).1.length = vs.length := by
  intro vs
  induction vs with
  | nil => intro n; rfl
  | cons v vs ih => intro n; simp only [affinesOf, List.length_cons, ih]

/-- A store of `n` bytes at an offset whose range fits. -/
theorem Effect.storeOff {i : Instr} (s : State) (off : BufOff) (n : Nat) (bs : List Byte)
    (hn : bs.length = n) (h : storeRange i = some (off.toNat, n)) (hf : flagWriting i = false)
    (hb : bufFits off n = true) : Effect i s (s.storeAt off.toNat bs) := by
  subst hn
  exact .store _ _ h hf ((bufFits_iff _ _).mp hb)

/-- Every well-formed command completes, with an effect of one of these shapes. -/
theorem exec_effect (i : Instr) (s : State) (h : wellFormed i = true) :
    ∃ e, exec i s = .next e.complete ∧ Effect i s e := by
  obtain ⟨hr, hb⟩ : regRangesFit i = true ∧ bufRangeFits i = true := by
    simpa only [wellFormed, Bool.and_eq_true] using h
  cases i with
  | nop => exact ⟨_, exec_nop s, .nop rfl⟩
  | tnot => exact ⟨_, exec_tnot s, .tnot rfl⟩
  | aset => exact ⟨_, exec_aset s, .aset rfl⟩
  | tacc => exact ⟨_, exec_tacc s, .tacc rfl⟩
  | fseti d imm => exact ⟨_, exec_fseti d imm s, .setF _ _ rfl rfl⟩
  | fmov d a => exact ⟨_, exec_fmov d a s, .setF _ _ rfl rfl⟩
  | fadd d a b => exact ⟨_, exec_fadd d a b s, .setF _ _ rfl rfl⟩
  | fsub d a b => exact ⟨_, exec_fsub d a b s, .setF _ _ rfl rfl⟩
  | fneg d a => exact ⟨_, exec_fneg d a s, .setF _ _ rfl rfl⟩
  | fmul d a b => exact ⟨_, exec_fmul d a b s, .setF _ _ rfl rfl⟩
  | fsqr d a => exact ⟨_, exec_fsqr d a s, .setF _ _ rfl rfl⟩
  | fpow d a off => exact ⟨_, exec_fpow d a off s hb, .setF _ _ rfl rfl⟩
  | finv d a => exact ⟨_, exec_finv d a s, .resultF _ _ _ rfl rfl⟩
  | fsqrt d a => exact ⟨_, exec_fsqrt d a s, .resultF _ _ _ rfl rfl⟩
  | fisz a => exact ⟨_, exec_fisz a s, .flag _ rfl⟩
  | flex a => exact ⟨_, exec_flex a s, .flag _ rfl⟩
  | feq a b => exact ⟨_, exec_feq a b s, .flag _ rfl⟩
  | fsel d a b => exact ⟨_, exec_fsel d a b s, .setF _ _ rfl rfl⟩
  | fsop d a b n =>
    simp only [regRangesFit, Bool.and_eq_true] at hr
    exact ⟨_, exec_fsop d a b n s hr.1 hr.2, .setF _ _ rfl rfl⟩
  | fldb d off => exact ⟨_, exec_fldb d off s hb, .resultF _ _ _ rfl rfl⟩
  | fstb a off => exact ⟨_, exec_fstb a off s hb, .storeOff _ _ 48 _ (beBytes_length _ _) rfl rfl hb⟩
  | fldm d off => exact ⟨_, exec_fldm d off s hb, .resultF _ _ _ rfl rfl⟩
  | fstm a off => exact ⟨_, exec_fstm a off s hb, .storeOff _ _ 48 _ (leBytes_length _ _) rfl rfl hb⟩
  | sseti d imm => exact ⟨_, exec_sseti d imm s, .setS _ _ rfl rfl⟩
  | smov d a => exact ⟨_, exec_smov d a s, .setS _ _ rfl rfl⟩
  | sadd d a b => exact ⟨_, exec_sadd d a b s, .setS _ _ rfl rfl⟩
  | ssub d a b => exact ⟨_, exec_ssub d a b s, .setS _ _ rfl rfl⟩
  | sneg d a => exact ⟨_, exec_sneg d a s, .setS _ _ rfl rfl⟩
  | smul d a b => exact ⟨_, exec_smul d a b s, .setS _ _ rfl rfl⟩
  | ssqr d a => exact ⟨_, exec_ssqr d a s, .setS _ _ rfl rfl⟩
  | spow d a off => exact ⟨_, exec_spow d a off s hb, .setS _ _ rfl rfl⟩
  | sinv d a => exact ⟨_, exec_sinv d a s, .resultS _ _ _ rfl rfl⟩
  | ssqrt d a => exact ⟨_, exec_ssqrt d a s, .resultS _ _ _ rfl rfl⟩
  | sisz a => exact ⟨_, exec_sisz a s, .flag _ rfl⟩
  | slex a => exact ⟨_, exec_slex a s, .flag _ rfl⟩
  | seq a b => exact ⟨_, exec_seq a b s, .flag _ rfl⟩
  | ssel d a b => exact ⟨_, exec_ssel d a b s, .setS _ _ rfl rfl⟩
  | ssop d a b n =>
    simp only [regRangesFit, Bool.and_eq_true] at hr
    exact ⟨_, exec_ssop d a b n s hr.1 hr.2, .setS _ _ rfl rfl⟩
  | sldb d off => exact ⟨_, exec_sldb d off s hb, .resultS _ _ _ rfl rfl⟩
  | sstb a off => exact ⟨_, exec_sstb a off s hb, .storeOff _ _ 32 _ (leBytes_length _ _) rfl rfl hb⟩
  | sldm d off => exact ⟨_, exec_sldm d off s hb, .resultS _ _ _ rfl rfl⟩
  | sstm a off => exact ⟨_, exec_sstm a off s hb, .storeOff _ _ 32 _ (leBytes_length _ _) rfl rfl hb⟩
  | sdbl d a => exact ⟨_, exec_sdbl d a s, .setS _ _ rfl rfl⟩
  | sldw d off => exact ⟨_, exec_sldw d off s hb, .setS _ _ rfl rfl⟩
  | sldr d off => exact ⟨_, exec_sldr d off s hb, .setS _ _ rfl rfl⟩
  | pid d => exact ⟨_, exec_pid d s, .setP _ _ rfl rfl⟩
  | pgen d => exact ⟨_, exec_pgen d s, .setP _ _ rfl rfl⟩
  | pmov d a => exact ⟨_, exec_pmov d a s, .setP _ _ rfl rfl⟩
  | pfroma d a => exact ⟨_, exec_pfroma d a s, .setP _ _ rfl rfl⟩
  | ptoa d a => exact ⟨_, exec_ptoa d a s, .affineDrawn _ _ _ rfl rfl rfl⟩
  | pbnorm d a n =>
    simp only [regRangesFit, Bool.and_eq_true] at hr
    refine ⟨_, exec_pbnorm d a n s hr.1 hr.2, .affineRange _ _ _ ?_ rfl rfl⟩
    have ha := (rangeFits_iff a n).mp hr.2
    rw [affinesOf_length, readRange_length _ _ _ (by simp only [countOf]; omega)]
    rfl
  | padd d a b => exact ⟨_, exec_padd d a b s, .setP _ _ rfl rfl⟩
  | paddm d a b => exact ⟨_, exec_paddm d a b s, .setP _ _ rfl rfl⟩
  | pdbl d a => exact ⟨_, exec_pdbl d a s, .setP _ _ rfl rfl⟩
  | pneg d a => exact ⟨_, exec_pneg d a s, .setP _ _ rfl rfl⟩
  | psub d a b => exact ⟨_, exec_psub d a b s, .setP _ _ rfl rfl⟩
  | pmul d a b => exact ⟨_, exec_pmul d a b s, .setP _ _ rfl rfl⟩
  | pmulx d a => exact ⟨_, exec_pmulx d a s, .setP _ _ rfl rfl⟩
  | pclr d a => exact ⟨_, exec_pclr d a s, .setP _ _ rfl rfl⟩
  | peq a b => exact ⟨_, exec_peq a b s, .flagOrDraw _ rfl (.inl rfl)⟩
  | pisid a => exact ⟨_, exec_pisid a s, .flagOrDraw _ rfl (.inl rfl)⟩
  | psel d a b => exact ⟨_, exec_psel d a b s, .setP _ _ rfl rfl⟩
  | aid d => exact ⟨_, exec_aid d s, .setA _ _ rfl rfl⟩
  | agen d => exact ⟨_, exec_agen d s, .setA _ _ rfl rfl⟩
  | amov d a => exact ⟨_, exec_amov d a s, .setA _ _ rfl rfl⟩
  | aneg d a => exact ⟨_, exec_aneg d a s, .setA _ _ rfl rfl⟩
  | aendo d a => exact ⟨_, exec_aendo d a s, .setA _ _ rfl rfl⟩
  | aonc a => exact ⟨_, exec_aonc a s, .flag _ rfl⟩
  | ators a => exact ⟨_, exec_ators a s, .flagOrDraw _ rfl (.inr rfl)⟩
  | aeq a b => exact ⟨_, exec_aeq a b s, .flag _ rfl⟩
  | aisid a => exact ⟨_, exec_aisid a s, .flag _ rfl⟩
  | asel d a b => exact ⟨_, exec_asel d a b s, .setA _ _ rfl rfl⟩
  | astc a off => exact ⟨_, exec_astc a off s hb, .storeOff _ _ 48 _ (encodeCompressed_length _) rfl rfl hb⟩
  | astu a off => exact ⟨_, exec_astu a off s hb, .storeOff _ _ 96 _ (encodeUncompressed_length _) rfl rfl hb⟩
  | aldc d off => exact ⟨_, exec_aldc d off s hb, .resultA _ _ _ rfl rfl⟩
  | aldcu d off => exact ⟨_, exec_aldcu d off s hb, .resultA _ _ _ rfl rfl⟩
  | aldu d off => exact ⟨_, exec_aldu d off s hb, .resultA _ _ _ rfl rfl⟩
  | alduu d off => exact ⟨_, exec_alduu d off s hb, .resultA _ _ _ rfl rfl⟩

end Sys2Proof.Machine
end

