-- ==== Sys2Proof/Laws/Encoding.lean ====
section
/-!
SUPPORT. The fields of the words of the twelve formats (30_encoding.md R110, R111): each field of a
word holds what the format puts there, and the must-be-zero bits are 0. The decoder's laws rest on these.
-/

namespace Sys2Proof

set_option Elab.async false

/-- The opcode of a word that starts with it. -/
theorem opField_append (op : BitVec 8) (rest : BitVec 24) :
    opField (op ++ rest : BitVec (8 + 24)) = op := by
  apply BitVec.eq_of_getLsbD_eq; intro i hi
  simp only [opField, BitVec.getLsbD_extractLsb', BitVec.getLsbD_append, hi, decide_true,
    Bool.true_and]
  rw [if_neg (by omega)]; congr 1; omega


/-! ### Z -/

theorem opField_wordZ (op : BitVec 8) : opField (wordZ op) = op := by
  apply BitVec.eq_of_getLsbD_eq; intro i hi
  show (BitVec.extractLsb' 24 8 (wordZ op : BitVec (8 + 24))).getLsbD i = _
  simp only [wordZ, BitVec.getLsbD_extractLsb', BitVec.getLsbD_append, hi, decide_true,
    Bool.true_and]
  repeat rw [if_neg (by omega)]
  congr 1; omega

theorem wordZ_and_mbzMask (op : BitVec 8) :
    wordZ op &&& Machine.mbzMask .z = 0#32 := by
  have hm : (Machine.mbzMask .z : BitVec (8 + 24)) = 0#8 ++ 16777215#24 := by decide
  show ((wordZ op : BitVec (8 + 24)) &&& Machine.mbzMask .z) = 0#(8 + 24)
  rw [hm, wordZ]
  repeat rw [BitVec.and_append]
  simp


/-! ### R3 -/

theorem opField_wordR3 (op : BitVec 8) (d : RegIdx) (a : RegIdx) (b : RegIdx) : opField (wordR3 op d a b) = op := by
  apply BitVec.eq_of_getLsbD_eq; intro i hi
  show (BitVec.extractLsb' 24 8 (wordR3 op d a b : BitVec (8 + 4 + 4 + 4 + 12))).getLsbD i = _
  simp only [wordR3, BitVec.getLsbD_extractLsb', BitVec.getLsbD_append, hi, decide_true,
    Bool.true_and]
  repeat rw [if_neg (by omega)]
  congr 1; omega

theorem fieldsOf_wordR3_d (op : BitVec 8) (d : RegIdx) (a : RegIdx) (b : RegIdx) :
    (fieldsOf (wordR3 op d a b)).d = d := by
  have h : BitVec.extractLsb' 20 4 (wordR3 op d a b : BitVec (8 + 4 + 4 + 4 + 12)) = nib d := by
    apply BitVec.eq_of_getLsbD_eq; intro i hi
    simp only [wordR3, BitVec.getLsbD_extractLsb', BitVec.getLsbD_append, hi, decide_true,
      Bool.true_and]
    repeat (first | rw [if_neg (by omega)] | rw [if_pos (by omega)])
    congr 1; omega
  exact congrArg BitVec.toFin h

theorem fieldsOf_wordR3_a (op : BitVec 8) (d : RegIdx) (a : RegIdx) (b : RegIdx) :
    (fieldsOf (wordR3 op d a b)).a = a := by
  have h : BitVec.extractLsb' 16 4 (wordR3 op d a b : BitVec (8 + 4 + 4 + 4 + 12)) = nib a := by
    apply BitVec.eq_of_getLsbD_eq; intro i hi
    simp only [wordR3, BitVec.getLsbD_extractLsb', BitVec.getLsbD_append, hi, decide_true,
      Bool.true_and]
    repeat (first | rw [if_neg (by omega)] | rw [if_pos (by omega)])
    congr 1; omega
  exact congrArg BitVec.toFin h

theorem fieldsOf_wordR3_b (op : BitVec 8) (d : RegIdx) (a : RegIdx) (b : RegIdx) :
    (fieldsOf (wordR3 op d a b)).b = b := by
  have h : BitVec.extractLsb' 12 4 (wordR3 op d a b : BitVec (8 + 4 + 4 + 4 + 12)) = nib b := by
    apply BitVec.eq_of_getLsbD_eq; intro i hi
    simp only [wordR3, BitVec.getLsbD_extractLsb', BitVec.getLsbD_append, hi, decide_true,
      Bool.true_and]
    repeat (first | rw [if_neg (by omega)] | rw [if_pos (by omega)])
    congr 1; omega
  exact congrArg BitVec.toFin h

theorem wordR3_and_mbzMask (op : BitVec 8) (d : RegIdx) (a : RegIdx) (b : RegIdx) :
    wordR3 op d a b &&& Machine.mbzMask .r3 = 0#32 := by
  have hm : (Machine.mbzMask .r3 : BitVec (8 + 4 + 4 + 4 + 12)) = 0#8 ++ 0#4 ++ 0#4 ++ 0#4 ++ 4095#12 := by decide
  show ((wordR3 op d a b : BitVec (8 + 4 + 4 + 4 + 12)) &&& Machine.mbzMask .r3) = 0#(8 + 4 + 4 + 4 + 12)
  rw [hm, wordR3]
  repeat rw [BitVec.and_append]
  simp


/-! ### R2 -/

theorem opField_wordR2 (op : BitVec 8) (d : RegIdx) (a : RegIdx) : opField (wordR2 op d a) = op := by
  apply BitVec.eq_of_getLsbD_eq; intro i hi
  show (BitVec.extractLsb' 24 8 (wordR2 op d a : BitVec (8 + 4 + 4 + 16))).getLsbD i = _
  simp only [wordR2, BitVec.getLsbD_extractLsb', BitVec.getLsbD_append, hi, decide_true,
    Bool.true_and]
  repeat rw [if_neg (by omega)]
  congr 1; omega

theorem fieldsOf_wordR2_d (op : BitVec 8) (d : RegIdx) (a : RegIdx) :
    (fieldsOf (wordR2 op d a)).d = d := by
  have h : BitVec.extractLsb' 20 4 (wordR2 op d a : BitVec (8 + 4 + 4 + 16)) = nib d := by
    apply BitVec.eq_of_getLsbD_eq; intro i hi
    simp only [wordR2, BitVec.getLsbD_extractLsb', BitVec.getLsbD_append, hi, decide_true,
      Bool.true_and]
    repeat (first | rw [if_neg (by omega)] | rw [if_pos (by omega)])
    congr 1; omega
  exact congrArg BitVec.toFin h

theorem fieldsOf_wordR2_a (op : BitVec 8) (d : RegIdx) (a : RegIdx) :
    (fieldsOf (wordR2 op d a)).a = a := by
  have h : BitVec.extractLsb' 16 4 (wordR2 op d a : BitVec (8 + 4 + 4 + 16)) = nib a := by
    apply BitVec.eq_of_getLsbD_eq; intro i hi
    simp only [wordR2, BitVec.getLsbD_extractLsb', BitVec.getLsbD_append, hi, decide_true,
      Bool.true_and]
    repeat (first | rw [if_neg (by omega)] | rw [if_pos (by omega)])
    congr 1; omega
  exact congrArg BitVec.toFin h

theorem wordR2_and_mbzMask (op : BitVec 8) (d : RegIdx) (a : RegIdx) :
    wordR2 op d a &&& Machine.mbzMask .r2 = 0#32 := by
  have hm : (Machine.mbzMask .r2 : BitVec (8 + 4 + 4 + 16)) = 0#8 ++ 0#4 ++ 0#4 ++ 65535#16 := by decide
  show ((wordR2 op d a : BitVec (8 + 4 + 4 + 16)) &&& Machine.mbzMask .r2) = 0#(8 + 4 + 4 + 16)
  rw [hm, wordR2]
  repeat rw [BitVec.and_append]
  simp


/-! ### R1D -/

theorem opField_wordR1d (op : BitVec 8) (d : RegIdx) : opField (wordR1d op d) = op := by
  apply BitVec.eq_of_getLsbD_eq; intro i hi
  show (BitVec.extractLsb' 24 8 (wordR1d op d : BitVec (8 + 4 + 20))).getLsbD i = _
  simp only [wordR1d, BitVec.getLsbD_extractLsb', BitVec.getLsbD_append, hi, decide_true,
    Bool.true_and]
  repeat rw [if_neg (by omega)]
  congr 1; omega

theorem fieldsOf_wordR1d_d (op : BitVec 8) (d : RegIdx) :
    (fieldsOf (wordR1d op d)).d = d := by
  have h : BitVec.extractLsb' 20 4 (wordR1d op d : BitVec (8 + 4 + 20)) = nib d := by
    apply BitVec.eq_of_getLsbD_eq; intro i hi
    simp only [wordR1d, BitVec.getLsbD_extractLsb', BitVec.getLsbD_append, hi, decide_true,
      Bool.true_and]
    repeat (first | rw [if_neg (by omega)] | rw [if_pos (by omega)])
    congr 1; omega
  exact congrArg BitVec.toFin h

theorem wordR1d_and_mbzMask (op : BitVec 8) (d : RegIdx) :
    wordR1d op d &&& Machine.mbzMask .r1d = 0#32 := by
  have hm : (Machine.mbzMask .r1d : BitVec (8 + 4 + 20)) = 0#8 ++ 0#4 ++ 1048575#20 := by decide
  show ((wordR1d op d : BitVec (8 + 4 + 20)) &&& Machine.mbzMask .r1d) = 0#(8 + 4 + 20)
  rw [hm, wordR1d]
  repeat rw [BitVec.and_append]
  simp


/-! ### R1A -/

theorem opField_wordR1a (op : BitVec 8) (a : RegIdx) : opField (wordR1a op a) = op := by
  apply BitVec.eq_of_getLsbD_eq; intro i hi
  show (BitVec.extractLsb' 24 8 (wordR1a op a : BitVec (8 + 4 + 4 + 16))).getLsbD i = _
  simp only [wordR1a, BitVec.getLsbD_extractLsb', BitVec.getLsbD_append, hi, decide_true,
    Bool.true_and]
  repeat rw [if_neg (by omega)]
  congr 1; omega

theorem fieldsOf_wordR1a_a (op : BitVec 8) (a : RegIdx) :
    (fieldsOf (wordR1a op a)).a = a := by
  have h : BitVec.extractLsb' 16 4 (wordR1a op a : BitVec (8 + 4 + 4 + 16)) = nib a := by
    apply BitVec.eq_of_getLsbD_eq; intro i hi
    simp only [wordR1a, BitVec.getLsbD_extractLsb', BitVec.getLsbD_append, hi, decide_true,
      Bool.true_and]
    repeat (first | rw [if_neg (by omega)] | rw [if_pos (by omega)])
    congr 1; omega
  exact congrArg BitVec.toFin h

theorem wordR1a_and_mbzMask (op : BitVec 8) (a : RegIdx) :
    wordR1a op a &&& Machine.mbzMask .r1a = 0#32 := by
  have hm : (Machine.mbzMask .r1a : BitVec (8 + 4 + 4 + 16)) = 0#8 ++ 15#4 ++ 0#4 ++ 65535#16 := by decide
  show ((wordR1a op a : BitVec (8 + 4 + 4 + 16)) &&& Machine.mbzMask .r1a) = 0#(8 + 4 + 4 + 16)
  rw [hm, wordR1a]
  repeat rw [BitVec.and_append]
  simp


/-! ### R2AB -/

theorem opField_wordR2ab (op : BitVec 8) (a : RegIdx) (b : RegIdx) : opField (wordR2ab op a b) = op := by
  apply BitVec.eq_of_getLsbD_eq; intro i hi
  show (BitVec.extractLsb' 24 8 (wordR2ab op a b : BitVec (8 + 4 + 4 + 4 + 12))).getLsbD i = _
  simp only [wordR2ab, BitVec.getLsbD_extractLsb', BitVec.getLsbD_append, hi, decide_true,
    Bool.true_and]
  repeat rw [if_neg (by omega)]
  congr 1; omega

theorem fieldsOf_wordR2ab_a (op : BitVec 8) (a : RegIdx) (b : RegIdx) :
    (fieldsOf (wordR2ab op a b)).a = a := by
  have h : BitVec.extractLsb' 16 4 (wordR2ab op a b : BitVec (8 + 4 + 4 + 4 + 12)) = nib a := by
    apply BitVec.eq_of_getLsbD_eq; intro i hi
    simp only [wordR2ab, BitVec.getLsbD_extractLsb', BitVec.getLsbD_append, hi, decide_true,
      Bool.true_and]
    repeat (first | rw [if_neg (by omega)] | rw [if_pos (by omega)])
    congr 1; omega
  exact congrArg BitVec.toFin h

theorem fieldsOf_wordR2ab_b (op : BitVec 8) (a : RegIdx) (b : RegIdx) :
    (fieldsOf (wordR2ab op a b)).b = b := by
  have h : BitVec.extractLsb' 12 4 (wordR2ab op a b : BitVec (8 + 4 + 4 + 4 + 12)) = nib b := by
    apply BitVec.eq_of_getLsbD_eq; intro i hi
    simp only [wordR2ab, BitVec.getLsbD_extractLsb', BitVec.getLsbD_append, hi, decide_true,
      Bool.true_and]
    repeat (first | rw [if_neg (by omega)] | rw [if_pos (by omega)])
    congr 1; omega
  exact congrArg BitVec.toFin h

theorem wordR2ab_and_mbzMask (op : BitVec 8) (a : RegIdx) (b : RegIdx) :
    wordR2ab op a b &&& Machine.mbzMask .r2ab = 0#32 := by
  have hm : (Machine.mbzMask .r2ab : BitVec (8 + 4 + 4 + 4 + 12)) = 0#8 ++ 15#4 ++ 0#4 ++ 0#4 ++ 4095#12 := by decide
  show ((wordR2ab op a b : BitVec (8 + 4 + 4 + 4 + 12)) &&& Machine.mbzMask .r2ab) = 0#(8 + 4 + 4 + 4 + 12)
  rw [hm, wordR2ab]
  repeat rw [BitVec.and_append]
  simp


/-! ### I -/

theorem opField_wordI (op : BitVec 8) (d : RegIdx) (imm : BitVec 16) : opField (wordI op d imm) = op := by
  apply BitVec.eq_of_getLsbD_eq; intro i hi
  show (BitVec.extractLsb' 24 8 (wordI op d imm : BitVec (8 + 4 + 4 + 16))).getLsbD i = _
  simp only [wordI, BitVec.getLsbD_extractLsb', BitVec.getLsbD_append, hi, decide_true,
    Bool.true_and]
  repeat rw [if_neg (by omega)]
  congr 1; omega

theorem fieldsOf_wordI_d (op : BitVec 8) (d : RegIdx) (imm : BitVec 16) :
    (fieldsOf (wordI op d imm)).d = d := by
  have h : BitVec.extractLsb' 20 4 (wordI op d imm : BitVec (8 + 4 + 4 + 16)) = nib d := by
    apply BitVec.eq_of_getLsbD_eq; intro i hi
    simp only [wordI, BitVec.getLsbD_extractLsb', BitVec.getLsbD_append, hi, decide_true,
      Bool.true_and]
    repeat (first | rw [if_neg (by omega)] | rw [if_pos (by omega)])
    congr 1; omega
  exact congrArg BitVec.toFin h

theorem fieldsOf_wordI_imm (op : BitVec 8) (d : RegIdx) (imm : BitVec 16) :
    (fieldsOf (wordI op d imm)).imm = imm := by
  have h : BitVec.extractLsb' 0 16 (wordI op d imm : BitVec (8 + 4 + 4 + 16)) = imm := by
    apply BitVec.eq_of_getLsbD_eq; intro i hi
    simp only [wordI, BitVec.getLsbD_extractLsb', BitVec.getLsbD_append, hi, decide_true,
      Bool.true_and]
    repeat (first | rw [if_neg (by omega)] | rw [if_pos (by omega)])
    congr 1; omega
  exact h

theorem wordI_and_mbzMask (op : BitVec 8) (d : RegIdx) (imm : BitVec 16) :
    wordI op d imm &&& Machine.mbzMask .i = 0#32 := by
  have hm : (Machine.mbzMask .i : BitVec (8 + 4 + 4 + 16)) = 0#8 ++ 0#4 ++ 15#4 ++ 0#16 := by decide
  show ((wordI op d imm : BitVec (8 + 4 + 4 + 16)) &&& Machine.mbzMask .i) = 0#(8 + 4 + 4 + 16)
  rw [hm, wordI]
  repeat rw [BitVec.and_append]
  simp


/-! ### ML -/

theorem opField_wordMl (op : BitVec 8) (d : RegIdx) (off : BufOff) : opField (wordMl op d off) = op := by
  apply BitVec.eq_of_getLsbD_eq; intro i hi
  show (BitVec.extractLsb' 24 8 (wordMl op d off : BitVec (8 + 4 + 8 + 12))).getLsbD i = _
  simp only [wordMl, BitVec.getLsbD_extractLsb', BitVec.getLsbD_append, hi, decide_true,
    Bool.true_and]
  repeat rw [if_neg (by omega)]
  congr 1; omega

theorem fieldsOf_wordMl_d (op : BitVec 8) (d : RegIdx) (off : BufOff) :
    (fieldsOf (wordMl op d off)).d = d := by
  have h : BitVec.extractLsb' 20 4 (wordMl op d off : BitVec (8 + 4 + 8 + 12)) = nib d := by
    apply BitVec.eq_of_getLsbD_eq; intro i hi
    simp only [wordMl, BitVec.getLsbD_extractLsb', BitVec.getLsbD_append, hi, decide_true,
      Bool.true_and]
    repeat (first | rw [if_neg (by omega)] | rw [if_pos (by omega)])
    congr 1; omega
  exact congrArg BitVec.toFin h

theorem fieldsOf_wordMl_off (op : BitVec 8) (d : RegIdx) (off : BufOff) :
    (fieldsOf (wordMl op d off)).off = off := by
  have h : BitVec.extractLsb' 0 12 (wordMl op d off : BitVec (8 + 4 + 8 + 12)) = off := by
    apply BitVec.eq_of_getLsbD_eq; intro i hi
    simp only [wordMl, BitVec.getLsbD_extractLsb', BitVec.getLsbD_append, hi, decide_true,
      Bool.true_and]
    repeat (first | rw [if_neg (by omega)] | rw [if_pos (by omega)])
    congr 1; omega
  exact h

theorem wordMl_and_mbzMask (op : BitVec 8) (d : RegIdx) (off : BufOff) :
    wordMl op d off &&& Machine.mbzMask .ml = 0#32 := by
  have hm : (Machine.mbzMask .ml : BitVec (8 + 4 + 8 + 12)) = 0#8 ++ 0#4 ++ 255#8 ++ 0#12 := by decide
  show ((wordMl op d off : BitVec (8 + 4 + 8 + 12)) &&& Machine.mbzMask .ml) = 0#(8 + 4 + 8 + 12)
  rw [hm, wordMl]
  repeat rw [BitVec.and_append]
  simp


/-! ### MS -/

theorem opField_wordMs (op : BitVec 8) (a : RegIdx) (off : BufOff) : opField (wordMs op a off) = op := by
  apply BitVec.eq_of_getLsbD_eq; intro i hi
  show (BitVec.extractLsb' 24 8 (wordMs op a off : BitVec (8 + 4 + 4 + 4 + 12))).getLsbD i = _
  simp only [wordMs, BitVec.getLsbD_extractLsb', BitVec.getLsbD_append, hi, decide_true,
    Bool.true_and]
  repeat rw [if_neg (by omega)]
  congr 1; omega

theorem fieldsOf_wordMs_a (op : BitVec 8) (a : RegIdx) (off : BufOff) :
    (fieldsOf (wordMs op a off)).a = a := by
  have h : BitVec.extractLsb' 16 4 (wordMs op a off : BitVec (8 + 4 + 4 + 4 + 12)) = nib a := by
    apply BitVec.eq_of_getLsbD_eq; intro i hi
    simp only [wordMs, BitVec.getLsbD_extractLsb', BitVec.getLsbD_append, hi, decide_true,
      Bool.true_and]
    repeat (first | rw [if_neg (by omega)] | rw [if_pos (by omega)])
    congr 1; omega
  exact congrArg BitVec.toFin h

theorem fieldsOf_wordMs_off (op : BitVec 8) (a : RegIdx) (off : BufOff) :
    (fieldsOf (wordMs op a off)).off = off := by
  have h : BitVec.extractLsb' 0 12 (wordMs op a off : BitVec (8 + 4 + 4 + 4 + 12)) = off := by
    apply BitVec.eq_of_getLsbD_eq; intro i hi
    simp only [wordMs, BitVec.getLsbD_extractLsb', BitVec.getLsbD_append, hi, decide_true,
      Bool.true_and]
    repeat (first | rw [if_neg (by omega)] | rw [if_pos (by omega)])
    congr 1; omega
  exact h

theorem wordMs_and_mbzMask (op : BitVec 8) (a : RegIdx) (off : BufOff) :
    wordMs op a off &&& Machine.mbzMask .ms = 0#32 := by
  have hm : (Machine.mbzMask .ms : BitVec (8 + 4 + 4 + 4 + 12)) = 0#8 ++ 15#4 ++ 0#4 ++ 15#4 ++ 0#12 := by decide
  show ((wordMs op a off : BitVec (8 + 4 + 4 + 4 + 12)) &&& Machine.mbzMask .ms) = 0#(8 + 4 + 4 + 4 + 12)
  rw [hm, wordMs]
  repeat rw [BitVec.and_append]
  simp


/-! ### MX -/

theorem opField_wordMx (op : BitVec 8) (d : RegIdx) (a : RegIdx) (off : BufOff) : opField (wordMx op d a off) = op := by
  apply BitVec.eq_of_getLsbD_eq; intro i hi
  show (BitVec.extractLsb' 24 8 (wordMx op d a off : BitVec (8 + 4 + 4 + 4 + 12))).getLsbD i = _
  simp only [wordMx, BitVec.getLsbD_extractLsb', BitVec.getLsbD_append, hi, decide_true,
    Bool.true_and]
  repeat rw [if_neg (by omega)]
  congr 1; omega

theorem fieldsOf_wordMx_d (op : BitVec 8) (d : RegIdx) (a : RegIdx) (off : BufOff) :
    (fieldsOf (wordMx op d a off)).d = d := by
  have h : BitVec.extractLsb' 20 4 (wordMx op d a off : BitVec (8 + 4 + 4 + 4 + 12)) = nib d := by
    apply BitVec.eq_of_getLsbD_eq; intro i hi
    simp only [wordMx, BitVec.getLsbD_extractLsb', BitVec.getLsbD_append, hi, decide_true,
      Bool.true_and]
    repeat (first | rw [if_neg (by omega)] | rw [if_pos (by omega)])
    congr 1; omega
  exact congrArg BitVec.toFin h

theorem fieldsOf_wordMx_a (op : BitVec 8) (d : RegIdx) (a : RegIdx) (off : BufOff) :
    (fieldsOf (wordMx op d a off)).a = a := by
  have h : BitVec.extractLsb' 16 4 (wordMx op d a off : BitVec (8 + 4 + 4 + 4 + 12)) = nib a := by
    apply BitVec.eq_of_getLsbD_eq; intro i hi
    simp only [wordMx, BitVec.getLsbD_extractLsb', BitVec.getLsbD_append, hi, decide_true,
      Bool.true_and]
    repeat (first | rw [if_neg (by omega)] | rw [if_pos (by omega)])
    congr 1; omega
  exact congrArg BitVec.toFin h

theorem fieldsOf_wordMx_off (op : BitVec 8) (d : RegIdx) (a : RegIdx) (off : BufOff) :
    (fieldsOf (wordMx op d a off)).off = off := by
  have h : BitVec.extractLsb' 0 12 (wordMx op d a off : BitVec (8 + 4 + 4 + 4 + 12)) = off := by
    apply BitVec.eq_of_getLsbD_eq; intro i hi
    simp only [wordMx, BitVec.getLsbD_extractLsb', BitVec.getLsbD_append, hi, decide_true,
      Bool.true_and]
    repeat (first | rw [if_neg (by omega)] | rw [if_pos (by omega)])
    congr 1; omega
  exact h

theorem wordMx_and_mbzMask (op : BitVec 8) (d : RegIdx) (a : RegIdx) (off : BufOff) :
    wordMx op d a off &&& Machine.mbzMask .mx = 0#32 := by
  have hm : (Machine.mbzMask .mx : BitVec (8 + 4 + 4 + 4 + 12)) = 0#8 ++ 0#4 ++ 0#4 ++ 15#4 ++ 0#12 := by decide
  show ((wordMx op d a off : BitVec (8 + 4 + 4 + 4 + 12)) &&& Machine.mbzMask .mx) = 0#(8 + 4 + 4 + 4 + 12)
  rw [hm, wordMx]
  repeat rw [BitVec.and_append]
  simp


/-! ### N -/

theorem opField_wordN (op : BitVec 8) (d : RegIdx) (a : RegIdx) (b : RegIdx) (n : RegIdx) : opField (wordN op d a b n) = op := by
  apply BitVec.eq_of_getLsbD_eq; intro i hi
  show (BitVec.extractLsb' 24 8 (wordN op d a b n : BitVec (8 + 4 + 4 + 4 + 4 + 8))).getLsbD i = _
  simp only [wordN, BitVec.getLsbD_extractLsb', BitVec.getLsbD_append, hi, decide_true,
    Bool.true_and]
  repeat rw [if_neg (by omega)]
  congr 1; omega

theorem fieldsOf_wordN_d (op : BitVec 8) (d : RegIdx) (a : RegIdx) (b : RegIdx) (n : RegIdx) :
    (fieldsOf (wordN op d a b n)).d = d := by
  have h : BitVec.extractLsb' 20 4 (wordN op d a b n : BitVec (8 + 4 + 4 + 4 + 4 + 8)) = nib d := by
    apply BitVec.eq_of_getLsbD_eq; intro i hi
    simp only [wordN, BitVec.getLsbD_extractLsb', BitVec.getLsbD_append, hi, decide_true,
      Bool.true_and]
    repeat (first | rw [if_neg (by omega)] | rw [if_pos (by omega)])
    congr 1; omega
  exact congrArg BitVec.toFin h

theorem fieldsOf_wordN_a (op : BitVec 8) (d : RegIdx) (a : RegIdx) (b : RegIdx) (n : RegIdx) :
    (fieldsOf (wordN op d a b n)).a = a := by
  have h : BitVec.extractLsb' 16 4 (wordN op d a b n : BitVec (8 + 4 + 4 + 4 + 4 + 8)) = nib a := by
    apply BitVec.eq_of_getLsbD_eq; intro i hi
    simp only [wordN, BitVec.getLsbD_extractLsb', BitVec.getLsbD_append, hi, decide_true,
      Bool.true_and]
    repeat (first | rw [if_neg (by omega)] | rw [if_pos (by omega)])
    congr 1; omega
  exact congrArg BitVec.toFin h

theorem fieldsOf_wordN_b (op : BitVec 8) (d : RegIdx) (a : RegIdx) (b : RegIdx) (n : RegIdx) :
    (fieldsOf (wordN op d a b n)).b = b := by
  have h : BitVec.extractLsb' 12 4 (wordN op d a b n : BitVec (8 + 4 + 4 + 4 + 4 + 8)) = nib b := by
    apply BitVec.eq_of_getLsbD_eq; intro i hi
    simp only [wordN, BitVec.getLsbD_extractLsb', BitVec.getLsbD_append, hi, decide_true,
      Bool.true_and]
    repeat (first | rw [if_neg (by omega)] | rw [if_pos (by omega)])
    congr 1; omega
  exact congrArg BitVec.toFin h

theorem fieldsOf_wordN_n (op : BitVec 8) (d : RegIdx) (a : RegIdx) (b : RegIdx) (n : RegIdx) :
    (fieldsOf (wordN op d a b n)).n = n := by
  have h : BitVec.extractLsb' 8 4 (wordN op d a b n : BitVec (8 + 4 + 4 + 4 + 4 + 8)) = nib n := by
    apply BitVec.eq_of_getLsbD_eq; intro i hi
    simp only [wordN, BitVec.getLsbD_extractLsb', BitVec.getLsbD_append, hi, decide_true,
      Bool.true_and]
    repeat (first | rw [if_neg (by omega)] | rw [if_pos (by omega)])
    congr 1; omega
  exact congrArg BitVec.toFin h

theorem wordN_and_mbzMask (op : BitVec 8) (d : RegIdx) (a : RegIdx) (b : RegIdx) (n : RegIdx) :
    wordN op d a b n &&& Machine.mbzMask .n = 0#32 := by
  have hm : (Machine.mbzMask .n : BitVec (8 + 4 + 4 + 4 + 4 + 8)) = 0#8 ++ 0#4 ++ 0#4 ++ 0#4 ++ 0#4 ++ 255#8 := by decide
  show ((wordN op d a b n : BitVec (8 + 4 + 4 + 4 + 4 + 8)) &&& Machine.mbzMask .n) = 0#(8 + 4 + 4 + 4 + 4 + 8)
  rw [hm, wordN]
  repeat rw [BitVec.and_append]
  simp


/-! ### N2 -/

theorem opField_wordN2 (op : BitVec 8) (d : RegIdx) (a : RegIdx) (n : RegIdx) : opField (wordN2 op d a n) = op := by
  apply BitVec.eq_of_getLsbD_eq; intro i hi
  show (BitVec.extractLsb' 24 8 (wordN2 op d a n : BitVec (8 + 4 + 4 + 4 + 4 + 8))).getLsbD i = _
  simp only [wordN2, BitVec.getLsbD_extractLsb', BitVec.getLsbD_append, hi, decide_true,
    Bool.true_and]
  repeat rw [if_neg (by omega)]
  congr 1; omega

theorem fieldsOf_wordN2_d (op : BitVec 8) (d : RegIdx) (a : RegIdx) (n : RegIdx) :
    (fieldsOf (wordN2 op d a n)).d = d := by
  have h : BitVec.extractLsb' 20 4 (wordN2 op d a n : BitVec (8 + 4 + 4 + 4 + 4 + 8)) = nib d := by
    apply BitVec.eq_of_getLsbD_eq; intro i hi
    simp only [wordN2, BitVec.getLsbD_extractLsb', BitVec.getLsbD_append, hi, decide_true,
      Bool.true_and]
    repeat (first | rw [if_neg (by omega)] | rw [if_pos (by omega)])
    congr 1; omega
  exact congrArg BitVec.toFin h

theorem fieldsOf_wordN2_a (op : BitVec 8) (d : RegIdx) (a : RegIdx) (n : RegIdx) :
    (fieldsOf (wordN2 op d a n)).a = a := by
  have h : BitVec.extractLsb' 16 4 (wordN2 op d a n : BitVec (8 + 4 + 4 + 4 + 4 + 8)) = nib a := by
    apply BitVec.eq_of_getLsbD_eq; intro i hi
    simp only [wordN2, BitVec.getLsbD_extractLsb', BitVec.getLsbD_append, hi, decide_true,
      Bool.true_and]
    repeat (first | rw [if_neg (by omega)] | rw [if_pos (by omega)])
    congr 1; omega
  exact congrArg BitVec.toFin h

theorem fieldsOf_wordN2_n (op : BitVec 8) (d : RegIdx) (a : RegIdx) (n : RegIdx) :
    (fieldsOf (wordN2 op d a n)).n = n := by
  have h : BitVec.extractLsb' 8 4 (wordN2 op d a n : BitVec (8 + 4 + 4 + 4 + 4 + 8)) = nib n := by
    apply BitVec.eq_of_getLsbD_eq; intro i hi
    simp only [wordN2, BitVec.getLsbD_extractLsb', BitVec.getLsbD_append, hi, decide_true,
      Bool.true_and]
    repeat (first | rw [if_neg (by omega)] | rw [if_pos (by omega)])
    congr 1; omega
  exact congrArg BitVec.toFin h

theorem wordN2_and_mbzMask (op : BitVec 8) (d : RegIdx) (a : RegIdx) (n : RegIdx) :
    wordN2 op d a n &&& Machine.mbzMask .n2 = 0#32 := by
  have hm : (Machine.mbzMask .n2 : BitVec (8 + 4 + 4 + 4 + 4 + 8)) = 0#8 ++ 0#4 ++ 0#4 ++ 15#4 ++ 0#4 ++ 255#8 := by decide
  show ((wordN2 op d a n : BitVec (8 + 4 + 4 + 4 + 4 + 8)) &&& Machine.mbzMask .n2) = 0#(8 + 4 + 4 + 4 + 4 + 8)
  rw [hm, wordN2]
  repeat rw [BitVec.and_append]
  simp


/-! ### A word is the word of its fields, when its must-be-zero bits are 0 -/

/-- Every must-be-zero bit of an accepted word is 0. -/
theorem getLsbD_of_and_mbzMask {w m : Word32} (h : w &&& m = 0#32) (i : Nat) :
    (w.getLsbD i && m.getLsbD i) = false := by
  rw [← BitVec.getLsbD_and, h, BitVec.getLsbD_zero]

theorem wordZ_fieldsOf (w : Word32) (h : w &&& Machine.mbzMask .z = 0#32) :
    wordZ (opField w) = w := by
  apply BitVec.eq_of_getLsbD_eq; intro i hi
  have hb := getLsbD_of_and_mbzMask h i
  simp only [wordZ, opField, BitVec.getLsbD_append, BitVec.getLsbD_extractLsb',
    Machine.mbzMask] at hb ⊢
  interval_cases i <;> simp at hb ⊢ <;> simp_all

theorem wordR3_fieldsOf (w : Word32) (h : w &&& Machine.mbzMask .r3 = 0#32) :
    wordR3 (opField w) (fieldsOf w).d (fieldsOf w).a (fieldsOf w).b = w := by
  apply BitVec.eq_of_getLsbD_eq; intro i hi
  have hb := getLsbD_of_and_mbzMask h i
  simp only [wordR3, nib, fieldsOf, nibbleField, opField, BitVec.ofFin_toFin,
    BitVec.getLsbD_append, BitVec.getLsbD_extractLsb', Machine.mbzMask] at hb ⊢
  interval_cases i <;> simp at hb ⊢ <;> simp_all

theorem wordR2_fieldsOf (w : Word32) (h : w &&& Machine.mbzMask .r2 = 0#32) :
    wordR2 (opField w) (fieldsOf w).d (fieldsOf w).a = w := by
  apply BitVec.eq_of_getLsbD_eq; intro i hi
  have hb := getLsbD_of_and_mbzMask h i
  simp only [wordR2, nib, fieldsOf, nibbleField, opField, BitVec.ofFin_toFin,
    BitVec.getLsbD_append, BitVec.getLsbD_extractLsb', Machine.mbzMask] at hb ⊢
  interval_cases i <;> simp at hb ⊢ <;> simp_all

theorem wordR1d_fieldsOf (w : Word32) (h : w &&& Machine.mbzMask .r1d = 0#32) :
    wordR1d (opField w) (fieldsOf w).d = w := by
  apply BitVec.eq_of_getLsbD_eq; intro i hi
  have hb := getLsbD_of_and_mbzMask h i
  simp only [wordR1d, nib, fieldsOf, nibbleField, opField, BitVec.ofFin_toFin,
    BitVec.getLsbD_append, BitVec.getLsbD_extractLsb', Machine.mbzMask] at hb ⊢
  interval_cases i <;> simp at hb ⊢ <;> simp_all

theorem wordR1a_fieldsOf (w : Word32) (h : w &&& Machine.mbzMask .r1a = 0#32) :
    wordR1a (opField w) (fieldsOf w).a = w := by
  apply BitVec.eq_of_getLsbD_eq; intro i hi
  have hb := getLsbD_of_and_mbzMask h i
  simp only [wordR1a, nib, fieldsOf, nibbleField, opField, BitVec.ofFin_toFin,
    BitVec.getLsbD_append, BitVec.getLsbD_extractLsb', Machine.mbzMask] at hb ⊢
  interval_cases i <;> simp at hb ⊢ <;> simp_all

theorem wordR2ab_fieldsOf (w : Word32) (h : w &&& Machine.mbzMask .r2ab = 0#32) :
    wordR2ab (opField w) (fieldsOf w).a (fieldsOf w).b = w := by
  apply BitVec.eq_of_getLsbD_eq; intro i hi
  have hb := getLsbD_of_and_mbzMask h i
  simp only [wordR2ab, nib, fieldsOf, nibbleField, opField, BitVec.ofFin_toFin,
    BitVec.getLsbD_append, BitVec.getLsbD_extractLsb', Machine.mbzMask] at hb ⊢
  interval_cases i <;> simp at hb ⊢ <;> simp_all

theorem wordI_fieldsOf (w : Word32) (h : w &&& Machine.mbzMask .i = 0#32) :
    wordI (opField w) (fieldsOf w).d (fieldsOf w).imm = w := by
  apply BitVec.eq_of_getLsbD_eq; intro i hi
  have hb := getLsbD_of_and_mbzMask h i
  simp only [wordI, nib, fieldsOf, nibbleField, opField, BitVec.ofFin_toFin,
    BitVec.getLsbD_append, BitVec.getLsbD_extractLsb', Machine.mbzMask] at hb ⊢
  interval_cases i <;> simp at hb ⊢ <;> simp_all

theorem wordMl_fieldsOf (w : Word32) (h : w &&& Machine.mbzMask .ml = 0#32) :
    wordMl (opField w) (fieldsOf w).d (fieldsOf w).off = w := by
  apply BitVec.eq_of_getLsbD_eq; intro i hi
  have hb := getLsbD_of_and_mbzMask h i
  simp only [wordMl, nib, fieldsOf, nibbleField, opField, BitVec.ofFin_toFin,
    BitVec.getLsbD_append, BitVec.getLsbD_extractLsb', Machine.mbzMask] at hb ⊢
  interval_cases i <;> simp at hb ⊢ <;> simp_all

theorem wordMs_fieldsOf (w : Word32) (h : w &&& Machine.mbzMask .ms = 0#32) :
    wordMs (opField w) (fieldsOf w).a (fieldsOf w).off = w := by
  apply BitVec.eq_of_getLsbD_eq; intro i hi
  have hb := getLsbD_of_and_mbzMask h i
  simp only [wordMs, nib, fieldsOf, nibbleField, opField, BitVec.ofFin_toFin,
    BitVec.getLsbD_append, BitVec.getLsbD_extractLsb', Machine.mbzMask] at hb ⊢
  interval_cases i <;> simp at hb ⊢ <;> simp_all

theorem wordMx_fieldsOf (w : Word32) (h : w &&& Machine.mbzMask .mx = 0#32) :
    wordMx (opField w) (fieldsOf w).d (fieldsOf w).a (fieldsOf w).off = w := by
  apply BitVec.eq_of_getLsbD_eq; intro i hi
  have hb := getLsbD_of_and_mbzMask h i
  simp only [wordMx, nib, fieldsOf, nibbleField, opField, BitVec.ofFin_toFin,
    BitVec.getLsbD_append, BitVec.getLsbD_extractLsb', Machine.mbzMask] at hb ⊢
  interval_cases i <;> simp at hb ⊢ <;> simp_all

theorem wordN_fieldsOf (w : Word32) (h : w &&& Machine.mbzMask .n = 0#32) :
    wordN (opField w) (fieldsOf w).d (fieldsOf w).a (fieldsOf w).b (fieldsOf w).n = w := by
  apply BitVec.eq_of_getLsbD_eq; intro i hi
  have hb := getLsbD_of_and_mbzMask h i
  simp only [wordN, nib, fieldsOf, nibbleField, opField, BitVec.ofFin_toFin,
    BitVec.getLsbD_append, BitVec.getLsbD_extractLsb', Machine.mbzMask] at hb ⊢
  interval_cases i <;> simp at hb ⊢ <;> simp_all

theorem wordN2_fieldsOf (w : Word32) (h : w &&& Machine.mbzMask .n2 = 0#32) :
    wordN2 (opField w) (fieldsOf w).d (fieldsOf w).a (fieldsOf w).n = w := by
  apply BitVec.eq_of_getLsbD_eq; intro i hi
  have hb := getLsbD_of_and_mbzMask h i
  simp only [wordN2, nib, fieldsOf, nibbleField, opField, BitVec.ofFin_toFin,
    BitVec.getLsbD_append, BitVec.getLsbD_extractLsb', Machine.mbzMask] at hb ⊢
  interval_cases i <;> simp at hb ⊢ <;> simp_all

end Sys2Proof
end

