-- ==== Sys2Proof/Laws/Latency.lean ====
section
/-!
SUPPORT. What LATENCY can depend on (70_reset_and_hazards.md R410, R411).
-/

namespace Sys2Proof.Config

open Sys2Proof.Machine

set_option Elab.async false

/-- LATENCY(w) ≥ 1. -/
theorem one_le_latency (w : Word32) : 1 ≤ latency w := Nat.le_add_left _ _

/-- The latency of a command: its opcode decides it, and for `FSOP`, `SSOP`, `PBNORM` the count field; no
register index, offset or immediate enters. -/
theorem latency_encode (i : Instr) :
    latency (encode i) = latencyLessOne (opcodeOf i) (countField i) + 1 := by
  simp only [latency, wordCount]
  cases i <;>
    simp only [encode, opField_wordZ, opField_wordR3, opField_wordR2, opField_wordR1d,
      opField_wordR1a, opField_wordR2ab, opField_wordI, opField_wordMl, opField_wordMs,
      opField_wordMx, opField_wordN, opField_wordN2] <;>
    first
      | rfl
      | exact congrArg (fun n => latencyLessOne _ (some n) + 1) (fieldsOf_wordN_n ..)

/-- Commands of one opcode, and of one count where they have one, take the same time whatever their other operands. -/
theorem latency_eq_of_opcode {i j : Instr} (h : opcodeOf i = opcodeOf j)
    (hc : countField i = countField j) : latency (encode i) = latency (encode j) := by
  rw [latency_encode, latency_encode, h, hc]

end Sys2Proof.Config
end

