-- ==== Sys2Proof/Laws/PerInstr.lean ====
section
/-!
SUPPORT. Per instruction: the word of a command has the opcode of the opcode map, zero in every
must-be-zero bit of its format, and its operands in the fields the decoder takes them from
(30_encoding.md R110, R111, R116).
-/

namespace Sys2Proof.Laws.WordForm

set_option Elab.async false

/-- The word of `i` holds its opcode, nothing in its format's must-be-zero bits, and its operands.
        -/
def Statement (i : Instr) : Prop :=
  opField (encode i) = Machine.opcodeOf i ∧
    encode i &&& Machine.mbzMask (Machine.formatOf i) = 0#32 ∧
    build (Machine.opcodeOf i).toNat (fieldsOf (encode i)) = some i

theorem nop : Statement .nop :=
  ⟨opField_wordZ _, wordZ_and_mbzMask _, rfl⟩

theorem tnot : Statement .tnot :=
  ⟨opField_wordZ _, wordZ_and_mbzMask _, rfl⟩

theorem aset : Statement .aset :=
  ⟨opField_wordZ _, wordZ_and_mbzMask _, rfl⟩

theorem tacc : Statement .tacc :=
  ⟨opField_wordZ _, wordZ_and_mbzMask _, rfl⟩

theorem fseti (d : RegIdx) (imm : BitVec 16) : Statement (.fseti d imm) :=
  ⟨opField_wordI _ _ _, wordI_and_mbzMask _ _ _, by
    change some (Instr.fseti (fieldsOf (encode (.fseti d imm))).d (fieldsOf (encode (.fseti d
        imm))).imm) = _
    simp only [encode, fieldsOf_wordI_d, fieldsOf_wordI_imm]⟩

theorem fmov (d : RegIdx) (a : RegIdx) : Statement (.fmov d a) :=
  ⟨opField_wordR2 _ _ _, wordR2_and_mbzMask _ _ _, by
    change some (Instr.fmov (fieldsOf (encode (.fmov d a))).d (fieldsOf (encode (.fmov d a))).a) = _
    simp only [encode, fieldsOf_wordR2_d, fieldsOf_wordR2_a]⟩

theorem fadd (d : RegIdx) (a : RegIdx) (b : RegIdx) : Statement (.fadd d a b) :=
  ⟨opField_wordR3 _ _ _ _, wordR3_and_mbzMask _ _ _ _, by
    change some (Instr.fadd (fieldsOf (encode (.fadd d a b))).d (fieldsOf (encode (.fadd d a
        b))).a (fieldsOf (encode (.fadd d a b))).b) = _
    simp only [encode, fieldsOf_wordR3_d, fieldsOf_wordR3_a, fieldsOf_wordR3_b]⟩

theorem fsub (d : RegIdx) (a : RegIdx) (b : RegIdx) : Statement (.fsub d a b) :=
  ⟨opField_wordR3 _ _ _ _, wordR3_and_mbzMask _ _ _ _, by
    change some (Instr.fsub (fieldsOf (encode (.fsub d a b))).d (fieldsOf (encode (.fsub d a
        b))).a (fieldsOf (encode (.fsub d a b))).b) = _
    simp only [encode, fieldsOf_wordR3_d, fieldsOf_wordR3_a, fieldsOf_wordR3_b]⟩

theorem fneg (d : RegIdx) (a : RegIdx) : Statement (.fneg d a) :=
  ⟨opField_wordR2 _ _ _, wordR2_and_mbzMask _ _ _, by
    change some (Instr.fneg (fieldsOf (encode (.fneg d a))).d (fieldsOf (encode (.fneg d a))).a) = _
    simp only [encode, fieldsOf_wordR2_d, fieldsOf_wordR2_a]⟩

theorem fmul (d : RegIdx) (a : RegIdx) (b : RegIdx) : Statement (.fmul d a b) :=
  ⟨opField_wordR3 _ _ _ _, wordR3_and_mbzMask _ _ _ _, by
    change some (Instr.fmul (fieldsOf (encode (.fmul d a b))).d (fieldsOf (encode (.fmul d a
        b))).a (fieldsOf (encode (.fmul d a b))).b) = _
    simp only [encode, fieldsOf_wordR3_d, fieldsOf_wordR3_a, fieldsOf_wordR3_b]⟩

theorem fsqr (d : RegIdx) (a : RegIdx) : Statement (.fsqr d a) :=
  ⟨opField_wordR2 _ _ _, wordR2_and_mbzMask _ _ _, by
    change some (Instr.fsqr (fieldsOf (encode (.fsqr d a))).d (fieldsOf (encode (.fsqr d a))).a) = _
    simp only [encode, fieldsOf_wordR2_d, fieldsOf_wordR2_a]⟩

theorem fpow (d : RegIdx) (a : RegIdx) (off : BufOff) : Statement (.fpow d a off) :=
  ⟨opField_wordMx _ _ _ _, wordMx_and_mbzMask _ _ _ _, by
    change some (Instr.fpow (fieldsOf (encode (.fpow d a off))).d (fieldsOf (encode (.fpow d a
        off))).a (fieldsOf (encode (.fpow d a off))).off) = _
    simp only [encode, fieldsOf_wordMx_d, fieldsOf_wordMx_a, fieldsOf_wordMx_off]⟩

theorem finv (d : RegIdx) (a : RegIdx) : Statement (.finv d a) :=
  ⟨opField_wordR2 _ _ _, wordR2_and_mbzMask _ _ _, by
    change some (Instr.finv (fieldsOf (encode (.finv d a))).d (fieldsOf (encode (.finv d a))).a) = _
    simp only [encode, fieldsOf_wordR2_d, fieldsOf_wordR2_a]⟩

theorem fsqrt (d : RegIdx) (a : RegIdx) : Statement (.fsqrt d a) :=
  ⟨opField_wordR2 _ _ _, wordR2_and_mbzMask _ _ _, by
    change some (Instr.fsqrt (fieldsOf (encode (.fsqrt d a))).d (fieldsOf (encode (.fsqrt d
        a))).a) = _
    simp only [encode, fieldsOf_wordR2_d, fieldsOf_wordR2_a]⟩

theorem fisz (a : RegIdx) : Statement (.fisz a) :=
  ⟨opField_wordR1a _ _, wordR1a_and_mbzMask _ _, by
    change some (Instr.fisz (fieldsOf (encode (.fisz a))).a) = _
    simp only [encode, fieldsOf_wordR1a_a]⟩

theorem flex (a : RegIdx) : Statement (.flex a) :=
  ⟨opField_wordR1a _ _, wordR1a_and_mbzMask _ _, by
    change some (Instr.flex (fieldsOf (encode (.flex a))).a) = _
    simp only [encode, fieldsOf_wordR1a_a]⟩

theorem feq (a : RegIdx) (b : RegIdx) : Statement (.feq a b) :=
  ⟨opField_wordR2ab _ _ _, wordR2ab_and_mbzMask _ _ _, by
    change some (Instr.feq (fieldsOf (encode (.feq a b))).a (fieldsOf (encode (.feq a b))).b) = _
    simp only [encode, fieldsOf_wordR2ab_a, fieldsOf_wordR2ab_b]⟩

theorem fsel (d : RegIdx) (a : RegIdx) (b : RegIdx) : Statement (.fsel d a b) :=
  ⟨opField_wordR3 _ _ _ _, wordR3_and_mbzMask _ _ _ _, by
    change some (Instr.fsel (fieldsOf (encode (.fsel d a b))).d (fieldsOf (encode (.fsel d a
        b))).a (fieldsOf (encode (.fsel d a b))).b) = _
    simp only [encode, fieldsOf_wordR3_d, fieldsOf_wordR3_a, fieldsOf_wordR3_b]⟩

theorem fsop (d : RegIdx) (a : RegIdx) (b : RegIdx) (n : RegIdx) : Statement (.fsop d a b n) :=
  ⟨opField_wordN _ _ _ _ _, wordN_and_mbzMask _ _ _ _ _, by
    change some (Instr.fsop (fieldsOf (encode (.fsop d a b n))).d (fieldsOf (encode (.fsop d a b
        n))).a (fieldsOf (encode (.fsop d a b n))).b (fieldsOf (encode (.fsop d a b n))).n) = _
    simp only [encode, fieldsOf_wordN_d, fieldsOf_wordN_a, fieldsOf_wordN_b, fieldsOf_wordN_n]⟩

theorem fldb (d : RegIdx) (off : BufOff) : Statement (.fldb d off) :=
  ⟨opField_wordMl _ _ _, wordMl_and_mbzMask _ _ _, by
    change some (Instr.fldb (fieldsOf (encode (.fldb d off))).d (fieldsOf (encode (.fldb d
        off))).off) = _
    simp only [encode, fieldsOf_wordMl_d, fieldsOf_wordMl_off]⟩

theorem fstb (a : RegIdx) (off : BufOff) : Statement (.fstb a off) :=
  ⟨opField_wordMs _ _ _, wordMs_and_mbzMask _ _ _, by
    change some (Instr.fstb (fieldsOf (encode (.fstb a off))).a (fieldsOf (encode (.fstb a
        off))).off) = _
    simp only [encode, fieldsOf_wordMs_a, fieldsOf_wordMs_off]⟩

theorem fldm (d : RegIdx) (off : BufOff) : Statement (.fldm d off) :=
  ⟨opField_wordMl _ _ _, wordMl_and_mbzMask _ _ _, by
    change some (Instr.fldm (fieldsOf (encode (.fldm d off))).d (fieldsOf (encode (.fldm d
        off))).off) = _
    simp only [encode, fieldsOf_wordMl_d, fieldsOf_wordMl_off]⟩

theorem fstm (a : RegIdx) (off : BufOff) : Statement (.fstm a off) :=
  ⟨opField_wordMs _ _ _, wordMs_and_mbzMask _ _ _, by
    change some (Instr.fstm (fieldsOf (encode (.fstm a off))).a (fieldsOf (encode (.fstm a
        off))).off) = _
    simp only [encode, fieldsOf_wordMs_a, fieldsOf_wordMs_off]⟩

theorem sseti (d : RegIdx) (imm : BitVec 16) : Statement (.sseti d imm) :=
  ⟨opField_wordI _ _ _, wordI_and_mbzMask _ _ _, by
    change some (Instr.sseti (fieldsOf (encode (.sseti d imm))).d (fieldsOf (encode (.sseti d
        imm))).imm) = _
    simp only [encode, fieldsOf_wordI_d, fieldsOf_wordI_imm]⟩

theorem smov (d : RegIdx) (a : RegIdx) : Statement (.smov d a) :=
  ⟨opField_wordR2 _ _ _, wordR2_and_mbzMask _ _ _, by
    change some (Instr.smov (fieldsOf (encode (.smov d a))).d (fieldsOf (encode (.smov d a))).a) = _
    simp only [encode, fieldsOf_wordR2_d, fieldsOf_wordR2_a]⟩

theorem sadd (d : RegIdx) (a : RegIdx) (b : RegIdx) : Statement (.sadd d a b) :=
  ⟨opField_wordR3 _ _ _ _, wordR3_and_mbzMask _ _ _ _, by
    change some (Instr.sadd (fieldsOf (encode (.sadd d a b))).d (fieldsOf (encode (.sadd d a
        b))).a (fieldsOf (encode (.sadd d a b))).b) = _
    simp only [encode, fieldsOf_wordR3_d, fieldsOf_wordR3_a, fieldsOf_wordR3_b]⟩

theorem ssub (d : RegIdx) (a : RegIdx) (b : RegIdx) : Statement (.ssub d a b) :=
  ⟨opField_wordR3 _ _ _ _, wordR3_and_mbzMask _ _ _ _, by
    change some (Instr.ssub (fieldsOf (encode (.ssub d a b))).d (fieldsOf (encode (.ssub d a
        b))).a (fieldsOf (encode (.ssub d a b))).b) = _
    simp only [encode, fieldsOf_wordR3_d, fieldsOf_wordR3_a, fieldsOf_wordR3_b]⟩

theorem sneg (d : RegIdx) (a : RegIdx) : Statement (.sneg d a) :=
  ⟨opField_wordR2 _ _ _, wordR2_and_mbzMask _ _ _, by
    change some (Instr.sneg (fieldsOf (encode (.sneg d a))).d (fieldsOf (encode (.sneg d a))).a) = _
    simp only [encode, fieldsOf_wordR2_d, fieldsOf_wordR2_a]⟩

theorem smul (d : RegIdx) (a : RegIdx) (b : RegIdx) : Statement (.smul d a b) :=
  ⟨opField_wordR3 _ _ _ _, wordR3_and_mbzMask _ _ _ _, by
    change some (Instr.smul (fieldsOf (encode (.smul d a b))).d (fieldsOf (encode (.smul d a
        b))).a (fieldsOf (encode (.smul d a b))).b) = _
    simp only [encode, fieldsOf_wordR3_d, fieldsOf_wordR3_a, fieldsOf_wordR3_b]⟩

theorem ssqr (d : RegIdx) (a : RegIdx) : Statement (.ssqr d a) :=
  ⟨opField_wordR2 _ _ _, wordR2_and_mbzMask _ _ _, by
    change some (Instr.ssqr (fieldsOf (encode (.ssqr d a))).d (fieldsOf (encode (.ssqr d a))).a) = _
    simp only [encode, fieldsOf_wordR2_d, fieldsOf_wordR2_a]⟩

theorem spow (d : RegIdx) (a : RegIdx) (off : BufOff) : Statement (.spow d a off) :=
  ⟨opField_wordMx _ _ _ _, wordMx_and_mbzMask _ _ _ _, by
    change some (Instr.spow (fieldsOf (encode (.spow d a off))).d (fieldsOf (encode (.spow d a
        off))).a (fieldsOf (encode (.spow d a off))).off) = _
    simp only [encode, fieldsOf_wordMx_d, fieldsOf_wordMx_a, fieldsOf_wordMx_off]⟩

theorem sinv (d : RegIdx) (a : RegIdx) : Statement (.sinv d a) :=
  ⟨opField_wordR2 _ _ _, wordR2_and_mbzMask _ _ _, by
    change some (Instr.sinv (fieldsOf (encode (.sinv d a))).d (fieldsOf (encode (.sinv d a))).a) = _
    simp only [encode, fieldsOf_wordR2_d, fieldsOf_wordR2_a]⟩

theorem ssqrt (d : RegIdx) (a : RegIdx) : Statement (.ssqrt d a) :=
  ⟨opField_wordR2 _ _ _, wordR2_and_mbzMask _ _ _, by
    change some (Instr.ssqrt (fieldsOf (encode (.ssqrt d a))).d (fieldsOf (encode (.ssqrt d
        a))).a) = _
    simp only [encode, fieldsOf_wordR2_d, fieldsOf_wordR2_a]⟩

theorem sisz (a : RegIdx) : Statement (.sisz a) :=
  ⟨opField_wordR1a _ _, wordR1a_and_mbzMask _ _, by
    change some (Instr.sisz (fieldsOf (encode (.sisz a))).a) = _
    simp only [encode, fieldsOf_wordR1a_a]⟩

theorem slex (a : RegIdx) : Statement (.slex a) :=
  ⟨opField_wordR1a _ _, wordR1a_and_mbzMask _ _, by
    change some (Instr.slex (fieldsOf (encode (.slex a))).a) = _
    simp only [encode, fieldsOf_wordR1a_a]⟩

theorem seq (a : RegIdx) (b : RegIdx) : Statement (.seq a b) :=
  ⟨opField_wordR2ab _ _ _, wordR2ab_and_mbzMask _ _ _, by
    change some (Instr.seq (fieldsOf (encode (.seq a b))).a (fieldsOf (encode (.seq a b))).b) = _
    simp only [encode, fieldsOf_wordR2ab_a, fieldsOf_wordR2ab_b]⟩

theorem ssel (d : RegIdx) (a : RegIdx) (b : RegIdx) : Statement (.ssel d a b) :=
  ⟨opField_wordR3 _ _ _ _, wordR3_and_mbzMask _ _ _ _, by
    change some (Instr.ssel (fieldsOf (encode (.ssel d a b))).d (fieldsOf (encode (.ssel d a
        b))).a (fieldsOf (encode (.ssel d a b))).b) = _
    simp only [encode, fieldsOf_wordR3_d, fieldsOf_wordR3_a, fieldsOf_wordR3_b]⟩

theorem ssop (d : RegIdx) (a : RegIdx) (b : RegIdx) (n : RegIdx) : Statement (.ssop d a b n) :=
  ⟨opField_wordN _ _ _ _ _, wordN_and_mbzMask _ _ _ _ _, by
    change some (Instr.ssop (fieldsOf (encode (.ssop d a b n))).d (fieldsOf (encode (.ssop d a b
        n))).a (fieldsOf (encode (.ssop d a b n))).b (fieldsOf (encode (.ssop d a b n))).n) = _
    simp only [encode, fieldsOf_wordN_d, fieldsOf_wordN_a, fieldsOf_wordN_b, fieldsOf_wordN_n]⟩

theorem sldb (d : RegIdx) (off : BufOff) : Statement (.sldb d off) :=
  ⟨opField_wordMl _ _ _, wordMl_and_mbzMask _ _ _, by
    change some (Instr.sldb (fieldsOf (encode (.sldb d off))).d (fieldsOf (encode (.sldb d
        off))).off) = _
    simp only [encode, fieldsOf_wordMl_d, fieldsOf_wordMl_off]⟩

theorem sstb (a : RegIdx) (off : BufOff) : Statement (.sstb a off) :=
  ⟨opField_wordMs _ _ _, wordMs_and_mbzMask _ _ _, by
    change some (Instr.sstb (fieldsOf (encode (.sstb a off))).a (fieldsOf (encode (.sstb a
        off))).off) = _
    simp only [encode, fieldsOf_wordMs_a, fieldsOf_wordMs_off]⟩

theorem sldm (d : RegIdx) (off : BufOff) : Statement (.sldm d off) :=
  ⟨opField_wordMl _ _ _, wordMl_and_mbzMask _ _ _, by
    change some (Instr.sldm (fieldsOf (encode (.sldm d off))).d (fieldsOf (encode (.sldm d
        off))).off) = _
    simp only [encode, fieldsOf_wordMl_d, fieldsOf_wordMl_off]⟩

theorem sstm (a : RegIdx) (off : BufOff) : Statement (.sstm a off) :=
  ⟨opField_wordMs _ _ _, wordMs_and_mbzMask _ _ _, by
    change some (Instr.sstm (fieldsOf (encode (.sstm a off))).a (fieldsOf (encode (.sstm a
        off))).off) = _
    simp only [encode, fieldsOf_wordMs_a, fieldsOf_wordMs_off]⟩

theorem sdbl (d : RegIdx) (a : RegIdx) : Statement (.sdbl d a) :=
  ⟨opField_wordR2 _ _ _, wordR2_and_mbzMask _ _ _, by
    change some (Instr.sdbl (fieldsOf (encode (.sdbl d a))).d (fieldsOf (encode (.sdbl d a))).a) = _
    simp only [encode, fieldsOf_wordR2_d, fieldsOf_wordR2_a]⟩

theorem sldw (d : RegIdx) (off : BufOff) : Statement (.sldw d off) :=
  ⟨opField_wordMl _ _ _, wordMl_and_mbzMask _ _ _, by
    change some (Instr.sldw (fieldsOf (encode (.sldw d off))).d (fieldsOf (encode (.sldw d
        off))).off) = _
    simp only [encode, fieldsOf_wordMl_d, fieldsOf_wordMl_off]⟩

theorem sldr (d : RegIdx) (off : BufOff) : Statement (.sldr d off) :=
  ⟨opField_wordMl _ _ _, wordMl_and_mbzMask _ _ _, by
    change some (Instr.sldr (fieldsOf (encode (.sldr d off))).d (fieldsOf (encode (.sldr d
        off))).off) = _
    simp only [encode, fieldsOf_wordMl_d, fieldsOf_wordMl_off]⟩

theorem pid (d : RegIdx) : Statement (.pid d) :=
  ⟨opField_wordR1d _ _, wordR1d_and_mbzMask _ _, by
    change some (Instr.pid (fieldsOf (encode (.pid d))).d) = _
    simp only [encode, fieldsOf_wordR1d_d]⟩

theorem pgen (d : RegIdx) : Statement (.pgen d) :=
  ⟨opField_wordR1d _ _, wordR1d_and_mbzMask _ _, by
    change some (Instr.pgen (fieldsOf (encode (.pgen d))).d) = _
    simp only [encode, fieldsOf_wordR1d_d]⟩

theorem pmov (d : RegIdx) (a : RegIdx) : Statement (.pmov d a) :=
  ⟨opField_wordR2 _ _ _, wordR2_and_mbzMask _ _ _, by
    change some (Instr.pmov (fieldsOf (encode (.pmov d a))).d (fieldsOf (encode (.pmov d a))).a) = _
    simp only [encode, fieldsOf_wordR2_d, fieldsOf_wordR2_a]⟩

theorem pfroma (d : RegIdx) (a : RegIdx) : Statement (.pfroma d a) :=
  ⟨opField_wordR2 _ _ _, wordR2_and_mbzMask _ _ _, by
    change some (Instr.pfroma (fieldsOf (encode (.pfroma d a))).d (fieldsOf (encode (.pfroma d
        a))).a) = _
    simp only [encode, fieldsOf_wordR2_d, fieldsOf_wordR2_a]⟩

theorem ptoa (d : RegIdx) (a : RegIdx) : Statement (.ptoa d a) :=
  ⟨opField_wordR2 _ _ _, wordR2_and_mbzMask _ _ _, by
    change some (Instr.ptoa (fieldsOf (encode (.ptoa d a))).d (fieldsOf (encode (.ptoa d a))).a) = _
    simp only [encode, fieldsOf_wordR2_d, fieldsOf_wordR2_a]⟩

theorem pbnorm (d : RegIdx) (a : RegIdx) (n : RegIdx) : Statement (.pbnorm d a n) :=
  ⟨opField_wordN2 _ _ _ _, wordN2_and_mbzMask _ _ _ _, by
    change some (Instr.pbnorm (fieldsOf (encode (.pbnorm d a n))).d (fieldsOf (encode (.pbnorm d a
        n))).a (fieldsOf (encode (.pbnorm d a n))).n) = _
    simp only [encode, fieldsOf_wordN2_d, fieldsOf_wordN2_a, fieldsOf_wordN2_n]⟩

theorem padd (d : RegIdx) (a : RegIdx) (b : RegIdx) : Statement (.padd d a b) :=
  ⟨opField_wordR3 _ _ _ _, wordR3_and_mbzMask _ _ _ _, by
    change some (Instr.padd (fieldsOf (encode (.padd d a b))).d (fieldsOf (encode (.padd d a
        b))).a (fieldsOf (encode (.padd d a b))).b) = _
    simp only [encode, fieldsOf_wordR3_d, fieldsOf_wordR3_a, fieldsOf_wordR3_b]⟩

theorem paddm (d : RegIdx) (a : RegIdx) (b : RegIdx) : Statement (.paddm d a b) :=
  ⟨opField_wordR3 _ _ _ _, wordR3_and_mbzMask _ _ _ _, by
    change some (Instr.paddm (fieldsOf (encode (.paddm d a b))).d (fieldsOf (encode (.paddm d a
        b))).a (fieldsOf (encode (.paddm d a b))).b) = _
    simp only [encode, fieldsOf_wordR3_d, fieldsOf_wordR3_a, fieldsOf_wordR3_b]⟩

theorem pdbl (d : RegIdx) (a : RegIdx) : Statement (.pdbl d a) :=
  ⟨opField_wordR2 _ _ _, wordR2_and_mbzMask _ _ _, by
    change some (Instr.pdbl (fieldsOf (encode (.pdbl d a))).d (fieldsOf (encode (.pdbl d a))).a) = _
    simp only [encode, fieldsOf_wordR2_d, fieldsOf_wordR2_a]⟩

theorem pneg (d : RegIdx) (a : RegIdx) : Statement (.pneg d a) :=
  ⟨opField_wordR2 _ _ _, wordR2_and_mbzMask _ _ _, by
    change some (Instr.pneg (fieldsOf (encode (.pneg d a))).d (fieldsOf (encode (.pneg d a))).a) = _
    simp only [encode, fieldsOf_wordR2_d, fieldsOf_wordR2_a]⟩

theorem psub (d : RegIdx) (a : RegIdx) (b : RegIdx) : Statement (.psub d a b) :=
  ⟨opField_wordR3 _ _ _ _, wordR3_and_mbzMask _ _ _ _, by
    change some (Instr.psub (fieldsOf (encode (.psub d a b))).d (fieldsOf (encode (.psub d a
        b))).a (fieldsOf (encode (.psub d a b))).b) = _
    simp only [encode, fieldsOf_wordR3_d, fieldsOf_wordR3_a, fieldsOf_wordR3_b]⟩

theorem pmul (d : RegIdx) (a : RegIdx) (b : RegIdx) : Statement (.pmul d a b) :=
  ⟨opField_wordR3 _ _ _ _, wordR3_and_mbzMask _ _ _ _, by
    change some (Instr.pmul (fieldsOf (encode (.pmul d a b))).d (fieldsOf (encode (.pmul d a
        b))).a (fieldsOf (encode (.pmul d a b))).b) = _
    simp only [encode, fieldsOf_wordR3_d, fieldsOf_wordR3_a, fieldsOf_wordR3_b]⟩

theorem pmulx (d : RegIdx) (a : RegIdx) : Statement (.pmulx d a) :=
  ⟨opField_wordR2 _ _ _, wordR2_and_mbzMask _ _ _, by
    change some (Instr.pmulx (fieldsOf (encode (.pmulx d a))).d (fieldsOf (encode (.pmulx d
        a))).a) = _
    simp only [encode, fieldsOf_wordR2_d, fieldsOf_wordR2_a]⟩

theorem pclr (d : RegIdx) (a : RegIdx) : Statement (.pclr d a) :=
  ⟨opField_wordR2 _ _ _, wordR2_and_mbzMask _ _ _, by
    change some (Instr.pclr (fieldsOf (encode (.pclr d a))).d (fieldsOf (encode (.pclr d a))).a) = _
    simp only [encode, fieldsOf_wordR2_d, fieldsOf_wordR2_a]⟩

theorem peq (a : RegIdx) (b : RegIdx) : Statement (.peq a b) :=
  ⟨opField_wordR2ab _ _ _, wordR2ab_and_mbzMask _ _ _, by
    change some (Instr.peq (fieldsOf (encode (.peq a b))).a (fieldsOf (encode (.peq a b))).b) = _
    simp only [encode, fieldsOf_wordR2ab_a, fieldsOf_wordR2ab_b]⟩

theorem pisid (a : RegIdx) : Statement (.pisid a) :=
  ⟨opField_wordR1a _ _, wordR1a_and_mbzMask _ _, by
    change some (Instr.pisid (fieldsOf (encode (.pisid a))).a) = _
    simp only [encode, fieldsOf_wordR1a_a]⟩

theorem psel (d : RegIdx) (a : RegIdx) (b : RegIdx) : Statement (.psel d a b) :=
  ⟨opField_wordR3 _ _ _ _, wordR3_and_mbzMask _ _ _ _, by
    change some (Instr.psel (fieldsOf (encode (.psel d a b))).d (fieldsOf (encode (.psel d a
        b))).a (fieldsOf (encode (.psel d a b))).b) = _
    simp only [encode, fieldsOf_wordR3_d, fieldsOf_wordR3_a, fieldsOf_wordR3_b]⟩

theorem aid (d : RegIdx) : Statement (.aid d) :=
  ⟨opField_wordR1d _ _, wordR1d_and_mbzMask _ _, by
    change some (Instr.aid (fieldsOf (encode (.aid d))).d) = _
    simp only [encode, fieldsOf_wordR1d_d]⟩

theorem agen (d : RegIdx) : Statement (.agen d) :=
  ⟨opField_wordR1d _ _, wordR1d_and_mbzMask _ _, by
    change some (Instr.agen (fieldsOf (encode (.agen d))).d) = _
    simp only [encode, fieldsOf_wordR1d_d]⟩

theorem amov (d : RegIdx) (a : RegIdx) : Statement (.amov d a) :=
  ⟨opField_wordR2 _ _ _, wordR2_and_mbzMask _ _ _, by
    change some (Instr.amov (fieldsOf (encode (.amov d a))).d (fieldsOf (encode (.amov d a))).a) = _
    simp only [encode, fieldsOf_wordR2_d, fieldsOf_wordR2_a]⟩

theorem aneg (d : RegIdx) (a : RegIdx) : Statement (.aneg d a) :=
  ⟨opField_wordR2 _ _ _, wordR2_and_mbzMask _ _ _, by
    change some (Instr.aneg (fieldsOf (encode (.aneg d a))).d (fieldsOf (encode (.aneg d a))).a) = _
    simp only [encode, fieldsOf_wordR2_d, fieldsOf_wordR2_a]⟩

theorem aendo (d : RegIdx) (a : RegIdx) : Statement (.aendo d a) :=
  ⟨opField_wordR2 _ _ _, wordR2_and_mbzMask _ _ _, by
    change some (Instr.aendo (fieldsOf (encode (.aendo d a))).d (fieldsOf (encode (.aendo d
        a))).a) = _
    simp only [encode, fieldsOf_wordR2_d, fieldsOf_wordR2_a]⟩

theorem aonc (a : RegIdx) : Statement (.aonc a) :=
  ⟨opField_wordR1a _ _, wordR1a_and_mbzMask _ _, by
    change some (Instr.aonc (fieldsOf (encode (.aonc a))).a) = _
    simp only [encode, fieldsOf_wordR1a_a]⟩

theorem ators (a : RegIdx) : Statement (.ators a) :=
  ⟨opField_wordR1a _ _, wordR1a_and_mbzMask _ _, by
    change some (Instr.ators (fieldsOf (encode (.ators a))).a) = _
    simp only [encode, fieldsOf_wordR1a_a]⟩

theorem aeq (a : RegIdx) (b : RegIdx) : Statement (.aeq a b) :=
  ⟨opField_wordR2ab _ _ _, wordR2ab_and_mbzMask _ _ _, by
    change some (Instr.aeq (fieldsOf (encode (.aeq a b))).a (fieldsOf (encode (.aeq a b))).b) = _
    simp only [encode, fieldsOf_wordR2ab_a, fieldsOf_wordR2ab_b]⟩

theorem aisid (a : RegIdx) : Statement (.aisid a) :=
  ⟨opField_wordR1a _ _, wordR1a_and_mbzMask _ _, by
    change some (Instr.aisid (fieldsOf (encode (.aisid a))).a) = _
    simp only [encode, fieldsOf_wordR1a_a]⟩

theorem asel (d : RegIdx) (a : RegIdx) (b : RegIdx) : Statement (.asel d a b) :=
  ⟨opField_wordR3 _ _ _ _, wordR3_and_mbzMask _ _ _ _, by
    change some (Instr.asel (fieldsOf (encode (.asel d a b))).d (fieldsOf (encode (.asel d a
        b))).a (fieldsOf (encode (.asel d a b))).b) = _
    simp only [encode, fieldsOf_wordR3_d, fieldsOf_wordR3_a, fieldsOf_wordR3_b]⟩

theorem astc (a : RegIdx) (off : BufOff) : Statement (.astc a off) :=
  ⟨opField_wordMs _ _ _, wordMs_and_mbzMask _ _ _, by
    change some (Instr.astc (fieldsOf (encode (.astc a off))).a (fieldsOf (encode (.astc a
        off))).off) = _
    simp only [encode, fieldsOf_wordMs_a, fieldsOf_wordMs_off]⟩

theorem astu (a : RegIdx) (off : BufOff) : Statement (.astu a off) :=
  ⟨opField_wordMs _ _ _, wordMs_and_mbzMask _ _ _, by
    change some (Instr.astu (fieldsOf (encode (.astu a off))).a (fieldsOf (encode (.astu a
        off))).off) = _
    simp only [encode, fieldsOf_wordMs_a, fieldsOf_wordMs_off]⟩

theorem aldc (d : RegIdx) (off : BufOff) : Statement (.aldc d off) :=
  ⟨opField_wordMl _ _ _, wordMl_and_mbzMask _ _ _, by
    change some (Instr.aldc (fieldsOf (encode (.aldc d off))).d (fieldsOf (encode (.aldc d
        off))).off) = _
    simp only [encode, fieldsOf_wordMl_d, fieldsOf_wordMl_off]⟩

theorem aldcu (d : RegIdx) (off : BufOff) : Statement (.aldcu d off) :=
  ⟨opField_wordMl _ _ _, wordMl_and_mbzMask _ _ _, by
    change some (Instr.aldcu (fieldsOf (encode (.aldcu d off))).d (fieldsOf (encode (.aldcu d
        off))).off) = _
    simp only [encode, fieldsOf_wordMl_d, fieldsOf_wordMl_off]⟩

theorem aldu (d : RegIdx) (off : BufOff) : Statement (.aldu d off) :=
  ⟨opField_wordMl _ _ _, wordMl_and_mbzMask _ _ _, by
    change some (Instr.aldu (fieldsOf (encode (.aldu d off))).d (fieldsOf (encode (.aldu d
        off))).off) = _
    simp only [encode, fieldsOf_wordMl_d, fieldsOf_wordMl_off]⟩

theorem alduu (d : RegIdx) (off : BufOff) : Statement (.alduu d off) :=
  ⟨opField_wordMl _ _ _, wordMl_and_mbzMask _ _ _, by
    change some (Instr.alduu (fieldsOf (encode (.alduu d off))).d (fieldsOf (encode (.alduu d
        off))).off) = _
    simp only [encode, fieldsOf_wordMl_d, fieldsOf_wordMl_off]⟩

end Sys2Proof.Laws.WordForm
end

