-- ==== Sys2Proof/Laws/Roots.lean ====
section
/-!
SUPPORT. Spec lemmas of the Scalar inverse and of the Tonelli-Shanks rounds (41_scalar.md R202, R203), and
squares modulo m as squares in ZMod m.
-/

namespace Sys2Proof.Machine

set_option Elab.async false

theorem fact_r : Fact (Nat.Prime r) := ⟨r_prime⟩

/-- Fermat's inverse is the field inverse, and 0 for 0 (41_scalar.md R202). -/
theorem toZ_frInv (u : Fr) : toZ (frInv u) = (toZ u)⁻¹ := by
  have := fact_r
  rw [frInv, toZ_modPow _ _ _ (by decide +kernel)]
  by_cases h : toZ u = 0
  · rw [h, inv_zero, zero_pow (by decide +kernel)]
  · refine eq_inv_of_mul_eq_one_left ?_
    rw [← pow_succ, show r - 2 + 1 = r - 1 by decide +kernel]
    exact ZMod.pow_card_sub_one_eq_one h

/-- A residue is a square of an integer exactly when it is a square in ZMod. -/
theorem square_iff {m : Nat} (u : Fin m) :
    (∃ y : Nat, y * y % m = u.val) ↔ ∃ z : ZMod m, z * z = toZ u := by
  have : NeZero m := ⟨fun h => by subst h; exact u.elim0⟩
  constructor
  · rintro ⟨y, hy⟩
    refine ⟨y, ?_⟩
    rw [← Nat.cast_mul, ← ZMod.natCast_mod, hy]; rfl
  · rintro ⟨z, hz⟩
    refine ⟨z.val, ?_⟩
    have h : ((z.val * z.val : Nat) : ZMod m) = (u.val : Nat) := by
      push_cast; rw [ZMod.natCast_zmod_val, hz]; rfl
    rw [ZMod.natCast_eq_natCast_iff] at h
    have h2 : z.val * z.val % m = u.val % m := h
    rw [h2, Nat.mod_eq_of_lt u.isLt]

theorem squareTimes_toZ : ∀ (k : Nat) (u : Fr), toZ (squareTimes u k) = toZ u ^ 2 ^ k := by
  intro k
  induction k with
  | zero => intro u; simp [squareTimes]
  | succ k ih => intro u; rw [squareTimes, ih, toZ_mul, ← pow_two, ← pow_mul, pow_succ' 2 k]

/-- The rounds keep x² = u·b while the order of b falls, so that they end with a root of u. -/
theorem tonelli_spec : ∀ (k : Nat) (x b c : Fr) (u : ZMod r), toZ x * toZ x = u * toZ b →
    toZ b ^ 2 ^ k = 1 → toZ c ^ 2 ^ k = -1 →
    toZ (tonelli k x b c) * toZ (tonelli k x b c) = u := by
  have := fact_r
  intro k
  induction k with
  | zero =>
    intro x b c u h1 h2 _
    simp only [pow_zero, pow_one] at h2
    simp only [tonelli]
    rw [h1, h2, mul_one]
  | succ k ih =>
    intro x b c u h1 h2 h3
    have hc : toZ (c * c) ^ 2 ^ k = -1 := by
      rw [toZ_mul, ← pow_two, ← pow_mul, ← pow_succ']; exact h3
    simp only [tonelli]
    split
    · rename_i h
      have h4 : toZ b ^ 2 ^ k = 1 := by rw [← squareTimes_toZ, h, toZ_toFr]; simp
      exact ih _ _ _ _ h1 h4 hc
    · rename_i h
      have h4 : toZ b ^ 2 ^ k = -1 := by
        have h5 : (toZ b ^ 2 ^ k - 1) * (toZ b ^ 2 ^ k + 1) = 0 := by
          have h6 : (toZ b ^ 2 ^ k) ^ 2 = 1 := by rw [← pow_mul, ← pow_succ]; exact h2
          linear_combination h6
        rcases mul_eq_zero.mp h5 with h6 | h6
        · exfalso
          apply h
          apply toZ_injective
          rw [squareTimes_toZ, toZ_toFr]
          push_cast
          linear_combination h6
        · linear_combination h6
      refine ih _ _ _ _ ?_ ?_ hc
      · rw [toZ_mul, toZ_mul, toZ_mul]; linear_combination (toZ c * toZ c) * h1
      · rw [toZ_mul, mul_pow, h4, hc]; ring

end Sys2Proof.Machine
end

