-- ==== Sys2Proof/Laws/Step.lean ====
section
/-!
SUPPORT. What one step can do, said once: the three moves, and what the engine's move comes to.
-/

namespace Sys2Proof.Machine

set_option Elab.async false

/-- An accepted word is that of a well-formed command (30_encoding.md R121). -/
theorem decode_wellFormed {w : Word32} {i : Instr} (h : decode w = .ok i) : wellFormed i = true := by
  unfold decode at h
  split at h
  · cases h
  · split at h
    · cases h
    · split at h
      · cases h
      · split at h
        · cases h
        · rename_i hr hb
          cases h
          simpa [wellFormed] using And.intro hr hb

/-- The engine's step: nothing while idle; otherwise the command in flight, which completes. -/
theorem engineStep_cases {s t : State} (hi : InFlight s) (h : engineStep s = .next t) :
    (s.busy = false ∧ t = s) ∨
      (s.busy = true ∧ ∃ w i e, s.cur = some w ∧ decode w = .ok i ∧ wellFormed i = true ∧
        exec i s = .next e.complete ∧ Effect i s e ∧ t = e.complete) := by
  simp only [engineStep] at h
  cases hb : s.busy
  · simp only [hb, Bool.false_eq_true, if_false, Host.Outcome.next.injEq] at h
    exact .inl ⟨rfl, h.symm⟩
  · simp only [hb, if_true] at h
    unfold InFlight at hi
    cases hc : s.cur with
    | none => simp only [hc, hb, Bool.true_eq_false] at hi
    | some w =>
      simp only [hc] at hi
      obtain ⟨-, i, hd⟩ := hi
      simp only [commandInFlight, hc, hd] at h
      have hwf := decode_wellFormed hd
      obtain ⟨e, h1, h2⟩ := exec_effect i s hwf
      rw [h1] at h
      cases h
      exact .inr ⟨rfl, w, i, e, rfl, hd, hwf, h1, h2, rfl⟩

/-- The moves of a step, after the agenda has lost the move that is taken. -/
theorem step_cases {s t : State} (h : step s = .next t) :
    (s.nextEvent = .engine ∧ engineStep { s with agenda := s.agenda.tail } = .next t) ∨
      (∃ a, s.nextEvent = .host a ∧ t = hostAccess { s with agenda := s.agenda.tail } a) ∨
      (s.nextEvent = .hardReset ∧ t = State.doReset { s with agenda := s.agenda.tail }) := by
  simp only [step] at h
  cases ha : s.agenda with
  | nil =>
    simp only [ha] at h
    have hs : ({ s with agenda := [] } : State) = s := by rw [← ha]
    exact .inl ⟨by simp [State.nextEvent, ha], by rw [List.tail_nil, hs]; exact h⟩
  | cons e rest =>
    cases e with
    | engine =>
      simp only [ha] at h
      exact .inl ⟨by simp [State.nextEvent, ha], by simpa using h⟩
    | host a =>
      simp only [ha] at h
      cases h
      exact .inr (.inl ⟨a, by simp [State.nextEvent, ha], rfl⟩)
    | hardReset =>
      simp only [ha] at h
      cases h
      exact .inr (.inr ⟨by simp [State.nextEvent, ha], rfl⟩)

/-- A host access that resets. -/
theorem hostAccess_resets (s : State) (a : Access) (h : a.resets = true) :
    ∃ r, hostAccess s a = { s.doReset with response := r } := by
  obtain ⟨off, wd, kd⟩ := a
  cases kd with
  | read => simp only [Access.resets, Bool.false_eq_true] at h
  | write w =>
    simp only [Access.resets, Bool.and_eq_true, beq_iff_eq] at h
    refine ⟨some ⟨0, false⟩, ?_⟩
    rw [hostAccess, if_pos h.1.1]
    simp only [hostWrite, h.1.2, writeCtrl, h.2, if_true]

end Sys2Proof.Machine
end

