-- ==== Sys2Proof/Laws/Triples.lean ====
section
/-!
SUPPORT. What it is for a triple to represent a point (10_state.md R44), and why the complete addition formulas
(42_g1_projective.md R252) never give (0, 0, 0) on E: E has no point of order 2 (00_scope.md R12).
-/

namespace Sys2Proof.Machine

set_option Elab.async false

/-- The class of O: {(0, λ, 0) : λ ≠ 0}. -/
theorem Triple.value_eq_infinity_iff (t : Triple) :
    t.value = .pt .infinity ↔ toZ t.x = 0 ∧ toZ t.y ≠ 0 ∧ toZ t.z = 0 := by
  have h0 : ∀ u : Fp, u = toFp 0 ↔ toZ u = 0 := fun u => by
    rw [← toZ_injective.eq_iff, toZ_toFp, Nat.cast_zero]
  simp only [Triple.value, ← h0]
  split
  · rename_i hz
    split <;> rename_i h <;> simp_all
  · rename_i hz
    split <;> simp_all

/-- The class of (x, y): {(λx, λy, λ) : λ ≠ 0}. -/
theorem Triple.value_eq_affine_iff (t : Triple) (x y : Fp) :
    t.value = .pt (.affine x y) ↔
      toZ t.z ≠ 0 ∧ toZ t.x = toZ x * toZ t.z ∧ toZ t.y = toZ y * toZ t.z ∧
        (Point.affine x y).OnCurve := by
  have := fact_p
  have h0 : t.z = toFp 0 ↔ toZ t.z = 0 := by
    rw [← toZ_injective.eq_iff, toZ_toFp, Nat.cast_zero]
  have hq : ∀ u v : Fp, toZ t.z ≠ 0 → (u * fpInv t.z = v ↔ toZ u = toZ v * toZ t.z) := by
    intro u v hz
    rw [← toZ_injective.eq_iff, toZ_mul, toZ_fpInv]
    exact mul_inv_eq_iff_eq_mul₀ hz
  by_cases hz : toZ t.z = 0
  · simp only [Triple.value, if_pos (h0.mpr hz), hz, ne_eq, not_true_eq_false, false_and, iff_false]
    split <;> simp
  · have hz' : ¬t.z = toFp 0 := fun e => hz (h0.mp e)
    simp only [Triple.value, if_neg hz']
    constructor
    · intro h
      split at h
      · rename_i hc
        simp only [PVal.pt.injEq, Point.affine.injEq] at h
        obtain ⟨rfl, rfl⟩ := h
        exact ⟨hz, (hq _ _ hz).mp rfl, (hq _ _ hz).mp rfl, hc⟩
      · simp at h
    · rintro ⟨-, hx, hy, hc⟩
      rw [(hq _ _ hz).mpr hx, (hq _ _ hz).mpr hy]
      exact if_pos hc

/-- No point of E has y = 0. -/
theorem Point.OnCurve.y_ne_zero {x y : Fp} (h : (Point.affine x y).OnCurve) : toZ y ≠ 0 := by
  intro hy
  have he := (onCurve_iff x y).mp h
  rw [hy, mul_zero] at he
  exact no_two_torsion _ he.symm

/-- Z3 of the complete addition of points with different x is (x2 − x1)³ times the y coordinate of their
difference, and so not 0. -/
theorem add_z_ne_zero {x1 y1 x2 y2 : Fp} (h1 : (Point.affine x1 y1).OnCurve)
    (h2 : (Point.affine x2 y2).OnCurve) (hx : toZ x1 ≠ toZ x2) :
    (toZ y1 + toZ y2) * (toZ y1 * toZ y2 + 12) +
      3 * (toZ x1 * toZ x2) * (toZ x1 * toZ y2 + toZ x2 * toZ y1) ≠ 0 := by
  have := fact_p
  have hd : toZ x2 - toZ x1 ≠ 0 := fun e => hx (sub_eq_zero.mp e).symm
  have hs := Point.sub_onCurve h1 h2
  rw [Point.sub, Point.neg, Point.add, if_neg (fun e => hx (congrArg toZ e)), chordPoint] at hs
  have hy := hs.y_ne_zero
  generalize hl' : (modNeg y2 - y1) * fpInv (x2 - x1) = l' at hy
  have hl := congrArg toZ hl'
  rw [toZ_sub, toZ_mul, toZ_sub, toZ_sub, toZ_sub, toZ_mul] at hy
  generalize toZ l' = l at hl hy
  rw [toZ_mul, toZ_fpInv, toZ_sub, toZ_sub, toZ_modNeg, mul_inv_eq_iff_eq_mul₀ hd] at hl
  have e1 := (onCurve_iff x1 y1).mp h1
  have e2 := (onCurve_iff x2 y2).mp h2
  intro hz
  refine hy ((mul_eq_zero.mp (?_ : _ * (toZ x2 - toZ x1) ^ 3 = 0)).resolve_right (pow_ne_zero 3 hd))
  generalize toZ x1 = a at *
  generalize toZ x2 = b at *
  generalize toZ y1 = c at *
  generalize toZ y2 = d at *
  have hm : (l * (a - (l * l - a - b)) - c) * (b - a) ^ 3 =
      l * (b - a) * (a * (b - a) ^ 2 - ((l * (b - a)) ^ 2 - (a + b) * (b - a) ^ 2)) -
        c * (b - a) ^ 3 := by ring
  rw [hm, ← hl]
  linear_combination hz + (c + 2 * d) * e1 + (d + 2 * c) * e2

/-- Y3 of the complete addition of opposite points is 8y³ times the y coordinate of 2Q, and so not 0. -/
theorem add_y_ne_zero {x y : Fp} (h : (Point.affine x y).OnCurve) :
    (toZ y * toZ y) ^ 2 - 144 + 72 * (toZ x * toZ x * toZ x) ≠ 0 := by
  have := fact_p
  have hy0 := h.y_ne_zero
  have two : (2 : ZMod p) ≠ 0 := by
    intro e
    have e' : toZ (toFp 2) = toZ (toFp 0) := by
      rw [toZ_toFp, toZ_toFp, Nat.cast_zero, Nat.cast_ofNat, e]
    exact absurd (toZ_injective e') (by decide +kernel)
  have hs := Point.add_onCurve h h
  have hyy : ¬y + y = toFp 0 := by
    rw [← toZ_injective.eq_iff, toZ_add, toZ_toFp, Nat.cast_zero, ← two_mul]
    exact mul_ne_zero two hy0
  rw [Point.add, if_pos rfl, if_neg hyy, chordPoint] at hs
  have hy := hs.y_ne_zero
  generalize hl' : toFp 3 * (x * x) * fpInv (toFp 2 * y) = l' at hy
  have hl := congrArg toZ hl'
  rw [toZ_sub, toZ_mul, toZ_sub, toZ_sub, toZ_sub, toZ_mul] at hy
  generalize toZ l' = l at hl hy
  rw [toZ_mul, toZ_fpInv, toZ_mul, toZ_mul, toZ_mul, toZ_toFp, toZ_toFp, Nat.cast_ofNat,
    Nat.cast_ofNat, mul_inv_eq_iff_eq_mul₀ (mul_ne_zero two hy0)] at hl
  have e := (onCurve_iff x y).mp h
  intro hz
  refine hy ((mul_eq_zero.mp (?_ : _ * (2 * toZ y) ^ 3 = 0)).resolve_right
    (pow_ne_zero 3 (mul_ne_zero two hy0)))
  generalize toZ x = a at *
  generalize toZ y = c at *
  have hm : (l * (a - (l * l - a - a)) - c) * (2 * c) ^ 3 =
      l * (2 * c) * (a * (2 * c) ^ 2 - ((l * (2 * c)) ^ 2 - 2 * a * (2 * c) ^ 2)) -
        c * (2 * c) ^ 3 := by ring
  rw [hm, ← hl]
  linear_combination hz + (-9 * c ^ 2 + 27 * a ^ 3 - 36) * e

end Sys2Proof.Machine
end

