-- ==== Sys2Proof/Machine/Asm.lean ====
section
/-!
DEFINITION. The assembler syntax of commands (30_encoding.md R122).
-/

namespace Sys2Proof.Machine

/-- A register name: the prefix names the file (30_encoding.md R122). -/
def regName (file : String) (i : Nat) : String := file ++ toString i

/-- The prefixes of a command's D, A and B operands: the files its opcode selects
(30_encoding.md R112, R116, R122). -/
def operandFiles : Instr → String × String × String
  | .pfroma _ _ => ("p", "a", "")
  | .ptoa _ _ | .pbnorm _ _ _ => ("a", "p", "")
  | .paddm _ _ _ => ("p", "p", "a")
  | .pmul _ _ _ => ("p", "p", "s")
  | i =>
    match familyOf i with
    | .control => ("", "", "")
    | .fp => ("f", "f", "f")
    | .scalar => ("s", "s", "s")
    | .projective => ("p", "p", "p")
    | .affine => ("a", "a", "a")

/-- The operands of a command in the order D, A, B, then the count, offset or immediate
(30_encoding.md R122). -/
def operandNames (i : Instr) : List String :=
  let (fd, fa, fb) := operandFiles i
  match i with
  | .nop | .tnot | .aset | .tacc =>
    []
  | .fseti d imm | .sseti d imm =>
    [regName fd d, toString imm.toNat]
  | .fmov d a | .fneg d a | .fsqr d a | .finv d a | .fsqrt d a | .smov d a | .sneg d a
  | .ssqr d a | .sinv d a | .ssqrt d a | .sdbl d a | .pmov d a | .pfroma d a | .ptoa d a
  | .pdbl d a | .pneg d a | .pmulx d a | .pclr d a | .amov d a | .aneg d a | .aendo d a =>
    [regName fd d, regName fa a]
  | .fadd d a b | .fsub d a b | .fmul d a b | .fsel d a b | .sadd d a b | .ssub d a b
  | .smul d a b | .ssel d a b | .padd d a b | .paddm d a b | .psub d a b | .pmul d a b
  | .psel d a b | .asel d a b =>
    [regName fd d, regName fa a, regName fb b]
  | .fpow d a off | .spow d a off =>
    [regName fd d, regName fa a, toString off.toNat]
  | .fisz a | .flex a | .sisz a | .slex a | .pisid a | .aonc a | .ators a | .aisid a =>
    [regName fa a]
  | .feq a b | .seq a b | .peq a b | .aeq a b =>
    [regName fa a, regName fb b]
  | .fsop d a b n | .ssop d a b n =>
    [regName fd d, regName fa a, regName fb b, toString (countOf n)]
  | .fldb d off | .fldm d off | .sldb d off | .sldm d off | .sldw d off | .sldr d off
  | .aldc d off | .aldcu d off | .aldu d off | .alduu d off =>
    [regName fd d, toString off.toNat]
  | .fstb a off | .fstm a off | .sstb a off | .sstm a off | .astc a off | .astu a off =>
    [regName fa a, toString off.toNat]
  | .pid d | .pgen d | .aid d | .agen d =>
    [regName fd d]
  | .pbnorm d a n =>
    [regName fd d, regName fa a, toString (countOf n)]

/-- A command as an assembler line (30_encoding.md R122). -/
def assembly (i : Instr) : String :=
  match operandNames i with
  | [] => mnemonicOf i
  | ops => mnemonicOf i ++ " " ++ String.intercalate ", " ops

end Sys2Proof.Machine
end

