-- ==== Sys2Proof/Tests/Slice0.lean ====
section
/-!
SUPPORT. Tests: the operand checks on ill-formed commands,
  the decoding of words the spec writes out, one
effect per command from the spec's Example lines and 95_test_vectors.md, the host protocol,
  and for every
obligation with hypotheses a witness that they can be met. Every expected value is the spec's.
-/

namespace Sys2Proof.Tests

open Sys2Proof Sys2Proof.Machine

set_option Elab.async false

/-- The F register that holds the value n. -/
def fv (n : Nat) : Fp := montF (toFp n)

/-- The S register that holds the value n. -/
def sv (n : Nat) : Fr := montS (toFr n)

/-- A check of the state a command completes in. -/
def after (i : Instr) (s : State) (check : State → Bool) : Bool :=
  match exec i s with
  | .next t => check t
  | .fault _ => false
  | .refused _ => false

/-- A check of the state a step leads to. -/
def afterStep (s : State) (check : State → Bool) : Bool :=
  match step s with
  | .next t => check t
  | .fault _ => false
  | .refused _ => false

/-- The points 2G and 3G (95_test_vectors.md section 0). -/
def g2 : Point := .affine
  (toFp 0x572cbea904d67468808c8eb50a9450c9721db309128012543902d0ac358a62ae28f75bb8f1c7c42c39a8c5529bf0f4e)
  (toFp 0x166a9d8cabc673a322fda673779d8e3822ba3ecb8670e461f73bb9021d5fd76a4c56d9d4cd16bd1bba86881979749d28)
def g3 : Point := .affine
  (toFp 0x9ece308f9d1f0131765212deca99697b112d61f9be9a5f1f3780a51335b3ff981747a0b2ca2179b96d2c0c9024e5224)
  (toFp 0x32b80d3a6f5b09f8a84623389c5f80ca69a0cddabc3097f9d9c27310fd43be6e745256c634af45ca3473b0590ae30d1)

/-- p − Gy, the y coordinate of ⊖G (95_test_vectors.md section 0). -/
def negGy : Fp := toFp
  0x114d1d6855d545a8aa7d76c8cf2e21f267816aef1db507c96655b9d5caac42364e6f38ba0ecb751bad54dcd6b939c2ca

/-- The compressed generator (95_test_vectors.md E4). -/
def compressedG : Nat :=
  0x97f1d3a73197d7942695638c4fa9ac0fc3688c4f9774b905a14e3a3f171bac586c55e83ff97a1aeffb3af00adb22c6bb

/-- Reset with two values in F0 and F1, and with two in S0 and S1. -/
def withF (a b : Nat) : State := (State.reset.setF 0 (fv a)).setF 1 (fv b)
def withS (a b : Nat) : State := (State.reset.setS 0 (sv a)).setS 1 (sv b)

/-- Reset with two points in P0 and P1. -/
def withP (q1 q2 : Point) : State := (State.reset.setP 0 (.pt q1)).setP 1 (.pt q2)

/-- Reset with an affine value in A0. -/
def withA (x y : Fp) : State := State.reset.setA 0 ⟨x, y, false⟩

/-- Reset with a byte string at an IOBUF address. -/
def withBytes (a : Nat) (bs : List Byte) : State := State.reset.storeAt a bs

/-- A state with a command in flight. -/
def inFlight (w : Word32) : State := { State.reset with cur := some w, busy := true }

/-- A state with a latched error. -/
def latched : State := { State.reset with err := true, errCode := 0x02, errInfo := 0x00000001 }

/-- What `s` reads at a host offset, as the bus answers it. -/
def readsAs (s : State) (off : HostOff) (w : Word32) : Bool :=
  (hostAccess s (wordRead off)).response == some ⟨w, false⟩

/-! ### Well-formedness: an ill-formed command for each check (30_encoding.md R121,
  60_exceptions.md R382) -/

theorem test_wf_range_first : wellFormed (.fsop 0 15 0 1) = false := by decide
theorem test_wf_range_second : wellFormed (.ssop 0 0 15 1) = false := by decide
theorem test_wf_range_dest : wellFormed (.pbnorm 15 0 1) = false := by decide
theorem test_wf_range_ok : wellFormed (.fsop 3 15 15 0) = true ∧
  wellFormed (.pbnorm 0 0 15) = true := by
  decide
theorem test_wf_off_32 : wellFormed (.sldb 0 4065) = false ∧
  wellFormed (.sldb 0 4064) = true := by decide
theorem test_wf_off_48 : wellFormed (.fldb 0 4049) = false ∧
  wellFormed (.fldb 0 4048) = true := by decide
theorem test_wf_off_64 : wellFormed (.sldw 0 4033) = false ∧
  wellFormed (.sldw 0 4032) = true := by decide
theorem test_wf_off_96 : wellFormed (.astu 0 4001) = false ∧
  wellFormed (.astu 0 4000) = true := by decide

/-! ### Decoding: the word of every Example line (40_fp.md to 44_control.md),
  against the encoder too -/

theorem test_decode_control :
    (([
      (0x00000000, .nop),
      (0x01000000, .tnot),
      (0x02000000, .aset),
      (0x03000000, .tacc)] : List (Word32 × Instr))).all
      (fun x => decode x.1 == .ok x.2 && encode x.2 == x.1) = true := by decide

theorem test_decode_fp_1 :
    (([
      (0x10100007, .fseti 1 7),
      (0x11210000, .fmov 2 1),
      (0x12201000, .fadd 2 0 1),
      (0x13201000, .fsub 2 0 1),
      (0x14100000, .fneg 1 0),
      (0x15312000, .fmul 3 1 2),
      (0x16100000, .fsqr 1 0),
      (0x17100100, .fpow 1 0 0x100),
      (0x18100000, .finv 1 0),
      (0x19100000, .fsqrt 1 0),
      (0x1A000000, .fisz 0)] : List (Word32 × Instr))).all
      (fun x => decode x.1 == .ok x.2 && encode x.2 == x.1) = true := by decide

theorem test_decode_fp_2 :
    (([
      (0x1B000000, .flex 0),
      (0x1C001000, .feq 0 1),
      (0x1D201000, .fsel 2 0 1),
      (0x1E015100, .fsop 0 1 5 1),
      (0x1F100040, .fldb 1 0x40),
      (0x20010040, .fstb 1 0x40),
      (0x21100080, .fldm 1 0x80),
      (0x22010080, .fstm 1 0x80)] : List (Word32 × Instr))).all
      (fun x => decode x.1 == .ok x.2 && encode x.2 == x.1) = true := by decide

theorem test_decode_scalar_1 :
    (([
      (0x40100007, .sseti 1 7),
      (0x41210000, .smov 2 1),
      (0x42201000, .sadd 2 0 1),
      (0x43201000, .ssub 2 0 1),
      (0x44100000, .sneg 1 0),
      (0x45312000, .smul 3 1 2),
      (0x46100000, .ssqr 1 0),
      (0x47100100, .spow 1 0 0x100),
      (0x48100000, .sinv 1 0),
      (0x49100000, .ssqrt 1 0),
      (0x4A000000, .sisz 0)] : List (Word32 × Instr))).all
      (fun x => decode x.1 == .ok x.2 && encode x.2 == x.1) = true := by decide

theorem test_decode_scalar_2 :
    (([
      (0x4B000000, .slex 0),
      (0x4C001000, .seq 0 1),
      (0x4D201000, .ssel 2 0 1),
      (0x4E015100, .ssop 0 1 5 1),
      (0x4F100040, .sldb 1 0x40),
      (0x50020000, .sstb 2 0),
      (0x51100080, .sldm 1 0x80),
      (0x52010080, .sstm 1 0x80),
      (0x53100000, .sdbl 1 0),
      (0x54100200, .sldw 1 0x200),
      (0x55100040, .sldr 1 0x40)] : List (Word32 × Instr))).all
      (fun x => decode x.1 == .ok x.2 && encode x.2 == x.1) = true := by decide

theorem test_decode_projective_1 :
    (([
      (0x80100000, .pid 1),
      (0x81000000, .pgen 0),
      (0x82200000, .pmov 2 0),
      (0x83100000, .pfroma 1 0),
      (0x84100000, .ptoa 1 0),
      (0x85400200, .pbnorm 4 0 2),
      (0x86201000, .padd 2 0 1),
      (0x87201000, .paddm 2 0 1),
      (0x88100000, .pdbl 1 0),
      (0x89100000, .pneg 1 0),
      (0x8A201000, .psub 2 0 1)] : List (Word32 × Instr))).all
      (fun x => decode x.1 == .ok x.2 && encode x.2 == x.1) = true := by decide

theorem test_decode_projective_2 :
    (([
      (0x8B100000, .pmul 1 0 0),
      (0x8C100000, .pmulx 1 0),
      (0x8D100000, .pclr 1 0),
      (0x8E001000, .peq 0 1),
      (0x8F000000, .pisid 0),
      (0x90201000, .psel 2 0 1)] : List (Word32 × Instr))).all
      (fun x => decode x.1 == .ok x.2 && encode x.2 == x.1) = true := by decide

theorem test_decode_affine_1 :
    (([
      (0xA0000000, .aid 0),
      (0xA1000000, .agen 0),
      (0xA2100000, .amov 1 0),
      (0xA3100000, .aneg 1 0),
      (0xA4100000, .aendo 1 0),
      (0xA5000000, .aonc 0),
      (0xA6000000, .ators 0),
      (0xA7001000, .aeq 0 1),
      (0xA8000000, .aisid 0),
      (0xA9201000, .asel 2 0 1),
      (0xAA000000, .astc 0 0)] : List (Word32 × Instr))).all
      (fun x => decode x.1 == .ok x.2 && encode x.2 == x.1) = true := by decide

theorem test_decode_affine_2 :
    (([
      (0xAB000030, .astu 0 0x30),
      (0xAC100000, .aldc 1 0),
      (0xAD100000, .aldcu 1 0),
      (0xAE100030, .aldu 1 0x30),
      (0xAF100030, .alduu 1 0x30)] : List (Word32 × Instr))).all
      (fun x => decode x.1 == .ok x.2 && encode x.2 == x.1) = true := by decide

/-- The error order of 30_encoding.md R121 and the words of 95_test_vectors.md V-ERR1 to V-ERR14. -/
theorem test_decode_errors :
    ([(0x04000000, .illegalOp), (0xFF000000, .illegalOp), (0x04FFFFFF, .illegalOp),
      (0x12201001, .reserved), (0x00000001, .reserved), (0x10010007, .reserved),
      (0x1E0F0100, .rangeReg), (0x85F00100, .rangeReg), (0x1E0F0101, .reserved),
      (0x1F100FD1, .rangeBuf), (0xAB000FA1, .rangeBuf), (0x54000FC1, .rangeBuf),
      (0x50000FE1, .rangeBuf)] : List (Word32 × CmdError)).all
      (fun x => decode x.1 == .error x.2) = true := by decide

/-- The pseudo-instructions and the assembler form of 30_encoding.md R120 and R122. -/
theorem test_pseudo :
    encode (expandPseudo (.fone 2)) = 0x10200001 ∧ encode (expandPseudo (.szero 3)) = 0x40300000 ∧
    expandPseudo (.fdbl 1 0) = .fadd 1 0 0 := by decide

theorem test_assembly :
    assembly (.fmul 3 1 2) = "FMUL f3, f1, f2" ∧ assembly (.pbnorm 4 0 2) = "PBNORM a4, p0, 3" ∧
    assembly (.pmul 1 0 0) = "PMUL p1, p0, s0" ∧ assembly .nop = "NOP" := by decide

/-! ### Effects: one Example or vector per command -/

theorem test_nop :
    (after .nop State.reset fun t => t.cmdcnt == 1 && t.done) = true := by decide +kernel

theorem test_tnot :
    (after .tnot { State.reset with t := true } fun t => !t.t && t.acc) = true := by decide +kernel

theorem test_aset :
    (after .aset { State.reset with acc := false }
      fun t => t.acc && !t.t) = true := by decide +kernel

theorem test_tacc :
    (after .tacc { State.reset with t := true, acc := false }
      fun t => !t.t && !t.acc) = true := by decide +kernel

theorem test_fseti :
    (after (.fseti 1 7) State.reset fun t =>
      (t.getF 1).val ==
        0x17b73dc8ba06bf040ca773961fe616c9504ff0af50a7052897080d3e78fe9e67da500058e5b00012984400000016aa94) = true := by
  decide +kernel

theorem test_fmov :
    (after (.fmov 2 1) (withF 0 9)
      fun t => t.getF 2 == fv 9 && t.getF 1 == fv 9) = true := by decide +kernel

theorem test_fadd_wraps :
    (after (.fadd 2 0 1) (withF (p - 1) 2) fun t => t.getF 2 == fv 1) = true := by decide +kernel

theorem test_fsub_borrows :
    (after (.fsub 2 0 1) (withF 1 2) fun t => t.getF 2 == fv (p - 1)) = true := by decide +kernel

theorem test_fneg :
    (after (.fneg 1 0) (withF 5 0) fun t => t.getF 1 == fv (p - 5)) = true := by decide +kernel

theorem test_fneg_zero :
    (after (.fneg 1 0) (withF 0 7) fun t => (t.getF 1).val == 0) = true := by decide +kernel

theorem test_fmul :
    (after (.fmul 3 0 1) (withF 0x1234567890abcdef 0xfedcba0987654321) fun t =>
      t.getF 3 == fv 0x121fa000a3723a57c24a442fe55618cf) = true := by decide +kernel

theorem test_fsqr :
    (after (.fsqr 1 0) (withF (p - 1) 0) fun t => t.getF 1 == fv 1) = true := by decide +kernel

theorem test_fpow :
    (after (.fpow 1 0 0x100) ((withF 2 0).storeAt 0x100 [5])
      fun t => t.getF 1 == fv 32) = true := by decide +kernel

theorem test_fpow_largest_offset :
    (after (.fpow 1 0 0xFD0) ((withF 2 0).storeAt 0xFD0 (List.replicate 48 0xff)) fun t =>
      t.getF 1 == fv
        0xc5aa17dd88193afca264a65de7302c9525b87f182de4c6681f7044d195ca9b10853e0911d9afe8bd02a45f45db1454) = true := by
  decide +kernel

theorem test_finv :
    (after (.finv 0 0) (withF 2 0)
      fun t => t.getF 0 == fv ((p + 1) / 2) && t.t && t.acc) = true := by decide +kernel

theorem test_finv_zero :
    (after (.finv 1 0) (withF 0 9)
      fun t => (t.getF 1).val == 0 && !t.t && !t.acc) = true := by decide +kernel

theorem test_fsqrt :
    (after (.fsqrt 1 0) (withF 4 0)
      fun t => t.getF 1 == fv (p - 2) && t.t) = true := by decide +kernel

theorem test_fsqrt_nonresidue :
    (after (.fsqrt 1 0) (withF 2 7)
      fun t => (t.getF 1).val == 0 && !t.t && !t.acc) = true := by decide +kernel

theorem test_fisz :
    (after (.fisz 0) (withF (p - 1) 0) fun t => !t.t && !t.acc) = true := by decide +kernel

theorem test_flex :
    (after (.flex 0) (withF halfP 0) (fun t => !t.t) &&
      after (.flex 0) (withF (halfP + 1) 0) fun t => t.t) = true := by decide +kernel

theorem test_feq :
    (after (.feq 0 1) (withF 9 9) (fun t => t.t && t.acc) &&
      after (.feq 0 1) (withF 1 (p - 1)) fun t => !t.t) = true := by decide +kernel

theorem test_fsel :
    (after (.fsel 2 0 1) (withF 4 5) (fun t => t.getF 2 == fv 5) &&
      after (.fsel 2 0 1) { withF 4 5 with t := true }
        fun t => t.getF 2 == fv 4) = true := by decide +kernel

theorem test_fsop :
    (after (.fsop 0 0 0 15) ((List.finRange 16).foldl (fun s k => s.setF k (fv (p - 1))) State.reset)
      fun t => t.getF 0 == fv 16) = true := by decide +kernel

theorem test_fldb :
    (after (.fldb 1 0x40) (withBytes 0x40 (List.replicate 47 0 ++ [7]))
      fun t => t.getF 1 == fv 7 && t.t) = true := by decide +kernel

theorem test_fldb_p :
    (after (.fldb 2 0x40) ((withBytes 0x40 (beBytes 48 p)).setF 2 (fv 3)) fun t =>
      (t.getF 2).val == 0 && !t.t && !t.acc) = true := by decide +kernel

theorem test_fstb :
    (after (.fstb 1 0x40) (withF 0 1) fun t =>
      readBytes t.iobuf 0x40 48 == List.replicate 47 0 ++ [1]) = true := by decide +kernel

theorem test_fldm :
    (after (.fldm 1 0x80) (withBytes 0x80 (beBytes 48
        0xfdff02000000097602000cc40b00f4ebba58c7535798485f455752705358ce776dec56a2971a075c93e480fac35ef615))
      fun t => t.getF 1 == fv 1 && t.t) = true := by decide +kernel

theorem test_fstm :
    (after (.fstm 1 0x80) (withF 0 1) fun t =>
      readBytes t.iobuf 0x80 48 == beBytes 48
        0xfdff02000000097602000cc40b00f4ebba58c7535798485f455752705358ce776dec56a2971a075c93e480fac35ef615) = true := by
  decide +kernel

theorem test_sseti :
    (after (.sseti 0 1) State.reset fun t =>
      (t.getS 0).val == 0x1824b159acc5056f998c4fefecbc4ff55884b7fa0003480200000001fffffffe) = true := by
  decide +kernel

theorem test_smov :
    (after (.smov 2 1) (withS 0 7) fun t => t.getS 2 == sv 7) = true := by decide +kernel

theorem test_sadd :
    (after (.sadd 2 0 1) (withS 1 1) fun t =>
      (t.getS 2).val == 0x304962b3598a0adf33189fdfd9789feab1096ff40006900400000003fffffffc) = true := by
  decide +kernel

theorem test_sadd_wraps :
    (after (.sadd 2 0 1) (withS (r - 1) 1) fun t => (t.getS 2).val == 0) = true := by decide +kernel

theorem test_ssub_borrows :
    (after (.ssub 2 0 1) (withS 1 2) fun t => t.getS 2 == sv (r - 1)) = true := by decide +kernel

theorem test_sneg :
    (after (.sneg 1 0) (withS 1 0) fun t => t.getS 1 == sv (r - 1)) = true := by decide +kernel

theorem test_smul :
    (after (.smul 3 0 1) (withS 3 5) fun t =>
      (t.getS 3).val == 0xe5d6e47a2b2d9b1658b26f6c2232750348ddb9d0036242100000020ffffffdf) = true := by
  decide +kernel

theorem test_ssqr :
    (after (.ssqr 1 0) (withS (r - 1) 0) fun t => t.getS 1 == sv 1) = true := by decide +kernel

theorem test_spow_zero_zero :
    (after (.spow 1 0 0x100) (withS 0 7) fun t => t.getS 1 == sv 1) = true := by decide +kernel

theorem test_spow_not_reduced :
    (after (.spow 1 0 0xFE0) ((withS 2 0).storeAt 0xFE0 (List.replicate 32 0xff)) fun t =>
      t.getS 1 == sv 0x2609fff1f89d4a21cc184b27ef35ea7f2c508b462ce104180c98341457353fd3) = true := by
  decide +kernel

theorem test_sinv :
    (after (.sinv 1 0) (withS 2 0)
      fun t => t.getS 1 == sv ((r + 1) / 2) && t.t) = true := by decide +kernel

theorem test_sinv_zero :
    (after (.sinv 1 0) (withS 0 4)
      fun t => (t.getS 1).val == 0 && !t.t && !t.acc) = true := by decide +kernel

theorem test_ssqrt :
    (after (.ssqrt 1 0) (withS (r - 1) 0) fun t =>
      t.getS 1 == sv 0x8d51ccce760304d0ec030002760300000001000000000000 && t.t) = true := by
  decide +kernel

theorem test_ssqrt_nonresidue :
    (after (.ssqrt 1 0) (withS 5 9)
      fun t => (t.getS 1).val == 0 && !t.t && !t.acc) = true := by decide +kernel

theorem test_sisz :
    (after (.sisz 0) (withS 1 0) fun t => !t.t && !t.acc) = true := by decide +kernel

theorem test_slex :
    (after (.slex 0) (withS halfR 0) (fun t => !t.t) &&
      after (.slex 0) (withS (halfR + 1) 0) fun t => t.t) = true := by decide +kernel

theorem test_seq :
    (after (.seq 0 1) (withS 2 3) fun t => !t.t && !t.acc) = true := by decide +kernel

theorem test_ssel :
    (after (.ssel 2 0 1) (withS 4 5) fun t => t.getS 2 == sv 5) = true := by decide +kernel

theorem test_ssop :
    (after (.ssop 0 1 5 1) ((((State.reset.setS 1 (sv 1)).setS 2 (sv 2)).setS 5 (sv 3)).setS 6 (sv 4))
      fun t => t.getS 0 == sv 11) = true := by decide +kernel

theorem test_sldb :
    (after (.sldb 1 0x40) (withBytes 0x40 [2])
      fun t => t.getS 1 == sv 2 && t.t) = true := by decide +kernel

theorem test_sstb :
    (after (.sstb 0 0) (withS 2 0)
      fun t => readBytes t.iobuf 0 32 == 2 :: List.replicate 31 0) = true := by decide +kernel

theorem test_sldm :
    (after (.sldm 1 0x80) (withBytes 0x80 (beBytes 32
        0xfeffffff0100000002480300fab78458f54fbcecef4f8c996f05c5ac59b12418))
      fun t => t.getS 1 == sv 1 && t.t) = true := by decide +kernel

theorem test_sstm :
    (after (.sstm 0 0x80) (withS 1 0) fun t =>
      readBytes t.iobuf 0x80 32 == beBytes 32
        0xfeffffff0100000002480300fab78458f54fbcecef4f8c996f05c5ac59b12418) = true := by
  decide +kernel

theorem test_sdbl :
    (after (.sdbl 1 0) (withS 1 0) fun t => t.getS 1 == sv 2) = true := by decide +kernel

theorem test_sldw :
    (after (.sldw 1 0x200) (withBytes 0x200 ((3 :: List.replicate 31 0) ++ [1])) fun t =>
      t.getS 1 == sv 0x1824b159acc5056f998c4fefecbc4ff55884b7fa000348020000000200000001) = true := by
  decide +kernel

theorem test_sldr :
    (after (.sldr 1 0x40) (withBytes 0x40 (leBytes 32 (r + 5)))
      fun t => t.getS 1 == sv 5) = true := by decide +kernel

theorem test_pid :
    (after (.pid 1) (withP generator generator)
      fun t => t.getP 1 == .pt .infinity) = true := by decide +kernel

theorem test_pgen :
    (after (.pgen 0) State.reset fun t => t.getP 0 == .pt generator) = true := by decide +kernel

theorem test_pmov_junk :
    (after (.pmov 2 0) (State.reset.setP 0 .junk)
      fun t => t.getP 2 == .junk) = true := by decide +kernel

theorem test_pfroma :
    (after (.pfroma 1 0) (withA genX genY)
      fun t => t.getP 1 == .pt generator) = true := by decide +kernel

theorem test_pfroma_off_curve :
    (after (.pfroma 1 0) (withA (toFp 0) (toFp 0))
      fun t => t.getP 1 == .junk) = true := by decide +kernel

theorem test_ptoa :
    (after (.ptoa 1 0) (withP g2 .infinity)
      fun t => t.getA 1 == g2.toAffine) = true := by decide +kernel

theorem test_pbnorm :
    (after (.pbnorm 4 0 2) ((withP generator .infinity).setP 2 (.pt g2)) fun t =>
      t.getA 4 == affineGenerator && t.getA 5 == Affine.id && t.getA 6 == g2.toAffine) = true := by
  decide +kernel

theorem test_padd :
    (after (.padd 2 0 1) (withP generator g2)
      fun t => t.getP 2 == .pt g3) = true := by decide +kernel

theorem test_padd_inverse :
    (after (.padd 2 0 1) (withP generator (.affine genX negGy))
      fun t => t.getP 2 == .pt .infinity) = true := by decide +kernel

theorem test_paddm :
    (after (.paddm 2 0 1) ((withP g2 .infinity).setA 1 affineGenerator)
      fun t => t.getP 2 == .pt g3) = true := by decide +kernel

theorem test_paddm_identity :
    (after (.paddm 2 0 1) (State.reset.setP 0 .junk)
      fun t => t.getP 2 == .junk) = true := by decide +kernel

theorem test_pdbl :
    (after (.pdbl 1 0) (withP generator .infinity)
      fun t => t.getP 1 == .pt g2) = true := by decide +kernel

theorem test_pneg :
    (after (.pneg 1 0) (withP generator .infinity)
      fun t => t.getP 1 == .pt (.affine genX negGy)) = true := by decide +kernel

theorem test_psub :
    (after (.psub 2 0 1) (withP g3 generator)
      fun t => t.getP 2 == .pt g2) = true := by decide +kernel

theorem test_pmul :
    (after (.pmul 1 0 0) ((withP generator .infinity).setS 0 (sv 2))
      fun t => t.getP 1 == .pt g2) = true := by decide +kernel

theorem test_peq :
    (after (.peq 0 1) (withP (generator.dbl) (generator.add generator))
      fun t => t.t && t.acc) = true := by decide +kernel

theorem test_pisid :
    (after (.pisid 0) (withP generator .infinity) (fun t => !t.t) &&
      after (.pisid 1) (withP generator .infinity) fun t => t.t) = true := by decide +kernel

theorem test_psel :
    (after (.psel 2 0 1) (withP generator g2)
      fun t => t.getP 2 == .pt g2) = true := by decide +kernel

theorem test_aid :
    (after (.aid 0) (withA genX genY)
      fun t => t.getA 0 == ⟨toFp 0, toFp 1, true⟩) = true := by decide +kernel

theorem test_agen :
    (after (.agen 0) State.reset
      fun t => t.getA 0 == ⟨genX, genY, false⟩) = true := by decide +kernel

theorem test_amov :
    (after (.amov 1 0) (withA (toFp 3) (toFp 5))
      fun t => t.getA 1 == ⟨toFp 3, toFp 5, false⟩) = true := by decide +kernel

theorem test_aneg :
    (after (.aneg 1 0) (withA genX genY)
      fun t => t.getA 1 == ⟨genX, negGy, false⟩) = true := by decide +kernel

theorem test_aendo :
    (after (.aendo 1 0) (withA genX genY) fun t => t.getA 1 == ⟨toFp
      0x1333c91030ee7a4649e404c01b2e0d26a8728dd7cb4edb636ed984de104bb92674f1161d8c99bcf024e473fe0a1d7620,
      genY, false⟩) = true := by decide +kernel

theorem test_aonc :
    (after (.aonc 0) (withA genX genY) (fun t => t.t) &&
      after (.aonc 0) (withA (toFp 0) (toFp 0)) fun t => !t.t) = true := by decide +kernel

theorem test_aeq :
    (after (.aeq 0 1) State.reset (fun t => t.t) &&
      after (.aeq 0 1) (withA (toFp 0) (toFp 1)) fun t => !t.t) = true := by decide +kernel

theorem test_aisid :
    (after (.aisid 0) State.reset fun t => t.t && t.acc) = true := by decide +kernel

theorem test_asel :
    (after (.asel 2 0 1) { withA genX genY with t := true }
      fun t => t.getA 2 == affineGenerator) = true := by decide +kernel

theorem test_astc :
    (after (.astc 0 0) (withA genX genY)
      fun t => beInt (readBytes t.iobuf 0 48) == compressedG) = true := by decide +kernel

theorem test_astc_identity :
    (after (.astc 0 0) State.reset
      fun t => readBytes t.iobuf 0 48 == 0xc0 :: List.replicate 47 0) = true := by decide +kernel

theorem test_astu :
    (after (.astu 0 0x30) (withA genX genY) fun t =>
      readBytes t.iobuf 0x30 96 == beBytes 48 genX.val ++ beBytes 48 genY.val) = true := by
  decide +kernel

theorem test_astu_identity :
    (after (.astu 0 0) State.reset
      fun t => readBytes t.iobuf 0 96 == 0x40 :: List.replicate 95 0) = true := by decide +kernel

theorem test_aldc_identity :
    (after (.aldc 1 0) ((withBytes 0 [0xc0]).setA 1 affineGenerator) fun t =>
      t.getA 1 == Affine.id && t.t) = true := by decide +kernel

theorem test_aldc_sorted_identity :
    (after (.aldc 1 0) (withBytes 0 [0xe0])
      fun t => t.getA 1 == Affine.id && !t.t && !t.acc) = true := by decide +kernel

theorem test_aldcu_generator :
    (after (.aldcu 1 0) (withBytes 0 (beBytes 48 compressedG)) fun t =>
      t.getA 1 == affineGenerator && t.t) = true := by decide +kernel

theorem test_aldcu :
    (after (.aldcu 1 0) (withBytes 0 [0x80])
      fun t => t.getA 1 == ⟨toFp 0, toFp 2, false⟩ && t.t) = true := by decide +kernel

theorem test_aldu_identity :
    (after (.aldu 1 0) ((withBytes 0 [0x40]).setA 1 affineGenerator) fun t =>
      t.getA 1 == Affine.id && t.t) = true := by decide +kernel

theorem test_aldu_off_curve :
    (after (.aldu 1 0x30) State.reset
      fun t => t.getA 1 == Affine.id && !t.t && !t.acc) = true := by decide +kernel

theorem test_alduu :
    (after (.alduu 1 0x30) State.reset
      fun t => t.getA 1 == ⟨toFp 0, toFp 0, false⟩ && t.t) = true := by decide +kernel

theorem test_alduu_bad_identity :
    (after (.alduu 1 0x30) ((withBytes 0x30 [0x40]).storeAt 0x8F [1]) fun t =>
      t.getA 1 == Affine.id && !t.t) = true := by decide +kernel

theorem test_pmulx :
    (after (.pmulx 1 0) (withP generator .infinity) fun t => t.getP 1 == .pt (.affine
      (toFp 0xd3aff0f3b2e6f4878f15a81eabab5d8c9f765bc93ae0a2f0da5ed1941b4924bca4516661600c41a74beeb243695b52d)
      (toFp 0x16ce48c345cce7cd395692cecbb8704bcb29645135c8ac366c4e5c40dead3c218814904df7d4c92cbb9aa956bbb1deab))) = true := by
  decide +kernel

theorem test_pclr :
    (after (.pclr 1 0) (withP (.affine (toFp 0) (toFp 2)) .infinity)
      fun t => t.getP 1 == .pt .infinity) = true := by decide +kernel

theorem test_ators :
    (after (.ators 0) (withA genX genY) fun t => t.t && t.acc) = true := by decide +kernel

theorem test_ators_outside :
    (after (.ators 0) (withA (toFp 0) (toFp 2)) fun t => !t.t && !t.acc) = true := by decide +kernel

/-! ### The host protocol (95_test_vectors.md section 2.7) -/

/-- V-ERR1: a refused word sets STATUS and ERRINFO. -/
theorem test_refused_word :
    (let t := hostAccess State.reset (wordWrite 0x14 0x04000000)
     readsAs t 0x0C 0x00000104 && readsAs t 0x1C 0x04000000 && !t.busy) = true := by decide

/-- V-ERR11: the largest valid offset is accepted, and STATUS reads 2 after the completion. -/
theorem test_accepted_word :
    (let t := hostAccess State.reset (wordWrite 0x14 0x1F100FD0)
     readsAs t 0x0C 0x00000001 && afterStep t fun u => readsAs u 0x0C 0x00000002) = true := by
  decide +kernel

/-- V-ERR15: a word written while ERR = 1 is dropped. -/
theorem test_dropped_while_err :
    (let t := hostAccess latched (wordWrite 0x14 0x18100000)
     t.errInfo == 1 && t.errCode == 2 && !t.busy && t.cmdcnt == 0) = true := by decide

/-- V-ERR16 to V-ERR18: writes to CMD, IOBUF and FLAGS while BUSY = 1. -/
theorem test_busy_writes :
    (let s := inFlight 0x02000000
     let t := hostAccess s (wordWrite 0x14 0x00000001)
     let u := hostAccess s (wordWrite 0x1040 0xFFFFFFFF)
     let v := hostAccess s (wordWrite 0x10 0)
     t.errCode == 5 && t.errInfo == 0x00000001 && t.cur == some 0x02000000 &&
     u.errCode == 6 && u.errInfo == 0x00001040 && u.iobuf == [] &&
     v.errCode == 6 && v.errInfo == 0x00000010 && v.acc) = true := by decide

/-- V-ERR20, V-ERR21, V-ERR23: the write-one-to-clear bits of STATUS. -/
theorem test_status_clears :
    (let s := { latched with done := true, ieDone := true, ieErr := true }
     let t := hostAccess s (wordWrite 0x0C 4)
     let u := hostAccess s (wordWrite 0x0C 6)
     !t.err && t.errCode == 0 && t.errInfo == 0 && t.done && t.irq && !u.done && !u.err && !u.irq) = true := by
  decide

/-- V-ERR24: a write of 7 to CTRL resets, and its IE bits are discarded. -/
theorem test_soft_reset :
    (hostAccess (inFlight 0x02000000) (wordWrite 0x08 7)).coreOf = State.reset := by decide

/-- V-ERR25, V-ERR26, V-ERR30: read-only, reserved and write-only registers. -/
theorem test_fixed_reads :
    (readsAs (hostAccess State.reset (wordWrite 0x00 0)) 0x00 0x424C5331 &&
      readsAs State.reset 0x04 0x00010000 && readsAs latched 0x20 0 && readsAs latched 0x14 0) = true := by
  decide

/-- V-ERR27: a 16-bit read gets the bus error response. -/
theorem test_bus_error :
    hostAccess latched ⟨0x0C, .half, .read⟩ = { latched with response := some ⟨0,
      true⟩ } := by decide

/-- V-ERR31: IOBUF words are little-endian. -/
theorem test_buffer_word :
    (let t := hostAccess State.reset (wordWrite 0x1000 0x44332211)
     readBytes t.iobuf 0 4 == [0x11, 0x22, 0x33,
       0x44] && readsAs t 0x1000 0x44332211) = true := by decide

/-- Zero bytes are not listed: equal buffers are equal data. -/
theorem test_buffer_canonical :
    (let t := (withBytes 8 [1, 2]).storeAt 4 [3]
     t.iobuf == [(4, 3), (8, 1), (9, 2)] && (t.storeAt 8 [0, 0]).iobuf == [(4,
       3)]) = true := by decide

/-- The Montgomery unit on its largest inputs (95_test_vectors.md V-MM5, V-MM11). -/
theorem test_montgomery_unit :
    montMulUnitF (p - 1) (p - 1) = rpInv ∧ montMulUnitS (r - 1) (r - 1) = rsInv := by decide +kernel

/-- The doubling and addition units on triples give 2G and 3G (95_test_vectors.md section 0). -/
theorem test_triple_units :
    (let g := affineGenerator.toTriple
     g.dbl.value == .pt g2 && (g.dbl.add g).value == .pt g3 &&
       (g.dbl.addMixed affineGenerator).value == .pt g3 && (g.add g.neg).value == .pt .infinity) = true := by
  decide +kernel

/-- R410: operands do not enter the latency; of `FSOP`, `SSOP` and `PBNORM` the count does. -/
theorem test_latency :
    Config.latency (encode (.fpow 1 2 0x100)) = Config.latency (encode (.fpow 15 0 4048)) ∧
    Config.latency (encode (.fsop 0 1 5 3)) = Config.latency (encode (.fsop 9 7 2 3)) ∧
    wordCount 0x1E015300 = some 3 ∧ wordCount 0x4E015300 = some 3 ∧ wordCount 0x85400200 = some 2 ∧
    wordCount 0x15312000 = none :=
  ⟨Config.latency_eq_of_opcode rfl rfl, Config.latency_eq_of_opcode rfl rfl, by decide, by decide,
    by decide, by decide⟩

/-! ### Witnesses: the hypotheses of every obligation can be met

Each theorem shows, for the obligation it is named after,
  states and operands that meet all its hypotheses
together, clause by clause and at the ends of the ranges. -/

theorem witness_DecodeOfEncode :
    wellFormed (.fpow 15 15 4048) = true ∧ wellFormed (.pbnorm 0 0 15) = true := by decide

theorem witness_EncodeOfDecode : decode 0xAF100030 = .ok (.alduu 1 0x30) := by decide

theorem witness_UnassignedOpcodesRefused :
    State.reset.err = false ∧ State.reset.busy = false ∧ Unassigned (opField 0x04000000).toNat ∧
    Unassigned (opField 0xB0000000).toNat ∧ Unassigned (opField 0xFF000000).toNat ∧
    ¬ Unassigned (opField 0x03000000).toNat ∧ ¬ Unassigned (opField 0xAF000000).toNat := by
  unfold Unassigned; decide

theorem witness_ReservedBitsRefused :
    opField 0x00000001 = opcodeOf .nop ∧ (0x00000001 : Word32) &&& mbzMask (formatOf .nop) ≠ 0 ∧
    State.reset.err = false ∧ State.reset.busy = false := by decide

theorem witness_OperandRangesChecked :
    offOf (.fldb 1 4048) = some 4048 ∧ offOf (.fldb 1 4049) = some 4049 ∧
      offOf (.sldr 1 4064) = some 4064 ∧
    offOf (.sldw 1 4033) = some 4033 ∧ offOf (.astu 1 4000) = some 4000 := by decide

theorem witness_StepRunsTheCommandInFlight :
    (inFlight 0x12201000).busy = true ∧ (inFlight 0x12201000).cur = some 0x12201000 ∧
    decode 0x12201000 = .ok (.fadd 2 0 1) ∧ (inFlight 0x12201000).agenda = [] ∧
    ({ inFlight 0x12201000 with agenda := [.engine] } : State).agenda = .engine :: [] ∧
    decodeTableWord 32 0x12201000 = some (.fadd 2 0 1) ∧ State.reset.busy = false ∧
    State.reset.agenda = [] ∧
      ({ State.reset with agenda := [.engine] } : State).agenda = .engine :: [] ∧
    ({ State.reset with agenda := [.host (wordRead 0)] } : State).agenda = .host (wordRead 0) :: [] ∧
    ({ State.reset with agenda := [.hardReset] } : State).agenda = .hardReset :: [] := by decide

theorem witness_ResetEventsResetEverything :
    ({ inFlight 0 with agenda := [.hardReset] } : State).agenda = .hardReset :: [] ∧
    (1 : Word32).getLsbD 0 = true := by decide

/-- A state with every part of the invariant in use: bytes listed,
  an identity and a point in the A file, a
command in flight and a latched error. -/
def busyState : State :=
  { ((withBytes 4095 [9]).setA 1 affineGenerator) with
    cur := some 0xA2100000, busy := true, err := true, errCode := 0x05, errInfo := 7 }

theorem busyState_inv : Inv busyState := by
  refine ⟨by decide, ?_, ⟨rfl, .amov 1 0, by decide⟩, ⟨.cmdBusy, rfl⟩⟩
  intro i; revert i; decide

theorem witness_EveryStepKeepsTheInvariant : Inv busyState ∧
  step busyState = exec (.amov 1 0) busyState :=
  ⟨busyState_inv, rfl⟩

theorem all_infinity (k : RegIdx) : State.reset.getP k = .pt .infinity := by
  simp [State.getP, State.reset]

theorem witness_PointsStayOnTheCurve :
    ∃ t, PointsOnCurve ((inFlight 0x88100000).setP 0 (.pt generator)) ∧
      step ((inFlight 0x88100000).setP 0 (.pt generator)) = .next t := by
  refine ⟨_, ?_, rfl⟩
  intro k
  rw [State.getP_setP]
  split
  · show onCurve genX genY = true; decide +kernel
  · rw [show (inFlight 0x88100000).getP k = State.reset.getP k from rfl, all_infinity]; trivial

theorem witness_NoJunkWithoutUncheckedLoads :
    ∃ t, PointsOnCurve (inFlight 0xAD100000) ∧ NoJunk (inFlight 0xAD100000) ∧
      OnCurveA (inFlight 0xAD100000) ∧ step (inFlight 0xAD100000) = .next t ∧
      ∀ (w : Word32) (d : RegIdx) (off : BufOff), (inFlight 0xAD100000).cur = some w →
        decode w ≠ .ok (.alduu d off) := by
  refine ⟨_, ?_, ?_, ?_, rfl, ?_⟩
  · intro k
    rw [show (inFlight 0xAD100000).getP k = State.reset.getP k from rfl, all_infinity]; trivial
  · intro k
    rw [show (inFlight 0xAD100000).getP k = State.reset.getP k from rfl, all_infinity]; simp
  · intro k; revert k; decide
  · intro w d off h hd
    cases h
    rw [show decode 0xAD100000 = .ok (.aldcu 1 0) by decide] at hd
    simp at hd

theorem witness_EveryCommandCompletes :
    wellFormed (.ssop 0 15 15 0) = true ∧ regRangesFit (.ssop 0 15 15 1) = false ∧
    bufRangeFits (.sldw 0 4033) = false := by decide

theorem witness_FrameOfControlCommands :
    ∃ t, familyOf .tacc = .control ∧ wellFormed .tacc = true ∧ exec .tacc State.reset = .next t :=
  ⟨_, by decide, by decide, exec_tacc _⟩

theorem witness_FrameOfFpCommands :
    ∃ t, familyOf (.fstb 1 4048) = .fp ∧ wellFormed (.fstb 1 4048) = true ∧
      exec (.fstb 1 4048) (withF 0 1) = .next t :=
  ⟨_, by decide, by decide, exec_fstb _ _ _ (by decide)⟩

theorem witness_FrameOfScalarCommands :
    ∃ t, familyOf (.sstm 1 4064) = .scalar ∧ wellFormed (.sstm 1 4064) = true ∧
      exec (.sstm 1 4064) (withS 0 1) = .next t :=
  ⟨_, by decide, by decide, exec_sstm _ _ _ (by decide)⟩

theorem witness_FrameOfProjectiveCommands :
    ∃ t, familyOf (.pbnorm 14 0 1) = .projective ∧ wellFormed (.pbnorm 14 0 1) = true ∧
      exec (.pbnorm 14 0 1) (State.reset.setP 1 .junk) = .next t :=
  ⟨_, by decide, by decide, exec_pbnorm _ _ _ _ (by decide) (by decide)⟩

theorem witness_FrameOfAffineCommands :
    ∃ t, familyOf (.astu 0 4000) = .affine ∧ wellFormed (.astu 0 4000) = true ∧
      exec (.astu 0 4000) (withA genX genY) = .next t :=
  ⟨_, by decide, by decide, exec_astu _ _ _ (by decide)⟩

theorem witness_FpFileIsKeptApart :
    ∃ t, familyOf (.pdbl 1 0) ≠ .fp ∧ wellFormed (.pdbl 1 0) = true ∧
      exec (.pdbl 1 0) (withP generator g2) = .next t :=
  ⟨_, by decide, by decide, exec_pdbl _ _ _⟩

theorem witness_FlagsAreWrittenBySetT :
    wellFormed (.fldb 0 4048) = true ∧ flagWriting (.fldb 0 4048) = true ∧ wellFormed .aset = true ∧
    wellFormed (.fstb 0 4048) = true ∧ flagWriting (.fstb 0 4048) = false := by decide

theorem witness_AbsenceOfValueWritesZero :
    wellFormed (.finv 1 0) = true ∧ flagWriting (.finv 1 0) = true ∧ destF (.finv 1 0) = some 1 ∧
    wellFormed (.ssqrt 1 0) = true ∧ flagWriting (.ssqrt 1 0) = true ∧ destS (.ssqrt 1 0) = some 1 ∧
    wellFormed (.aldu 1 4000) = true ∧ flagWriting (.aldu 1 4000) = true ∧
    destA (.aldu 1 4000) = some (1, 1) := by decide

theorem witness_FirstErrorIsLatched :
    ∃ t u v w, Inv busyState ∧ busyState.err = true ∧ step busyState = .next t ∧
      Inv { busyState with agenda := [.hardReset] } ∧
      step { busyState with agenda := [.hardReset] } = .next u ∧
      (wordWrite 0x08 1).resets = true ∧ (wordWrite 0x0C 4).clearsErr = true ∧
      step { busyState with agenda := [.host (wordWrite 0x0C 4)] } = .next v ∧
      (wordWrite 0x0C 2).resets = false ∧ (wordWrite 0x0C 2).clearsErr = false ∧
      step { busyState with agenda := [.host (wordWrite 0x0C 2)] } = .next w :=
  ⟨_, _, _, _, busyState_inv, rfl, (show step busyState = exec (.amov 1 0) busyState from rfl).trans
    (exec_amov _ _ _), ⟨busyState_inv.memory, busyState_inv.identity, busyState_inv.inFlight,
    busyState_inv.report⟩, rfl, by decide, by decide, rfl, by decide, by decide, rfl⟩

theorem witness_FirstErrorIsLatched_drops :
    busyState.err = true ∧ busyState.busy = true ∧ hostReg 0x14 = .cmd ∧ hostReg 0x10 = .flags ∧
    hostReg 0x1000 = .iobuf 0 ∧ hostReg 0x1FFC = .iobuf 4092 := by decide

theorem witness_ReadsHaveNoSideEffect :
    (wordRead 0x1000).kind = .read ∧ State.reset.busy = false ∧
    (∀ k, hostReg (wordRead 0x0C).offset ≠ .iobuf k) ∧ hostReg (wordRead 0x0C).offset ≠ .flags := by
  refine ⟨rfl, rfl, ?_, by decide⟩
  intro k h
  exact absurd ((show hostReg (wordRead 0x0C).offset = .status by decide).symm.trans h) (by simp)

theorem witness_WrongAccessIsABusError :
    (⟨0x0C, .byte, .read⟩ : Access).width ≠ .word ∧
      (⟨0x0E, .word, .read⟩ : Access).offset.toNat % 4 ≠ 0 ∧
    (wordRead 0x1FFC).width = .word ∧ (wordRead 0x1FFC).offset.toNat % 4 = 0 := by decide

theorem witness_ReservedReadsZeroIgnoresWrites :
    (0x20 ≤ (0x20 : HostOff).toNat ∧ (0x20 : HostOff).toNat < 0x1000 ∧
      (0x20 : HostOff).toNat % 4 = 0) ∧
    (0x20 ≤ (0xFFC : HostOff).toNat ∧ (0xFFC : HostOff).toNat < 0x1000 ∧
      (0xFFC : HostOff).toNat % 4 = 0) ∧
    (0x1C : HostOff) ∈ ([0x00, 0x04, 0x18, 0x1C] : List HostOff) := by decide

theorem witness_BufferWordsAreLittleEndian :
    Memory.wf (withBytes 4092 [1, 0, 3, 4]).iobuf = true ∧
      (withBytes 4092 [1, 0, 3, 4]).busy = false ∧
    0 < 1024 ∧ 1023 < 1024 := by decide

theorem witness_StatusCausesAndInterrupt :
    (2 : Word32).getLsbD 0 = false ∧ (0xFFFFFFFE : Word32).getLsbD 0 = false := by decide

theorem witness_CommandInFlightIsUndisturbed :
    (inFlight 0).busy = true ∧ (wordWrite 0x10 3).resets = false ∧
      (wordWrite 0x1FFC 3).resets = false ∧
    (wordWrite 0x1FFC 3).offset.toNat % 4 = 0 ∧ (inFlight 0).err = false ∧
    0x1000 ≤ (wordWrite 0x1FFC 3).offset.toNat ∧ (wordWrite 0x10 3).offset = 0x10 := by decide

theorem witness_FlagsWriteRacesCompletion :
    State.reset.busy = false ∧ ({ State.reset with err := true } : State).busy = false ∧
    wellFormed .aset = true ∧ (inFlight 0x02000000).busy = true ∧
    (inFlight 0x02000000).cur = some (encode .aset) ∧ (inFlight 0x02000000).err = false ∧
    ({ inFlight 0x02000000 with agenda := [.host (wordWrite 0x10 1), .engine] } : State).agenda =
      .host (wordWrite 0x10 1) :: .engine :: [] ∧
    ({ inFlight 0x02000000 with agenda := [.engine, .host (wordWrite 0x10 1)] } : State).agenda =
      .engine :: .host (wordWrite 0x10 1) :: [] := by decide

theorem witness_IssuedCommandIsPerformed :
    wellFormed (.fpow 0 0 4048) = true ∧
      Idle { State.reset with agenda := issue (encode (.fpow 0 0 4048)) } ∧
    NoError { State.reset with agenda := issue (encode (.fpow 0 0 4048)) } :=
  ⟨by decide, ⟨rfl, rfl⟩, rfl⟩

theorem witness_CmdcntCountsPerformedCommands :
    ∃ t u, Inv busyState ∧ step busyState = .next t ∧
      Inv { busyState with agenda := [.host (wordWrite 0x14 0)] } ∧
      step { busyState with agenda := [.host (wordWrite 0x14 0)] } = .next u :=
  ⟨_, _, busyState_inv, (show step busyState = exec (.amov 1 0) busyState from rfl).trans
    (exec_amov _ _ _), ⟨busyState_inv.memory, busyState_inv.identity, busyState_inv.inFlight,
    busyState_inv.report⟩, rfl⟩

theorem witness_FieldPowers :
    (0 : BufOff).toNat ≤ 4048 ∧ (4048 : BufOff).toNat ≤ 4048 ∧
      (4064 : BufOff).toNat ≤ 4064 := by decide

theorem witness_FieldInverses :
    ((withF 2 0).getF 0).val ≠ 0 ∧ ((withF 2 0).getF 1).val = 0 ∧
    ((withS 2 0).getS 0).val ≠ 0 ∧ ((withS 2 0).getS 1).val = 0 := by decide +kernel

theorem witness_SumsOfProducts :
    (0 : RegIdx).val + (15 : RegIdx).val ≤ 15 ∧
      (15 : RegIdx).val + (0 : RegIdx).val ≤ 15 := by decide

theorem witness_FpLoadsAndStores :
    (4048 : BufOff).toNat ≤ 4048 ∧
    beInt (readBytes (withBytes 4048 (beBytes 48 (p - 1))).iobuf 4048 48) < p ∧
    p ≤ beInt (readBytes (withBytes 4048 (beBytes 48 p)).iobuf 4048 48) ∧
    leInt (readBytes (withBytes 4048 (leBytes 48 (p - 1))).iobuf 4048 48) < p ∧
    p ≤ leInt (readBytes (withBytes 4048 (leBytes 48 p)).iobuf 4048 48) ∧
    Memory.wf (withBytes 4048 (leBytes 48 p)).iobuf = true := by decide +kernel

theorem witness_ScalarLoadsAndStores :
    (4064 : BufOff).toNat ≤ 4064 ∧ (4032 : BufOff).toNat ≤ 4032 ∧
    leInt (readBytes (withBytes 4064 (leBytes 32 (r - 1))).iobuf 4064 32) < r ∧
    r ≤ leInt (readBytes (withBytes 4064 (leBytes 32 r)).iobuf 4064 32) ∧
    Memory.wf (withBytes 4064 (leBytes 32 r)).iobuf = true := by decide +kernel

theorem witness_ProjectiveConstantsMovesConversion :
    (State.reset.getA 0).inf = true ∧ ((withA genX genY).getA 0).inf = false ∧
    ((withA genX genY).getA 0).y.val ^ 2 % p = (((withA genX genY).getA 0).x.val ^ 3 + 4) % p ∧
    ((withA genX genX).getA 0).inf = false ∧
    ((withA genX genX).getA 0).y.val ^ 2 % p ≠ (((withA genX genX).getA 0).x.val ^ 3 + 4) % p := by
  decide +kernel

theorem witness_PointAdderComputesTheGroupLaw :
    (withP generator g2).getP 0 = .pt generator ∧ (withP generator g2).getP 1 = .pt g2 ∧
    generator.OnCurve ∧ g2.OnCurve ∧
    ((withA genX genY).getA 0).inf = false ∧ ((withA genX genY).getA 0).onCurve = true ∧
    (State.reset.getA 0).inf = true ∧ ((withA genX genX).getA 0).onCurve = false ∧
    (State.reset.setP 0 .junk).getP 0 = .junk := by
  refine ⟨by decide +kernel, by decide +kernel, ?_, ?_, by decide +kernel, by decide +kernel,
    by decide +kernel, by decide +kernel, by decide +kernel⟩
  · show onCurve _ _ = true; decide +kernel
  · show onCurve _ _ = true; decide +kernel

theorem witness_ScalarMultiplierComputesMultiples :
    (withP generator g2).getP 0 = .pt generator ∧ generator.OnCurve ∧
    (State.reset.setP 0 .junk).getP 0 = .junk := by
  refine ⟨by decide +kernel, ?_, by decide +kernel⟩
  show onCurve _ _ = true; decide +kernel

theorem witness_AffineFormsOfPoints :
    (0 : RegIdx).val + (15 : RegIdx).val ≤ 15 ∧ (15 : RegIdx).val + (0 : RegIdx).val ≤ 15 ∧
    (0 : Nat) ≤ (0 : RegIdx).val ∧ (15 : Nat) ≤ (15 : RegIdx).val := by decide

theorem witness_ProjectivePredicates :
    (withP generator .infinity).getP 0 = .pt generator ∧
      (withP generator .infinity).getP 1 = .pt .infinity ∧
    (State.reset.setP 0 .junk).getP 0 = .junk := by decide +kernel

theorem witness_AffineConstantsMovesMaps :
    (State.reset.getA 0).inf = true ∧ ((withA genX genY).getA 0).inf = false := by decide +kernel

theorem witness_AffinePredicates :
    (State.reset.getA 0).inf = true ∧ ((withA genX genY).getA 0).inf = false ∧
    ((withA genX genY).getA 0).onCurve = true ∧ ((withA genX genX).getA 0).onCurve = false := by
  decide +kernel

theorem witness_PointsAreSerialized :
    Memory.wf (withBytes 4095 [1]).iobuf = true ∧ (4048 : BufOff).toNat ≤ 4048 ∧
    (4000 : BufOff).toNat ≤ 4000 := by decide

theorem witness_CompressedPointsAreDeserialized :
    ∃ v x, (4048 : BufOff).toNat ≤ 4048 ∧
      v = beInt (readBytes (withBytes 4048 (beBytes 48 compressedG)).iobuf (4048 : BufOff).toNat 48) ∧
      x = v % 2 ^ 381 ∧ v = compressedG :=
  ⟨_, _, by decide, rfl, rfl, by decide +kernel⟩

/-- The inner cases of the same: a decoded identity passes the subgroup test; the string e0 00 … fails. -/
theorem witness_CompressedPointsAreDeserialized_cases :
    (decodeCompressed (0xc0 :: List.replicate 47 0)).2 = true ∧
    (decodeCompressed (0xc0 :: List.replicate 47 0)).1.torsionFree = true ∧
    (decodeCompressed (0xe0 :: List.replicate 47 0)).2 = false ∧
    (decodeCompressed (beBytes 48 compressedG)).2 = true ∧
    (decodeCompressed (beBytes 48 compressedG)).1.inf = false := by decide +kernel

theorem witness_UncompressedPointsAreDeserialized :
    ∃ v x y, (4000 : BufOff).toNat ≤ 4000 ∧
      v = beInt (readBytes (withBytes 4000 [0x40]).iobuf (4000 : BufOff).toNat 96) ∧
      x = v / 2 ^ 384 % 2 ^ 381 ∧ y = v % 2 ^ 384 ∧ v = 2 ^ 766 :=
  ⟨_, _, _, by decide, rfl, rfl, rfl, by decide +kernel⟩

theorem witness_CodecRoundTrips :
    Memory.wf (withA genX genY).iobuf = true ∧
    (((withA genX genY).getA 0).inf = true → (withA genX genY).getA 0 = Affine.id) ∧
    (4000 : BufOff).toNat ≤ 4000 ∧ (4048 : BufOff).toNat ≤ 4048 ∧
    ((withA genX genY).getA 0).onCurve = true ∧ (State.reset.getA 0).onCurve = true ∧
    (State.reset.getA 0).torsionFree = true := by decide +kernel

theorem witness_MontgomeryLoopIsClosedForm :
    (p - 1) * (p - 1) < p * 2 ^ 384 ∧ (p * 2 ^ 384 - 1) * 1 < p * 2 ^ 384 ∧
    (r - 1) * (2 ^ 256 - 1) < r * 2 ^ 256 := by decide +kernel

theorem witness_DoublingUnitDoubles :
    affineGenerator.toTriple.value = .pt generator ∧ Affine.id.toTriple.value = .pt .infinity := by
  decide +kernel

theorem witness_TripleUnitsAndBatchNormalization :
    affineGenerator.toTriple.value = .pt generator ∧ Affine.id.toTriple.value = .pt .infinity ∧
    [affineGenerator.toTriple, Affine.id.toTriple].map Triple.value =
      [generator, .infinity].map PVal.pt := by decide +kernel

theorem witness_AdditionUnitsAdd :
    affineGenerator.toTriple.value = .pt generator ∧ Affine.id.toTriple.value = .pt .infinity ∧
    affineGenerator.neg.toTriple.value = .pt generator.neg ∧
    affineGenerator.onCurve = true ∧ Affine.id.onCurve = true ∧ Affine.id.inf = true ∧
    0 < 2 ^ 0 ∧ seedAbs < 2 ^ 64 := by decide +kernel

end Sys2Proof.Tests
end

section
/-!
The state family: what a performed command and a host access do to the state, said once; then the
invariants of every step, the frames, the flags and reset.
-/

namespace Sys2Proof.Machine

/-! ### The frame of a command, built up along its effect (10_state.md R57) -/

theorem Frame.refl (i : Instr) (s : State) : Frame i s s where
  fp _ _ := rfl
  scalar _ _ := rfl
  projective _ _ := rfl
  affine _ _ := rfl
  bytes _ _ := rfl
  flagT _ := rfl
  flagAcc _ := rfl
  enables := ⟨rfl, rfl⟩
  report := ⟨rfl, rfl, rfl⟩
  model := ⟨rfl, rfl⟩

theorem ne_of_dest {o : Option RegIdx} {d k : RegIdx} (hd : o = some d) (hk : o ≠ some k) :
    k ≠ d := by
  rintro rfl
  exact hk hd

theorem inRegRange_some (d k : RegIdx) (n : Nat) :
    inRegRange (some (d, n)) k ↔ d.val ≤ k.val ∧ k.val < d.val + n := Iff.rfl

section
variable {i : Instr} {s t : State}

theorem Frame.complete (h : Frame i s t) : Frame i s t.complete := { h with }

theorem Frame.drawn (h : Frame i s t) (n : Nat) : Frame i s { t with draws := n } := { h with }

theorem Frame.setF (h : Frame i s t) {d : RegIdx} (hd : destF i = some d) (v : Fp) :
    Frame i s (t.setF d v) :=
  { h with
    fp := fun k hk => by
      rw [State.setF_getF_ne _ _ _ _ (ne_of_dest hd hk)]
      exact h.fp k hk }

theorem Frame.setS (h : Frame i s t) {d : RegIdx} (hd : destS i = some d) (v : Fr) :
    Frame i s (t.setS d v) :=
  { h with
    scalar := fun k hk => by
      rw [State.setS_getS_ne _ _ _ _ (ne_of_dest hd hk)]
      exact h.scalar k hk }

theorem Frame.setP (h : Frame i s t) {d : RegIdx} (hd : destP i = some d) (v : PVal) :
    Frame i s (t.setP d v) :=
  { h with
    projective := fun k hk => by
      rw [State.setP_getP_ne _ _ _ _ (ne_of_dest hd hk)]
      exact h.projective k hk }

theorem Frame.setA (h : Frame i s t) {d : RegIdx} (hd : destA i = some (d, 1)) (v : Affine) :
    Frame i s (t.setA d v) :=
  { h with
    affine := fun k hk => by
      have hkd : k ≠ d := by
        rintro rfl
        rw [hd, inRegRange_some] at hk
        omega
      rw [State.setA_getA_ne _ _ _ _ hkd]
      exact h.affine k hk }

theorem Frame.writeA (h : Frame i s t) {d : RegIdx} {vs : List Affine}
    (hd : destA i = some (d, vs.length)) :
    Frame i s { t with areg := writeRange t.areg d.val vs } :=
  { h with
    affine := fun k hk => by
      rw [hd, inRegRange_some] at hk
      have hout : ¬(d.val ≤ k.val ∧ k.val - d.val < vs.length) := by omega
      rw [← h.affine k (by rw [hd, inRegRange_some]; exact hk)]
      simp only [State.getA, Fin.getElem_fin, writeRange_getElem vs t.areg d.val k.val k.isLt,
        dif_neg hout] }

theorem Frame.setT (h : Frame i s t) (hf : flagWriting i = true) (b : Bool) :
    Frame i s (t.setT b) :=
  { h with
    flagT := fun hw => by simp [writesT, hf] at hw
    flagAcc := fun hw => by simp [writesAcc, hf] at hw }

theorem Frame.storeAt (h : Frame i s t) {a : Nat} {bs : List Byte}
    (hr : storeRange i = some (a, bs.length)) : Frame i s (t.storeAt a bs) :=
  { h with
    bytes := fun b hb => by
      rw [State.storeAt_iobuf, readByte_writeBytes_other bs t.iobuf a b (by rwa [hr] at hb)]
      exact h.bytes b hb }

end

/-- Every effect keeps what is outside the footprint of its command. -/
theorem Effect.frame {i : Instr} {s e : State} (h : Effect i s e) : Frame i s e := by
  have h0 := Frame.refl i s
  cases h with
  | nop hi => exact h0
  | tnot hi => subst hi; exact { h0 with flagT := nofun }
  | aset hi => subst hi; exact { h0 with flagAcc := nofun }
  | tacc hi => subst hi; exact { h0 with flagT := nofun }
  | setF d v hd hf => exact h0.setF hd v
  | setS d v hd hf => exact h0.setS hd v
  | setP d v hd hf => exact h0.setP hd v
  | setA d v hd hf => exact h0.setA hd v
  | resultF d v ok hd hf => exact (h0.setF hd _).setT hf ok
  | resultS d v ok hd hf => exact (h0.setS hd _).setT hf ok
  | resultA d v ok hd hf => exact (h0.setA hd _).setT hf ok
  | flag b hf => exact h0.setT hf b
  | flagOrDraw b hf hm =>
    cases b with
    | some b => exact h0.setT hf b
    | none => exact (h0.setT hf _).drawn _
  | affineDrawn d v n hd hf hm => exact (h0.setA hd v).drawn n
  | affineRange d vs n hd hf hm => exact (h0.writeA hd).drawn n
  | store a bs hr hf hb => exact h0.storeAt hr

/-- A command that answers a next state is one of `exec_effect`'s shapes, completed. -/
theorem exec_next_effect {i : Instr} {s t : State} (hw : wellFormed i = true)
    (h : exec i s = .next t) : ∃ e, t = e.complete ∧ Effect i s e := by
  obtain ⟨e, he, heff⟩ := exec_effect i s hw
  rw [he] at h
  cases h
  exact ⟨e, rfl, heff⟩

theorem exec_frame {i : Instr} {s t : State} (hw : wellFormed i = true) (h : exec i s = .next t) :
    Frame i s t := by
  obtain ⟨e, rfl, heff⟩ := exec_next_effect hw h
  exact heff.frame.complete

/-- Only projective and affine commands draw (93_implementation_defined.md I2-I6). -/
theorem exec_draws {i : Instr} {s t : State} (hw : wellFormed i = true) (h : exec i s = .next t)
    (hp : familyOf i ≠ .projective) (ha : familyOf i ≠ .affine) : t.draws = s.draws := by
  obtain ⟨e, rfl, heff⟩ := exec_next_effect hw h
  cases heff with
  | flagOrDraw b hf hm => exact absurd hm (not_or_intro hp ha)
  | affineDrawn d v n hd hf hm => exact absurd hm hp
  | affineRange d vs n hd hf hm => exact absurd hm hp
  | _ => rfl

/-! ### What a host access does (20_memory.md R74-R88) -/

/-- The shapes of what a host access does to `s`, before the answer on the bus. -/
inductive HostEffect (s : State) : State → Prop
  | same : HostEffect s s
  | drew (n : Nat) : HostEffect s { s with draws := n }
  | reset : HostEffect s s.doReset
  | enables (d e : Bool) : HostEffect s { s with ieDone := d, ieErr := e }
  | doneBit (d : Bool) : HostEffect s { s with done := d }
  | errCleared (d : Bool) :
      HostEffect s { s with done := d, err := false, errCode := 0, errInfo := 0 }
  | flags (t acc : Bool) (hb : s.busy = false) : HostEffect s { s with t := t, acc := acc }
  | store (a : Nat) (bs : List Byte) (ha : a + bs.length ≤ 4096) (hb : s.busy = false) :
      HostEffect s (s.storeAt a bs)
  | raised (e : CmdError) (info : Word32) : HostEffect s (s.raise e info)
  | accepted (w : Word32) (i : Instr) (hd : decode w = .ok i) (he : s.err = false)
      (hb : s.busy = false) : HostEffect s { s with cur := some w, busy := true }

theorem writeCtrl_effect (s : State) (w : Word32) : HostEffect s (writeCtrl s w) := by
  unfold writeCtrl
  split
  · exact .reset
  · exact .enables _ _

theorem writeStatus_effect (s : State) (w : Word32) : HostEffect s (writeStatus s w) := by
  unfold writeStatus
  cases w.getLsbD 1 <;> cases w.getLsbD 2
  · exact .same
  · exact .errCleared s.done
  · exact .doneBit false
  · exact .errCleared false

theorem writeWhenIdle_effect (s : State) (off : HostOff) (u : State)
    (h : s.busy = false → HostEffect s u) : HostEffect s (writeWhenIdle s off u) := by
  unfold writeWhenIdle
  split
  · exact .raised _ _
  · next hb => exact h (by simpa using hb)

theorem writeCmd_effect (s : State) (w : Word32) : HostEffect s (writeCmd s w) := by
  unfold writeCmd
  split
  · exact .same
  · next he =>
    split
    · exact .raised _ _
    · next hb =>
      split
      · exact .raised _ _
      · next i hd => exact .accepted w i hd (by simpa using he) (by simpa using hb)

theorem hostReg_iobuf_le {off : HostOff} {a : Nat} (h : hostReg off = .iobuf a)
    (hal : off.toNat % 4 = 0) : a + 4 ≤ 4096 := by
  have hlt := off.isLt
  unfold hostReg at h
  by_cases hoff : 0x1000 ≤ off.toNat
  · rw [if_pos hoff, HostReg.iobuf.injEq] at h
    omega
  · rw [if_neg hoff] at h
    split at h <;> cases h

theorem hostWrite_effect (s : State) (off : HostOff) (w : Word32) (hal : off.toNat % 4 = 0) :
    HostEffect s (hostWrite s off w) := by
  unfold hostWrite
  split
  · exact writeCtrl_effect s w
  · exact writeStatus_effect s w
  · exact writeWhenIdle_effect _ _ _ (.flags _ _)
  · exact writeCmd_effect s w
  · next a ha =>
    exact writeWhenIdle_effect _ _ _
      (.store _ _ (by rw [leBytes_length]; exact hostReg_iobuf_le ha hal))
  all_goals exact .same

/-- What one host access does: one of the shapes, and the answer on the bus. -/
theorem hostAccess_effect (s : State) (a : Access) :
    ∃ e r, hostAccess s a = { e with response := r } ∧ HostEffect s e := by
  unfold hostAccess
  split
  · next hl =>
    split
    · exact ⟨{ s with draws := (hostRead s (hostReg a.offset)).draws }, _, rfl, .drew _⟩
    · simp only [accessLegal, Bool.and_eq_true, beq_iff_eq] at hl
      exact ⟨_, _, rfl, hostWrite_effect s _ _ hl.2⟩
  · exact ⟨s, _, rfl, .same⟩

/-! ### What the engine's move does, from any state -/

theorem engineStep_runs {s : State} {w : Word32} {i : Instr} (hb : s.busy = true)
    (hc : s.cur = some w) (hd : decode w = .ok i) : engineStep s = exec i s := by
  simp only [engineStep, hb, commandInFlight, hc, hd, if_true]

theorem engineStep_idle {s : State} (hb : s.busy = false) : engineStep s = .next s := by
  simp [engineStep, hb]

/-- The engine's move that answers a next state: nothing while idle, else the well-formed command in
flight. -/
theorem engineStep_next {s t : State} (h : engineStep s = .next t) :
    t = s ∨ ∃ i, wellFormed i = true ∧ exec i s = .next t := by
  unfold engineStep at h
  split at h
  · split at h
    · next i hi =>
      refine .inr ⟨i, ?_, h⟩
      unfold commandInFlight at hi
      split at hi
      · cases hi
      · split at hi
        · next hd => cases hi; exact decode_wellFormed hd
        · cases hi
    · cases h
  · cases h
    exact .inl rfl

/-- The engine's move always answers when CUR holds an accepted word exactly while BUSY = 1. -/
theorem engineStep_answers {s : State} (h : InFlight s) : ∃ t, engineStep s = .next t := by
  unfold InFlight at h
  split at h
  · exact ⟨s, engineStep_idle h⟩
  · next w hc =>
    obtain ⟨hb, i, hd⟩ := h
    obtain ⟨e, he, -⟩ := exec_effect i s (decode_wellFormed hd)
    exact ⟨_, (engineStep_runs hb hc hd).trans he⟩

/-! ### What a command writes to the A file (10_state.md R46, R57) -/

/-- The values that command `i` on `s` can leave in an A register: an old one, or what it computes,
with what is known of it (so that claims on inf = 1 and on the curve both follow by cases). -/
inductive WrittenA (i : Instr) (s : State) : Affine → Prop
  | copied (a : RegIdx) : WrittenA i s (s.getA a)
  | identity : WrittenA i s Affine.id
  | generator : WrittenA i s affineGenerator
  | negated (a : RegIdx) : WrittenA i s (s.getA a).neg
  | endo (a : RegIdx) : WrittenA i s (s.getA a).endo
  | ofPoint (a : RegIdx) (q : Point) (h : s.getP a = .pt q) : WrittenA i s q.toAffine
  | drawn (a : RegIdx) (n : Nat) (h : s.getP a = .junk) : WrittenA i s (drawnAffine n)
  | compressed (bs : List Byte) (h : (decodeCompressed bs).2 = true) :
      WrittenA i s (decodeCompressed bs).1
  | checked (bs : List Byte) (h : (decodeUncompressed bs).2 = true)
      (hc : (decodeUncompressed bs).1.onCurve = true) : WrittenA i s (decodeUncompressed bs).1
  | unchecked (d : RegIdx) (off : BufOff) (hi : i = .alduu d off) (bs : List Byte)
      (h : (decodeUncompressed bs).2 = true) : WrittenA i s (decodeUncompressed bs).1

section
variable {i : Instr} {s : State}

theorem WrittenA.setA {v : Affine} (h : WrittenA i s v) (d k : RegIdx) :
    WrittenA i s ((s.setA d v).complete.getA k) := by
  rw [State.complete_getA, State.getA_setA]
  split
  · exact h
  · exact .copied k

theorem WrittenA.resultA {v : Affine} {ok : Bool} (h : ok = true → WrittenA i s v)
    (d k : RegIdx) :
    WrittenA i s ((s.resultA d v ok).complete.getA k) := by
  rw [State.complete_getA, State.getA_resultA]
  split
  · split
    · next hok => exact h hok
    · exact .identity
  · exact .copied k

theorem WrittenA.writeRange {vs : List Affine} (h : ∀ x ∈ vs, WrittenA i s x) (d k : RegIdx)
    (n : Nat) :
    WrittenA i s
      (({ s with areg := writeRange s.areg d.val vs, draws := n } : State).complete.getA k) := by
  rw [State.complete_getA]
  simp only [State.getA, Fin.getElem_fin, writeRange_getElem vs s.areg d.val k.val k.isLt]
  split
  · exact h _ (List.getElem_mem _)
  · exact .copied k

theorem WrittenA.affineOf (a : RegIdx) (n : Nat) : WrittenA i s (affineOf (s.getP a) n).1 := by
  unfold Machine.affineOf
  split
  · next q hq => exact .ofPoint a q hq
  · next hj => exact .drawn a n hj

theorem WrittenA.affinesOf (vs : List PVal) (hvs : ∀ v ∈ vs, ∃ a, v = s.getP a) :
    ∀ n, ∀ x ∈ (affinesOf vs n).1, WrittenA i s x := by
  induction vs with
  | nil => intro n x hx; cases hx
  | cons v vs ih =>
    intro n x hx
    simp only [Machine.affinesOf, List.mem_cons] at hx
    rcases hx with rfl | hx
    · obtain ⟨a, rfl⟩ := hvs v List.mem_cons_self
      exact .affineOf a n
    · exact ih (fun v hv => hvs v (List.mem_cons_of_mem _ hv)) _ x hx

end

/-- The elements of a range of the P file are P registers. -/
theorem mem_readRange_preg {s : State} {base : RegIdx} {n : Nat} {v : PVal}
    (h : v ∈ readRange s.preg base n) : ∃ a, v = s.getP a := by
  have hv : v ∈ s.preg.toList := List.mem_of_mem_drop (List.mem_of_mem_take h)
  obtain ⟨k, hk, rfl⟩ := List.mem_iff_getElem.mp hv
  exact ⟨⟨k, by simpa using hk⟩, rfl⟩

/-- After a command each A register holds its old value or one that the command computes. -/
theorem exec_writtenA {i : Instr} {s t : State} (hw : wellFormed i = true)
    (h : exec i s = .next t) (k : RegIdx) : WrittenA i s (t.getA k) := by
  by_cases hk : inRegRange (destA i) k
  case neg => rw [(exec_frame hw h).affine k hk]; exact .copied k
  obtain ⟨hr, hb⟩ : regRangesFit i = true ∧ bufRangeFits i = true := by
    simpa only [wellFormed, Bool.and_eq_true] using hw
  cases i with
  | ptoa d a => cases h; exact (WrittenA.affineOf a _).setA d k
  | pbnorm d a n =>
    simp only [regRangesFit, Bool.and_eq_true] at hr
    rw [exec_pbnorm d a n s hr.1 hr.2] at h
    cases h
    exact .writeRange (.affinesOf _ (fun v hv => mem_readRange_preg hv) _) d k _
  | aid d => cases h; exact WrittenA.identity.setA d k
  | agen d => cases h; exact WrittenA.generator.setA d k
  | amov d a => cases h; exact (WrittenA.copied a).setA d k
  | aneg d a => cases h; exact (WrittenA.negated a).setA d k
  | aendo d a => cases h; exact (WrittenA.endo a).setA d k
  | asel d a b =>
    cases h
    refine WrittenA.setA ?_ d k
    split
    · exact .copied a
    · exact .copied b
  | aldc d off =>
    rw [exec_aldc d off s hb] at h
    cases h
    exact .resultA (fun hok => .compressed _ (Bool.and_eq_true_iff.mp hok).1) d k
  | aldcu d off =>
    rw [exec_aldcu d off s hb] at h
    cases h
    exact .resultA (.compressed _) d k
  | aldu d off =>
    rw [exec_aldu d off s hb] at h
    cases h
    refine .resultA (fun hok => ?_) d k
    simp only [Bool.and_eq_true] at hok
    exact .checked _ hok.1.1 hok.1.2
  | alduu d off =>
    rw [exec_alduu d off s hb] at h
    cases h
    exact .resultA (.unchecked d off rfl _) d k
  | _ => exact False.elim hk

/-! ### The canonical affine identity (10_state.md R46) -/

theorem endo_id : Affine.id.endo = Affine.id := by decide +kernel

theorem decodeCompressed_canonical (bs : List Byte) (h : (decodeCompressed bs).1.inf = true) :
    (decodeCompressed bs).1 = Affine.id := by
  revert h
  unfold decodeCompressed
  dsimp only
  split_ifs
  · exact fun _ => rfl
  · exact fun _ => rfl
  · exact fun _ => rfl
  · exact fun _ => rfl
  · exact nofun
  · exact nofun

theorem decodeUncompressed_canonical (bs : List Byte) (h : (decodeUncompressed bs).1.inf = true) :
    (decodeUncompressed bs).1 = Affine.id := by
  revert h
  unfold decodeUncompressed
  dsimp only
  split_ifs
  · exact fun _ => rfl
  · exact fun _ => rfl
  · exact fun _ => rfl
  · exact nofun

theorem WrittenA.canonical {i : Instr} {s : State} {v : Affine} (h : WrittenA i s v)
    (hs : CanonicalIdentity s) : v.inf = true → v = Affine.id := by
  cases h with
  | copied a => exact hs a
  | identity => exact fun _ => rfl
  | generator => exact nofun
  | negated a =>
    unfold Affine.neg
    split
    · exact fun _ => rfl
    · exact nofun
  | endo a =>
    intro hinf
    rw [hs a hinf, endo_id]
  | ofPoint a q h =>
    cases q with
    | infinity => exact fun _ => rfl
    | affine x y => exact nofun
  | drawn a n h =>
    unfold drawnAffine
    split
    · exact nofun
    · exact fun _ => rfl
  | compressed bs h => exact decodeCompressed_canonical bs
  | checked bs h hc => exact decodeUncompressed_canonical bs
  | unchecked d off hi bs h => exact decodeUncompressed_canonical bs

/-! ### The invariant of every step (O11) -/

theorem Effect.memory_wf {i : Instr} {s e : State} (h : Effect i s e)
    (hs : Memory.wf s.iobuf = true) : Memory.wf e.iobuf = true := by
  cases h with
  | store a bs hr hf hb => exact s.storeAt_wf a bs hb hs
  | flagOrDraw b hf hm => cases b <;> exact hs
  | _ => exact hs

theorem exec_inv {i : Instr} {s t : State} (hw : wellFormed i = true) (h : exec i s = .next t)
    (hs : Inv s) : Inv t where
  memory := by
    obtain ⟨e, rfl, heff⟩ := exec_next_effect hw h
    exact heff.memory_wf hs.memory
  identity k := (exec_writtenA hw h k).canonical hs.identity
  inFlight := by
    obtain ⟨e, rfl, -⟩ := exec_next_effect hw h
    rfl
  report := by
    obtain ⟨herr, hcode, hinfo⟩ := (exec_frame hw h).report
    simpa only [Reported, herr, hcode, hinfo] using hs.report

theorem engineStep_inv {s t : State} (h : engineStep s = .next t) (hs : Inv s) : Inv t := by
  rcases engineStep_next h with rfl | ⟨i, hw, hi⟩
  · exact hs
  · exact exec_inv hw hi hs

theorem doReset_inv (s : State) : Inv s.doReset where
  memory := rfl
  identity k _ := by simp [State.getA, State.doReset, State.reset]
  inFlight := rfl
  report := ⟨rfl, rfl⟩

/-- `raise` changes nothing but the report, which gets one of the six codes
(60_exceptions.md R363). -/
theorem raise_inv {s : State} (hs : Inv s) (e : CmdError) (info : Word32) :
    Inv (s.raise e info) := by
  cases herr : s.err with
  | true => rwa [State.raise_of_err herr]
  | false =>
    rw [State.raise_of_not_err herr]
    exact { hs with report := ⟨e, rfl⟩ }

theorem HostEffect.inv {s e : State} (h : HostEffect s e) (hs : Inv s) : Inv e := by
  cases h with
  | same => exact hs
  | drew n => exact { hs with }
  | reset => exact doReset_inv s
  | enables d e => exact { hs with }
  | doneBit d => exact { hs with }
  | errCleared d => exact { hs with report := ⟨rfl, rfl⟩ }
  | flags t acc hb => exact { hs with }
  | store a bs ha hb => exact { hs with memory := s.storeAt_wf a bs ha hs.memory }
  | raised e info => exact raise_inv hs e info
  | accepted w i hd he hb => exact { hs with inFlight := ⟨rfl, i, hd⟩ }

theorem hostAccess_inv {s : State} (hs : Inv s) (a : Access) : Inv (hostAccess s a) := by
  obtain ⟨e, r, heq, heff⟩ := hostAccess_effect s a
  rw [heq]
  exact { heff.inv hs with }

/-- No step of a state with an accepted word in flight, or none, stops (60_exceptions.md R381). -/
theorem step_answers {s : State} (h : InFlight s) : ∃ t, step s = .next t := by
  unfold step
  split
  · exact engineStep_answers h
  · next rest _ => exact engineStep_answers (s := { s with agenda := rest }) h
  · exact ⟨_, rfl⟩
  · exact ⟨_, rfl⟩

theorem step_inv {s t : State} (h : step s = .next t) (hs : Inv s) : Inv t := by
  have hs' : Inv { s with agenda := s.agenda.tail } := { hs with }
  rcases step_cases h with ⟨-, he⟩ | ⟨a, -, rfl⟩ | ⟨-, rfl⟩
  · exact engineStep_inv he hs'
  · exact hostAccess_inv hs' a
  · exact doReset_inv _

/-- Settles O11: a step answers by the invariant of the command in flight, and each of the three moves
keeps the four properties. -/
theorem everyStepKeepsTheInvariant : Obligations.EveryStepKeepsTheInvariant := by
  intro s hs
  obtain ⟨t, ht⟩ := step_answers hs.inFlight
  exact ⟨t, ht, step_inv ht hs⟩

/-! ### What a command writes to the P file (10_state.md R43, R57) -/

/-- The values that a command on `s` can leave in a P register: an old one, or what it computes with
a function that keeps the curve. -/
inductive WrittenP (s : State) : PVal → Prop
  | copied (a : RegIdx) : WrittenP s (s.getP a)
  | constant (q : Point) (hq : q.OnCurve) : WrittenP s (.pt q)
  | ofAffine (a : RegIdx) : WrittenP s (fromAffine (s.getA a))
  | mixed (a b : RegIdx) : WrittenP s (addMixed (s.getP a) (s.getA b))
  | unary (a : RegIdx) (f : Point → Point) (hf : ∀ q, q.OnCurve → (f q).OnCurve) :
      WrittenP s ((s.getP a).map f)
  | binary (a b : RegIdx) (f : Point → Point → Point)
      (hf : ∀ q q', q.OnCurve → q'.OnCurve → (f q q').OnCurve) :
      WrittenP s ((s.getP a).map2 f (s.getP b))

theorem WrittenP.setP {s : State} {v : PVal} (h : WrittenP s v) (d k : RegIdx) :
    WrittenP s ((s.setP d v).complete.getP k) := by
  rw [State.complete_getP, State.getP_setP]
  split
  · exact h
  · exact .copied k

theorem ladder_onCurve {q : Point} (h : q.OnCurve) (k : Fr) : (ladder q k.val 256).OnCurve := by
  have hr : r < 2 ^ 256 := by decide +kernel
  rw [ladder_eq_nsmul h _ _ (k.isLt.trans hr)]
  exact Point.nsmul_onCurve h _

theorem clearCofactor_onCurve {q : Point} (h : q.OnCurve) : q.clearCofactor.OnCurve :=
  Point.sub_onCurve h (Point.mulX_onCurve h)

/-- After a command each P register holds its old value or one that the command computes. -/
theorem exec_writtenP {i : Instr} {s t : State} (hw : wellFormed i = true)
    (h : exec i s = .next t) (k : RegIdx) : WrittenP s (t.getP k) := by
  by_cases hk : destP i = some k
  case neg => rw [(exec_frame hw h).projective k hk]; exact .copied k
  cases i with
  | pid d => cases h; exact (WrittenP.constant .infinity trivial).setP d k
  | pgen d => cases h; exact (WrittenP.constant generator generator_onCurve).setP d k
  | pmov d a => cases h; exact (WrittenP.copied a).setP d k
  | pfroma d a => cases h; exact (WrittenP.ofAffine a).setP d k
  | padd d a b =>
    cases h
    exact (WrittenP.binary a b _ fun _ _ => Point.add_onCurve).setP d k
  | paddm d a b => cases h; exact (WrittenP.mixed a b).setP d k
  | pdbl d a =>
    cases h
    exact (WrittenP.unary a _ fun _ hq => Point.add_onCurve hq hq).setP d k
  | pneg d a => cases h; exact (WrittenP.unary a _ fun _ => Point.neg_onCurve).setP d k
  | psub d a b =>
    cases h
    exact (WrittenP.binary a b _ fun _ _ => Point.sub_onCurve).setP d k
  | pmul d a b =>
    cases h
    exact (WrittenP.unary a _ fun _ hq => ladder_onCurve hq _).setP d k
  | pmulx d a => cases h; exact (WrittenP.unary a _ fun _ => Point.mulX_onCurve).setP d k
  | pclr d a => cases h; exact (WrittenP.unary a _ fun _ => clearCofactor_onCurve).setP d k
  | psel d a b =>
    cases h
    refine WrittenP.setP ?_ d k
    split
    · exact .copied a
    · exact .copied b
  | _ => nomatch hk

/-! ### Points stay on the curve (O12) -/

theorem PVal.OnCurve.map2 {f : Point → Point → Point}
    (hf : ∀ q q', q.OnCurve → q'.OnCurve → (f q q').OnCurve) {v v' : PVal} (h : v.OnCurve)
    (h' : v'.OnCurve) : (v.map2 f v').OnCurve := by
  cases v with
  | junk => trivial
  | pt q =>
    cases v' with
    | junk => trivial
    | pt q' => exact hf q q' h h'

theorem fromAffine_onCurve (a : Affine) : (fromAffine a).OnCurve := by
  unfold fromAffine
  split
  · trivial
  · split
    · next hc => exact hc
    · trivial

theorem addMixed_onCurve {v : PVal} (h : v.OnCurve) (a : Affine) : (addMixed v a).OnCurve := by
  unfold addMixed
  split
  · exact h
  · split
    · trivial
    · next hc =>
      have hcurve : onCurve a.x a.y = true := by simpa using hc
      exact h.map2 (fun _ _ => Point.add_onCurve) hcurve

theorem WrittenP.onCurve {s : State} {v : PVal} (h : WrittenP s v) (hs : PointsOnCurve s) :
    v.OnCurve := by
  cases h with
  | copied a => exact hs a
  | constant q hq => exact hq
  | ofAffine a => exact fromAffine_onCurve _
  | mixed a b => exact addMixed_onCurve (hs a) _
  | unary a f hf =>
    have ha := hs a
    revert ha
    cases s.getP a with
    | junk => exact id
    | pt q => exact hf q
  | binary a b f hf => exact (hs a).map2 hf (hs b)

theorem doReset_pointsOnCurve (s : State) : PointsOnCurve s.doReset := by
  intro k
  have hk : s.doReset.getP k = .pt .infinity := by simp [State.getP, State.doReset, State.reset]
  rw [hk]
  trivial

theorem HostEffect.pointsOnCurve {s e : State} (h : HostEffect s e) (hs : PointsOnCurve s) :
    PointsOnCurve e := by
  cases h with
  | reset => exact doReset_pointsOnCurve s
  | raised e info => unfold State.raise; split <;> exact hs
  | _ => exact hs

/-- Settles O12: a command writes a P register only with an old value, a constant point, a checked
affine value or the result of a function that keeps the curve, and no host access but a reset touches
the file. -/
theorem pointsStayOnTheCurve : Obligations.PointsStayOnTheCurve := by
  intro s t hs h
  have hs' : PointsOnCurve { s with agenda := s.agenda.tail } := hs
  rcases step_cases h with ⟨-, he⟩ | ⟨a, -, rfl⟩ | ⟨-, rfl⟩
  · rcases engineStep_next he with rfl | ⟨i, hw, hi⟩
    · exact hs'
    · exact fun k => (exec_writtenP hw hi k).onCurve hs'
  · obtain ⟨e, r, heq, heff⟩ := hostAccess_effect { s with agenda := s.agenda.tail } a
    rw [heq]
    exact heff.pointsOnCurve hs'
  · exact doReset_pointsOnCurve _

/-! ### The frames of the families (O15 to O19) -/

/-- Settles O15: the control commands keep what is outside their footprint, and draw nothing. -/
theorem frameOfControlCommands : Obligations.FrameOfControlCommands := by
  intro i s t hfam hw h
  exact ⟨exec_frame hw h, exec_draws hw h (by simp [hfam]) (by simp [hfam])⟩

/-- Settles O16: the Fp commands keep what is outside their footprint, and draw nothing. -/
theorem frameOfFpCommands : Obligations.FrameOfFpCommands := by
  intro i s t hfam hw h
  exact ⟨exec_frame hw h, exec_draws hw h (by simp [hfam]) (by simp [hfam])⟩

/-- Settles O17: the Scalar commands keep what is outside their footprint, and draw nothing. -/
theorem frameOfScalarCommands : Obligations.FrameOfScalarCommands := by
  intro i s t hfam hw h
  exact ⟨exec_frame hw h, exec_draws hw h (by simp [hfam]) (by simp [hfam])⟩

/-- Settles O18: the projective commands keep what is outside their footprint. -/
theorem frameOfProjectiveCommands : Obligations.FrameOfProjectiveCommands :=
  fun _ _ _ _ hw h => exec_frame hw h

/-- Settles O19: the affine and codec commands keep what is outside their footprint. -/
theorem frameOfAffineCommands : Obligations.FrameOfAffineCommands :=
  fun _ _ _ _ hw h => exec_frame hw h

/-! ### The F file (O20) -/

/-- A command of another family has no F register as its destination. -/
theorem destF_of_family_ne_fp {i : Instr} (h : familyOf i ≠ .fp) : destF i = none := by
  cases i with
  | fseti | fmov | fadd | fsub | fneg | fmul | fsqr | fpow | finv | fsqrt | fsel | fsop | fldb
  | fldm => exact absurd rfl h
  | _ => rfl

theorem exec_freg {i : Instr} {s t : State} (hfam : familyOf i ≠ .fp) (hw : wellFormed i = true)
    (h : exec i s = .next t) : t.freg = s.freg := by
  ext k hk
  have hget := (exec_frame hw h).fp ⟨k, hk⟩ (by simp [destF_of_family_ne_fp hfam])
  exact congrArg Fin.val hget

/-- A command whose effect `g` commutes with the replacement of the F file does not read it. -/
theorem exec_withF {i : Instr} {g : State → State} {s t : State} {f : Vector Fp 16}
    (hg : ∀ u, exec i u = .next (g u).complete)
    (hc : g { s with freg := f } = { g s with freg := f }) (h : exec i s = .next t) :
    exec i { s with freg := f } = .next { t with freg := f } := by
  rw [hg] at h
  cases h
  rw [hg, hc]
  rfl

theorem setTOrDraw_withF (s : State) (f : Vector Fp 16) (b : Option Bool) :
    ({ s with freg := f } : State).setTOrDraw b = { s.setTOrDraw b with freg := f } := by
  cases b <;> rfl

theorem storeAt_withF (s : State) (f : Vector Fp 16) (a : Nat) (bs : List Byte) :
    ({ s with freg := f } : State).storeAt a bs = { s.storeAt a bs with freg := f } := rfl

theorem resultS_withF (s : State) (f : Vector Fp 16) (d : RegIdx) (v : Fr) (ok : Bool) :
    ({ s with freg := f } : State).resultS d v ok = { s.resultS d v ok with freg := f } := rfl

theorem resultA_withF (s : State) (f : Vector Fp 16) (d : RegIdx) (v : Affine) (ok : Bool) :
    ({ s with freg := f } : State).resultA d v ok = { s.resultA d v ok with freg := f } := rfl

theorem exec_withF_of_family {i : Instr} {s t : State} (f : Vector Fp 16)
    (hfam : familyOf i ≠ .fp) (hw : wellFormed i = true) (h : exec i s = .next t) :
    exec i { s with freg := f } = .next { t with freg := f } := by
  obtain ⟨hr, hb⟩ : regRangesFit i = true ∧ bufRangeFits i = true := by
    simpa only [wellFormed, Bool.and_eq_true] using hw
  cases i with
  | fseti | fmov | fadd | fsub | fneg | fmul | fsqr | fpow | finv | fsqrt | fisz | flex | feq | fsel
  | fsop | fldb | fstb | fldm | fstm => exact absurd rfl hfam
  | spow d a off => exact exec_withF (exec_spow d a off · hb) rfl h
  | ssop d a b n =>
    simp only [regRangesFit, Bool.and_eq_true] at hr
    exact exec_withF (exec_ssop d a b n · hr.1 hr.2) rfl h
  | sldb d off => exact exec_withF (exec_sldb d off · hb) (resultS_withF s f d _ _) h
  | sstb a off => exact exec_withF (exec_sstb a off · hb) (storeAt_withF s f _ _) h
  | sldm d off => exact exec_withF (exec_sldm d off · hb) (resultS_withF s f d _ _) h
  | sstm a off => exact exec_withF (exec_sstm a off · hb) (storeAt_withF s f _ _) h
  | sldw d off => exact exec_withF (exec_sldw d off · hb) rfl h
  | sldr d off => exact exec_withF (exec_sldr d off · hb) rfl h
  | pbnorm d a n =>
    simp only [regRangesFit, Bool.and_eq_true] at hr
    exact exec_withF (exec_pbnorm d a n · hr.1 hr.2) rfl h
  | peq a b => exact exec_withF (exec_peq a b) (setTOrDraw_withF s f _) h
  | pisid a => exact exec_withF (exec_pisid a) (setTOrDraw_withF s f _) h
  | ators a => exact exec_withF (exec_ators a) (setTOrDraw_withF s f _) h
  | astc a off => exact exec_withF (exec_astc a off · hb) (storeAt_withF s f _ _) h
  | astu a off => exact exec_withF (exec_astu a off · hb) (storeAt_withF s f _ _) h
  | aldc d off => exact exec_withF (exec_aldc d off · hb) (resultA_withF s f d _ _) h
  | aldcu d off => exact exec_withF (exec_aldcu d off · hb) (resultA_withF s f d _ _) h
  | aldu d off => exact exec_withF (exec_aldu d off · hb) (resultA_withF s f d _ _) h
  | alduu d off => exact exec_withF (exec_alduu d off · hb) (resultA_withF s f d _ _) h
  | _ => cases h; rfl

/-- Settles O20: a command of another family has no F destination, and its effect commutes with the
replacement of the F file. -/
theorem fpFileIsKeptApart : Obligations.FpFileIsKeptApart :=
  fun _ _ _ f hfam hw h => ⟨exec_freg hfam hw h, exec_withF_of_family f hfam hw h⟩

/-! ### The flags (O21, O22; 10_state.md R48, R49) -/

/-- The two flags after an effect: setT's, those of `TNOT`, `TACC` and `ASET`, or the old ones. -/
theorem Effect.flags {i : Instr} {s e : State} (h : Effect i s e) :
    (flagWriting i = true ∧ e.acc = (s.acc && e.t)) ∨
      (flagWriting i = false ∧
        (((i = .tnot ∨ i = .tacc) ∧ e.acc = s.acc) ∨ (i = .aset ∧ e.t = s.t) ∨
          (e.t = s.t ∧ e.acc = s.acc))) := by
  cases h with
  | nop hi => subst hi; exact .inr ⟨rfl, .inr (.inr ⟨rfl, rfl⟩)⟩
  | tnot hi => subst hi; exact .inr ⟨rfl, .inl ⟨.inl rfl, rfl⟩⟩
  | tacc hi => subst hi; exact .inr ⟨rfl, .inl ⟨.inr rfl, rfl⟩⟩
  | aset hi => subst hi; exact .inr ⟨rfl, .inr (.inl ⟨rfl, rfl⟩)⟩
  | resultF _ _ _ _ hf | resultS _ _ _ _ hf | resultA _ _ _ _ hf | flag _ hf => exact .inl ⟨hf, rfl⟩
  | flagOrDraw b hf hm => cases b <;> exact .inl ⟨hf, rfl⟩
  | setF _ _ _ hf | setS _ _ _ hf | setP _ _ _ hf | setA _ _ _ hf | affineDrawn _ _ _ _ hf _
  | affineRange _ _ _ _ hf _ | store _ _ _ hf _ => exact .inr ⟨hf, .inr (.inr ⟨rfl, rfl⟩)⟩

/-- Settles O21: by the three ways in which an effect can treat the flags. -/
theorem flagsAreWrittenBySetT : Obligations.FlagsAreWrittenBySetT := by
  intro i s hw
  obtain ⟨e, he, heff⟩ := exec_effect i s hw
  refine ⟨_, he, ?_⟩
  rw [State.complete_t, State.complete_acc]
  rcases heff.flags with ⟨hf, hacc⟩ | ⟨hf, ⟨hi, hacc⟩ | ⟨rfl, ht⟩ | ⟨ht, hacc⟩⟩
  · refine ⟨fun _ => hacc, ?_, ?_, fun h => (nomatch hf.symm.trans h)⟩
    · rintro (rfl | rfl) <;> cases hf
    · rintro rfl
      cases hf
  · refine ⟨fun h => (nomatch hf.symm.trans h), fun _ => hacc, ?_,
      fun _ h1 h2 => absurd hi (not_or_intro h1 h2)⟩
    rintro rfl
    simp at hi
  · exact ⟨nofun, nofun, fun _ => ht, fun _ _ _ h => absurd rfl h⟩
  · exact ⟨fun h => (nomatch hf.symm.trans h), fun _ => hacc, fun _ => ht,
      fun _ _ _ _ => ⟨ht, hacc⟩⟩

/-! A command that ends in the in-band result of its file gives what R49 asks of its destination. -/

theorem resultF_writesZero {o : Result} {s : State} {d d' : RegIdx} {v : Fp} {ok : Bool}
    (h : o = .next (s.resultF d v ok).complete) : some d = some d' →
      ∃ v ok, o = .next ((s.setF d' v).setT ok).complete ∧ (ok = false → v = toFp 0) := by
  rintro ⟨⟩
  exact ⟨if ok then v else toFp 0, ok, h, by rintro rfl; rfl⟩

theorem resultS_writesZero {o : Result} {s : State} {d d' : RegIdx} {v : Fr} {ok : Bool}
    (h : o = .next (s.resultS d v ok).complete) : some d = some d' →
      ∃ v ok, o = .next ((s.setS d' v).setT ok).complete ∧ (ok = false → v = toFr 0) := by
  rintro ⟨⟩
  exact ⟨if ok then v else toFr 0, ok, h, by rintro rfl; rfl⟩

theorem resultA_writesZero {o : Result} {s : State} {d d' : RegIdx} {v : Affine} {ok : Bool}
    (h : o = .next (s.resultA d v ok).complete) : some (d, 1) = some (d', 1) →
      ∃ v ok, o = .next ((s.setA d' v).setT ok).complete ∧
        (ok = false → v = ⟨toFp 0, toFp 1, true⟩) := by
  rintro ⟨⟩
  exact ⟨if ok then v else Affine.id, ok, h, by rintro rfl; rfl⟩

/-- Settles O22: each of the twelve fallible commands ends in the in-band result of its file; the
other flag-writing commands have no such destination. -/
theorem absenceOfValueWritesZero : Obligations.AbsenceOfValueWritesZero := by
  intro i s d hw hf
  obtain ⟨-, hb⟩ : regRangesFit i = true ∧ bufRangeFits i = true := by
    simpa only [wellFormed, Bool.and_eq_true] using hw
  cases i with
  | finv d a => exact ⟨resultF_writesZero (exec_finv d a s), nofun, nofun⟩
  | fsqrt d a => exact ⟨resultF_writesZero (exec_fsqrt d a s), nofun, nofun⟩
  | fldb d off => exact ⟨resultF_writesZero (exec_fldb d off s hb), nofun, nofun⟩
  | fldm d off => exact ⟨resultF_writesZero (exec_fldm d off s hb), nofun, nofun⟩
  | sinv d a => exact ⟨nofun, resultS_writesZero (exec_sinv d a s), nofun⟩
  | ssqrt d a => exact ⟨nofun, resultS_writesZero (exec_ssqrt d a s), nofun⟩
  | sldb d off => exact ⟨nofun, resultS_writesZero (exec_sldb d off s hb), nofun⟩
  | sldm d off => exact ⟨nofun, resultS_writesZero (exec_sldm d off s hb), nofun⟩
  | aldc d off => exact ⟨nofun, nofun, resultA_writesZero (exec_aldc d off s hb)⟩
  | aldcu d off => exact ⟨nofun, nofun, resultA_writesZero (exec_aldcu d off s hb)⟩
  | aldu d off => exact ⟨nofun, nofun, resultA_writesZero (exec_aldu d off s hb)⟩
  | alduu d off => exact ⟨nofun, nofun, resultA_writesZero (exec_alduu d off s hb)⟩
  | fisz | flex | feq | sisz | slex | seq | peq | pisid | aonc | ators | aeq | aisid =>
    exact ⟨nofun, nofun, nofun⟩
  | _ => cases hf

/-! ### The step and reset (O7, O8) -/

theorem step_of_nil {s : State} (h : s.agenda = []) : step s = engineStep s := by
  simp only [step, h]

theorem step_of_engine {s : State} {rest : List Event} (h : s.agenda = .engine :: rest) :
    step s = engineStep { s with agenda := rest } := by
  simp only [step, h]

theorem step_of_host {s : State} {a : Access} {rest : List Event}
    (h : s.agenda = .host a :: rest) :
    step s = .next (hostAccess { s with agenda := rest } a) := by
  simp only [step, h]

theorem step_of_hardReset {s : State} {rest : List Event} (h : s.agenda = .hardReset :: rest) :
    step s = .next ({ s with agenda := rest } : State).doReset := by
  simp only [step, h]

theorem decode_of_decodeTableWord {nbits w : Nat} {i : Instr}
    (h : decodeTableWord nbits w = some i) : decode (BitVec.ofNat 32 (w % 2 ^ nbits)) = .ok i := by
  unfold decodeTableWord at h
  split at h
  · next hd => cases h; exact hd
  · cases h

/-- Settles O7: one equation of `step` for each form of the agenda, and the engine's move while busy
and while idle. -/
theorem stepRunsTheCommandInFlight : Obligations.StepRunsTheCommandInFlight := by
  refine ⟨fun s w i hb hc hd => ⟨fun h => ?_, fun rest h => ?_⟩, fun nbits w i h => ?_,
    fun s hb => ⟨fun h => ?_, fun rest h => ?_⟩,
    fun s rest => ⟨fun a h => step_of_host h, step_of_hardReset⟩⟩
  · rw [step_of_nil h, engineStep_runs hb hc hd]
  · exact (step_of_engine h).trans (engineStep_runs hb hc hd)
  · exact (step_of_nil rfl).trans (engineStep_runs rfl rfl (decode_of_decodeTableWord h))
  · rw [step_of_nil h, engineStep_idle hb]
  · exact (step_of_engine h).trans (engineStep_idle hb)

theorem reset_registers (k : RegIdx) :
    State.reset.getF k = toFp 0 ∧ State.reset.getS k = toFr 0 ∧
      State.reset.getP k = .pt .infinity ∧ State.reset.getA k = Affine.id := by
  simp [State.getF, State.getS, State.getP, State.getA, State.reset]

/-- The triple (0, 1, 0) represents O (10_state.md R44). -/
theorem triple_0_1_0_value : (⟨toFp 0, toFp 1, toFp 0⟩ : Triple).value = .pt .infinity := by
  decide +kernel

/-- Settles O8: the registers by `reset_registers`, the triple by its lemma, every other piece of
state and every host word by evaluation. -/
theorem resetValues : Obligations.ResetValues := by
  refine ⟨fun k => ?_, triple_0_1_0_value, fun a => rfl, rfl, rfl, rfl, rfl, rfl, rfl, rfl, rfl,
    rfl, rfl, rfl, rfl, rfl, rfl, rfl, rfl, rfl, rfl, rfl, rfl, rfl, fun a => rfl⟩
  obtain ⟨hF, hS, hP, hA⟩ := reset_registers k
  rw [hF, hS, hP, hA]
  exact ⟨rfl, rfl, rfl, rfl⟩

end Sys2Proof.Machine
end

section
/-!
The memory family: the words a host read answers, what each host write does to the core, and the count of
the commands performed (20_memory.md R74-R88).
-/

namespace Sys2Proof.Machine

/-! ### Reads (20_memory.md R75, R88; 70_reset_and_hazards.md R408) -/

theorem hostAccess_wordRead_response (s : State) (off : HostOff) (h : off.toNat % 4 = 0) :
    (hostAccess s (wordRead off)).response = some ⟨(hostReadWord s (hostReg off)).1, false⟩ := by
  rw [hostAccess_wordRead s off h]
  rfl

theorem hostReadWord_idle {s : State} (h : s.busy = false) (r : HostReg) :
    (hostReadWord s r).2 = false := by
  cases r with
  | flags | iobuf => simp [hostReadWord, h]
  | _ => rfl

theorem hostReadWord_exact (s : State) {r : HostReg} (hbuf : ∀ k, r ≠ .iobuf k)
    (hflags : r ≠ .flags) : (hostReadWord s r).2 = false := by
  cases r with
  | flags => exact absurd rfl hflags
  | iobuf a => exact absurd rfl (hbuf a)
  | _ => rfl

theorem hostReadWord_withResponse (s : State) (a : Option Response) (r : HostReg) :
    hostReadWord { s with response := a } r = hostReadWord s r := by
  cases r <;> rfl

/-- A read that does not draw changes the answer on the bus alone. -/
theorem hostRead_of_not_drawn {s : State} {r : HostReg} (h : (hostReadWord s r).2 = false) :
    hostRead s r = { s with response := some ⟨(hostReadWord s r).1, false⟩ } := by
  simp only [hostRead, h, Bool.false_eq_true, if_false]

theorem hostRead_repeated {s : State} {r : HostReg} (h : (hostReadWord s r).2 = false) :
    hostRead (hostRead s r) r = hostRead s r := by
  have hword : hostReadWord (hostRead s r) r = hostReadWord s r := by
    rw [hostRead_of_not_drawn h, hostReadWord_withResponse]
  rw [hostRead_of_not_drawn (by rwa [hword]), hword, hostRead_of_not_drawn h]

theorem hostAccess_read {a : Access} (hk : a.kind = .read) (hl : accessLegal a = true) (s : State) :
    hostAccess s a = hostRead s (hostReg a.offset) := by
  simp only [hostAccess, hl, hk, if_true]

theorem hostAccess_read_coreOf {a : Access} (hk : a.kind = .read) (s : State) :
    (hostAccess s a).coreOf = s.coreOf ∧ (hostAccess s a).agenda = s.agenda := by
  cases hl : accessLegal a with
  | false =>
    rw [hostAccess_illegal s a hl]
    exact ⟨rfl, rfl⟩
  | true =>
    rw [hostAccess_read hk hl]
    exact ⟨rfl, rfl⟩

theorem hostAccess_read_repeated {s : State} {a : Access} (hk : a.kind = .read)
    (h : (hostReadWord s (hostReg a.offset)).2 = false) :
    hostAccess (hostAccess s a) a = hostAccess s a := by
  cases hl : accessLegal a with
  | false => simp only [hostAccess_illegal _ a hl]
  | true => simp only [hostAccess_read hk hl, hostRead_repeated h]

/-! ### The words of the registers as numbers (20_memory.md R76, R79-R81) -/

theorem toNat_append_eq_add {m n : Nat} (x : BitVec m) (y : BitVec n) :
    (x ++ y).toNat = x.toNat * 2 ^ n + y.toNat := by
  rw [BitVec.toNat_append, ← Nat.shiftLeft_add_eq_or_of_lt y.isLt, Nat.shiftLeft_eq]

theorem State.ctrlWord_eq (s : State) :
    s.ctrlWord = BitVec.ofNat 32 (2 * s.ieDone.toNat + 4 * s.ieErr.toNat) := by
  unfold State.ctrlWord
  cases s.ieDone <;> cases s.ieErr <;> rfl

theorem State.statusWord_eq (s : State) :
    s.statusWord = BitVec.ofNat 32 (s.busy.toNat + 2 * s.done.toNat + 4 * s.err.toNat +
      256 * s.errCode.toNat) := by
  apply BitVec.eq_of_toNat_eq
  have hcode := s.errCode.isLt
  have hbusy := s.busy.toNat_le
  have hdone := s.done.toNat_le
  have herr := s.err.toNat_le
  simp only [State.statusWord, toNat_append_eq_add, BitVec.toNat_ofBool, BitVec.toNat_ofNat]
  omega

theorem State.flagBits_setWidth (s : State) :
    s.flagBits.setWidth 32 = BitVec.ofNat 32 (s.t.toNat + 2 * s.acc.toNat) := by
  unfold State.flagBits
  cases s.t <;> cases s.acc <;> rfl

/-- The lanes of a word: the first byte least significant (20_memory.md R76). -/
theorem ofNat_leInt_four (b0 b1 b2 b3 : Byte) :
    BitVec.ofNat 32 (leInt [b0, b1, b2, b3]) = b3 ++ b2 ++ b1 ++ b0 := by
  apply BitVec.eq_of_toNat_eq
  have h0 := b0.isLt
  have h1 := b1.isLt
  have h2 := b2.isLt
  have h3 := b3.isLt
  simp only [leInt, toNat_append_eq_add, BitVec.toNat_ofNat]
  omega

theorem State.bufWord_eq (s : State) (a : Nat) :
    s.bufWord a = readByte s.iobuf (a + 3) ++ readByte s.iobuf (a + 2) ++
      readByte s.iobuf (a + 1) ++ readByte s.iobuf a :=
  ofNat_leInt_four _ _ _ _

theorem hostReadWord_flags {s : State} (h : s.busy = false) :
    hostReadWord s .flags = (s.flagBits.setWidth 32, false) := by
  simp [hostReadWord, h]

theorem hostReadWord_iobuf {s : State} (h : s.busy = false) (a : Nat) :
    hostReadWord s (.iobuf a) = (s.bufWord a, false) := by
  simp [hostReadWord, h]

/-- Settles O25: a read that does not draw changes the answer alone, so that it repeats; the words are
those of the registers. -/
theorem readsHaveNoSideEffect : Obligations.ReadsHaveNoSideEffect := by
  refine ⟨fun s a hk => ?_, fun s => ⟨?_, ?_, ?_, ?_, fun hb => ?_, ?_⟩⟩
  · obtain ⟨hcore, hagenda⟩ := hostAccess_read_coreOf hk s
    exact ⟨hcore, hagenda, fun hb => hostAccess_read_repeated hk (hostReadWord_idle hb _),
      fun hbuf hflags => hostAccess_read_repeated hk (hostReadWord_exact s hbuf hflags)⟩
  · exact hostAccess_wordRead_response s 0x00 rfl
  · exact hostAccess_wordRead_response s 0x04 rfl
  · rw [← State.ctrlWord_eq]
    exact hostAccess_wordRead_response s 0x08 rfl
  · rw [← State.statusWord_eq]
    exact hostAccess_wordRead_response s 0x0C rfl
  · have hreg : hostReg 0x10 = .flags := rfl
    rw [hostAccess_wordRead_response s 0x10 rfl, hreg, hostReadWord_flags hb, State.flagBits_setWidth]
  · exact hostAccess_wordRead_response s 0x1C rfl

/-! ### Bus errors (20_memory.md R75) -/

theorem accessLegal_iff (a : Access) :
    accessLegal a = true ↔ a.width = .word ∧ a.offset.toNat % 4 = 0 := by
  simp [accessLegal]

theorem hostAccess_legal_response {a : Access} (hl : accessLegal a = true) (s : State) :
    ∃ data, (hostAccess s a).response = some ⟨data, false⟩ := by
  cases hk : a.kind with
  | read =>
    rw [hostAccess_read hk hl]
    exact ⟨_, rfl⟩
  | write w =>
    rw [hostAccess, if_pos hl, hk]
    exact ⟨0, rfl⟩

/-- Settles O26: the two sides of the test of width and alignment. -/
theorem wrongAccessIsABusError : Obligations.WrongAccessIsABusError := by
  refine fun s a => ⟨fun h => hostAccess_illegal s a ?_, fun hw ho =>
    hostAccess_legal_response ((accessLegal_iff a).mpr ⟨hw, ho⟩) s⟩
  rw [← Bool.not_eq_true, accessLegal_iff, not_and_or]
  exact h

/-! ### Writes of CTRL and STATUS (20_memory.md R79, R80) -/

theorem writeCtrl_of_not_sreset (s : State) {w : Word32} (h : w.getLsbD 0 = false) :
    writeCtrl s w = { s with ieDone := w.getLsbD 1, ieErr := w.getLsbD 2 } := by
  simp only [writeCtrl, h, Bool.false_eq_true, if_false]

theorem writeStatus_eq (s : State) (w : Word32) :
    writeStatus s w =
      { s with
        done := s.done && !w.getLsbD 1
        err := s.err && !w.getLsbD 2
        errCode := if w.getLsbD 2 then 0 else s.errCode
        errInfo := if w.getLsbD 2 then 0 else s.errInfo } := by
  unfold writeStatus
  cases w.getLsbD 1 <;> cases w.getLsbD 2 <;> simp

theorem State.irq_eq_true_iff (s : State) :
    s.irq = true ↔ (s.ieDone = true ∧ s.done = true) ∨ (s.ieErr = true ∧ s.err = true) := by
  simp [State.irq]

theorem State.irq_of_no_cause {s : State} (hdone : s.done = false) (herr : s.err = false) :
    s.irq = false := by
  simp [State.irq, hdone, herr]

/-- Settles O29: the equations of the two writes, and the OR of the enabled causes. -/
theorem statusCausesAndInterrupt : Obligations.StatusCausesAndInterrupt := by
  refine fun s w => ⟨fun h => ?_, ?_, State.irq_eq_true_iff s, ?_⟩
  · rw [hostAccess_writeCtrl, writeCtrl_of_not_sreset s h]
    rfl
  · rw [hostAccess_writeStatus, writeStatus_eq]
    rfl
  · rw [hostAccess_writeStatus, writeStatus_eq]
    exact State.irq_of_no_cause (by simp) (by simp)

/-! ### Reserved offsets and bits (20_memory.md R77) -/

theorem hostWrite_readOnly {off : HostOff} (s : State) (w : Word32)
    (h : hostReg off = .id ∨ hostReg off = .version ∨ hostReg off = .cmdcnt ∨
      hostReg off = .errinfo ∨ hostReg off = .reserved) : hostWrite s off w = s := by
  unfold hostWrite
  rcases h with h | h | h | h | h <;> rw [h]

/-- A write whose register ignores it changes nothing of the core. -/
theorem coreOf_wordWrite_of_ignored {s : State} {off : HostOff} {w : Word32}
    (hal : off.toNat % 4 = 0) (h : hostWrite s off w = s) :
    (hostAccess s (wordWrite off w)).coreOf = s.coreOf := by
  rw [hostAccess_wordWrite s off w hal, h]
  rfl

/-- The assigned bits of CTRL are 2:0. -/
theorem writeCtrl_mask (s : State) (w : Word32) : writeCtrl s (w &&& 7) = writeCtrl s w := by
  simp [writeCtrl]

/-- The bits of STATUS that a write reads are 2 and 1. -/
theorem writeStatus_mask (s : State) (w : Word32) : writeStatus s (w &&& 6) = writeStatus s w := by
  simp [writeStatus]

theorem State.ctrlWord_reserved (s : State) : s.ctrlWord &&& 0xFFFFFFF9 = 0 := by
  unfold State.ctrlWord
  cases s.ieDone <;> cases s.ieErr <;> rfl

theorem State.statusWord_reserved (s : State) : s.statusWord &&& 0xFFFF00F8 = 0 := by
  have hmask : (0xFFFF00F8 : Word32) = 0xFFFF#16 ++ 0#8 ++ 0x1F#5 ++ 0#1 ++ 0#1 ++ 0#1 := rfl
  rw [hmask, State.statusWord]
  repeat rw [BitVec.and_append]
  simp only [BitVec.and_zero, BitVec.zero_and]
  rfl

theorem setWidth_flags_reserved (b : BitVec 2) : b.setWidth 32 &&& (0xFFFFFFFC : Word32) = 0 := by
  revert b
  decide

/-- Settles O27: a reserved offset is no register, the writes of the registers read their assigned bits
only, and the reserved bits of the words read are 0. -/
theorem reservedReadsZeroIgnoresWrites : Obligations.ReservedReadsZeroIgnoresWrites := by
  refine ⟨fun s off hlo hhi hal => ?_, fun s off w hoff => ?_, fun s w => ⟨?_, ?_, ?_⟩,
    fun s => ⟨State.ctrlWord_reserved s, State.statusWord_reserved s, ?_, rfl⟩⟩
  · have hreg := hostReg_reserved off hlo hhi
    refine ⟨?_, fun w => coreOf_wordWrite_of_ignored hal (hostWrite_readOnly s w ?_)⟩
    · rw [hostAccess_wordRead_response s off hal, hreg]
      rfl
    · simp [hreg]
  · simp only [List.mem_cons, List.not_mem_nil, or_false] at hoff
    rcases hoff with rfl | rfl | rfl | rfl <;> exact coreOf_wordWrite_of_ignored rfl rfl
  · rw [hostAccess_writeCtrl, hostAccess_writeCtrl, writeCtrl_mask]
  · rw [hostAccess_writeStatus, hostAccess_writeStatus, writeStatus_mask]
  · rw [hostAccess_writeFlags, hostAccess_writeFlags]
    simp
  · unfold hostReadWord
    cases s.busy with
    | false => exact setWidth_flags_reserved _
    | true => exact setWidth_flags_reserved _

/-! ### Words of IOBUF (20_memory.md R76) -/

section
variable {off : HostOff} {k : Nat} (hoff : off.toNat = 0x1000 + 4 * k)
include hoff

theorem hostReg_bufferWord : hostReg off = .iobuf (4 * k) := by
  rw [hostReg_buffer off (by omega), hoff, Nat.add_sub_cancel_left]

theorem hostAccess_readBufferWord {s : State} (hb : s.busy = false) :
    (hostAccess s (wordRead off)).response = some ⟨s.bufWord (4 * k), false⟩ := by
  rw [hostAccess_wordRead_response s off (by omega), hostReg_bufferWord hoff, hostReadWord_iobuf hb]

theorem hostAccess_writeBufferWord {s : State} (hb : s.busy = false) (w : Word32) :
    hostAccess s (wordWrite off w) =
      { s.storeAt (4 * k) (leBytes 4 w.toNat) with response := some ⟨0, false⟩ } := by
  rw [hostAccess_wordWrite s off w (by omega), hostWrite, hostReg_bufferWord hoff]
  simp only [writeWhenIdle, hb, Bool.false_eq_true, if_false]

end

theorem State.bufWord_storeAt {s : State} (hm : Memory.wf s.iobuf = true) {a : Nat} (ha : a + 4 ≤ 4096)
    (w : Word32) : (s.storeAt a (leBytes 4 w.toNat)).bufWord a = w := by
  have hread := s.readBytes_storeAt a (leBytes 4 w.toNat) (by rwa [leBytes_length]) hm
  have hw : w.toNat < 256 ^ 4 := w.isLt
  rw [leBytes_length] at hread
  rw [State.bufWord, hread, leInt_leBytes, Nat.mod_eq_of_lt hw, BitVec.ofNat_toNat,
    BitVec.setWidth_eq]

/-- Settles O28: the word read is the four bytes in lanes, and a word written is the store of its four
little-endian bytes. -/
theorem bufferWordsAreLittleEndian : Obligations.BufferWordsAreLittleEndian := by
  intro s k w hm hb hk
  have hoff : (BitVec.ofNat 13 (0x1000 + 4 * k)).toNat = 0x1000 + 4 * k := by
    rw [BitVec.toNat_ofNat]
    omega
  generalize BitVec.ofNat 13 (0x1000 + 4 * k) = off at hoff ⊢
  rw [hostAccess_readBufferWord hoff hb, State.bufWord_eq, hostAccess_writeBufferWord hoff hb]
  refine ⟨rfl, ?_, rfl, fun a ha => ?_⟩
  · refine (hostAccess_readBufferWord hoff ?_).trans ?_
    · exact hb
    · exact congrArg (fun v => some (Response.mk v false)) (State.bufWord_storeAt hm (by omega) w)
  · exact readByte_writeBytes_other _ _ _ _ (by rwa [leBytes_length])

/-! ### The count of the commands (20_memory.md R83) -/

theorem State.raise_cmdcnt (s : State) (e : CmdError) (info : Word32) :
    (s.raise e info).cmdcnt = s.cmdcnt := by
  unfold State.raise
  split <;> rfl

theorem Effect.cmdcnt {i : Instr} {s e : State} (h : Effect i s e) : e.cmdcnt = s.cmdcnt := by
  cases h with
  | flagOrDraw b => cases b <;> rfl
  | _ => rfl

theorem engineStep_cmdcnt {s t : State} (hi : InFlight s) (h : engineStep s = .next t) :
    t.cmdcnt = if s.busy then s.cmdcnt + 1 else s.cmdcnt := by
  rcases engineStep_cases hi h with ⟨hb, rfl⟩ | ⟨hb, w, i, e, -, -, -, -, heff, rfl⟩
  · simp [hb]
  · simp [hb, heff.cmdcnt]

theorem writeWhenIdle_cmdcnt {s u : State} (off : HostOff) (h : u.cmdcnt = s.cmdcnt) :
    (writeWhenIdle s off u).cmdcnt = s.cmdcnt := by
  unfold writeWhenIdle
  split
  · exact State.raise_cmdcnt s _ _
  · exact h

theorem writeCmd_cmdcnt (s : State) (w : Word32) : (writeCmd s w).cmdcnt = s.cmdcnt := by
  unfold writeCmd
  split
  · rfl
  · split
    · exact State.raise_cmdcnt s _ _
    · split
      · exact State.raise_cmdcnt s _ _
      · rfl

/-- No host write but a soft reset writes CMDCNT: an accepted, refused or dropped one does not. -/
theorem hostWrite_cmdcnt (s : State) (off : HostOff) (w : Word32)
    (h : hostReg off = .ctrl → w.getLsbD 0 = false) : (hostWrite s off w).cmdcnt = s.cmdcnt := by
  unfold hostWrite
  split
  · next hreg => rw [writeCtrl_of_not_sreset s (h hreg)]
  · rw [writeStatus_eq]
  · exact writeWhenIdle_cmdcnt off rfl
  · exact writeCmd_cmdcnt s w
  · exact writeWhenIdle_cmdcnt off rfl
  all_goals rfl

theorem hostAccess_cmdcnt (s : State) (a : Access) :
    (hostAccess s a).cmdcnt = if a.resets then 0 else s.cmdcnt := by
  cases hr : a.resets with
  | true =>
    obtain ⟨r, heq⟩ := hostAccess_resets s a hr
    rw [heq]
    rfl
  | false =>
    unfold hostAccess
    split
    · next hl =>
      split
      · rfl
      · next w hk =>
        refine hostWrite_cmdcnt s a.offset w fun hreg => ?_
        simpa [Access.resets, hk, hl, hreg] using hr
    · rfl

/-- Settles O33: one equation for each of the three moves. -/
theorem cmdcntCountsPerformedCommands : Obligations.CmdcntCountsPerformedCommands := by
  refine ⟨fun s t hs h => ?_, fun s w => ⟨?_, hostAccess_wordRead_response s 0x18 rfl⟩⟩
  · rcases step_cases h with ⟨hev, he⟩ | ⟨a, hev, rfl⟩ | ⟨hev, rfl⟩
    · rw [hev]
      exact engineStep_cmdcnt (s := { s with agenda := s.agenda.tail }) hs.inFlight he
    · rw [hev]
      exact hostAccess_cmdcnt _ a
    · rw [hev]
      rfl
  · rw [hostAccess_wordWrite s 0x18 w rfl]
    exact hostWrite_cmdcnt s 0x18 w nofun

end Sys2Proof.Machine
end

section
/-!
The encoding family: what the decoder answers, by the first test of 30_encoding.md R121 that fails; then
both directions between commands and words, and the words that the acceptance check refuses.
-/

namespace Sys2Proof.Machine

/-! ### The opcode map (30_encoding.md R116, R117) -/

/-- The word of a format, from an opcode and the fields that the format uses (30_encoding.md R111). -/
def wordOf (fmt : Format) (op : BitVec 8) (f : Fields) : Word32 :=
  match fmt with
  | .z => wordZ op
  | .r3 => wordR3 op f.d f.a f.b
  | .r2 => wordR2 op f.d f.a
  | .r1d => wordR1d op f.d
  | .r1a => wordR1a op f.a
  | .r2ab => wordR2ab op f.a f.b
  | .i => wordI op f.d f.imm
  | .ml => wordMl op f.d f.off
  | .ms => wordMs op f.a f.off
  | .mx => wordMx op f.d f.a f.off
  | .n => wordN op f.d f.a f.b f.n
  | .n2 => wordN2 op f.d f.a f.n

/-- What the opcode map builds has the opcode it was built from, and its word holds the fields it was built
from: one case for each row of the map. -/
theorem opcode_and_word_of_build {op : Nat} {f : Fields} {i : Instr} (h : build op f = some i) :
    (opcodeOf i).toNat = op ∧ encode i = wordOf (formatOf i) (opcodeOf i) f := by
  unfold build at h
  split at h <;> cases h <;> exact ⟨rfl, rfl⟩

/-- An opcode of the map builds a command of the opcode's format from any fields. -/
theorem build_opcodeOf (i : Instr) (f : Fields) :
    ∃ j, build (opcodeOf i).toNat f = some j ∧ formatOf j = formatOf i := by
  cases i <;> exact ⟨_, rfl, rfl⟩

/-- No row of the map has an unassigned opcode. -/
theorem not_unassigned_opcodeOf (i : Instr) : ¬ Unassigned (opcodeOf i).toNat := by
  cases i <;> simp [Unassigned, opcodeOf]

/-- The opcodes without a row are exactly those that R117 lists. -/
theorem build_eq_none_iff (op : Nat) (f : Fields) : build op f = none ↔ Unassigned op := by
  constructor
  · intro h
    unfold build at h
    split at h
    case h_79 => -- the last row: `op` is none of the 78 opcodes
      simp only [imp_false] at *
      unfold Unassigned
      omega
    all_goals cases h
  · intro h
    cases hb : build op f with
    | none => rfl
    | some i =>
      obtain ⟨rfl, -⟩ := opcode_and_word_of_build hb
      exact absurd h (not_unassigned_opcodeOf i)

/-! ### The answer of the decoder (30_encoding.md R121) -/

theorem decode_of_build {w : Word32} {i : Instr} (h : build (opField w).toNat (fieldsOf w) = some i) :
    decode w =
      if w &&& mbzMask (formatOf i) ≠ 0#32 then .error .reserved
      else if !regRangesFit i then .error .rangeReg
      else if !bufRangeFits i then .error .rangeBuf
      else .ok i := by
  unfold decode
  rw [h]

theorem decode_illegalOp_iff (w : Word32) :
    decode w = .error .illegalOp ↔ build (opField w).toNat (fieldsOf w) = none := by
  cases h : build (opField w).toNat (fieldsOf w) with
  | none => simp [decode, h]
  | some i =>
    rw [decode_of_build h]
    split_ifs <;> simp

/-- What an accepted word passed: the opcode map names its command, and its must-be-zero bits are 0. -/
theorem build_and_mbz_of_decode {w : Word32} {i : Instr} (h : decode w = .ok i) :
    build (opField w).toNat (fieldsOf w) = some i ∧ w &&& mbzMask (formatOf i) = 0#32 := by
  cases hb : build (opField w).toNat (fieldsOf w) with
  | none => cases h.symm.trans ((decode_illegalOp_iff w).mpr hb)
  | some j =>
    rw [decode_of_build hb] at h
    split_ifs at h with hm
    cases h
    exact ⟨rfl, not_not.mp hm⟩

/-! ### From a command to its word and back (O1, O2) -/

/-- The word of every command holds its opcode, zeros in the must-be-zero bits and its operands. -/
theorem wordForm_statement : ∀ i : Instr, Laws.WordForm.Statement i
  | .nop => Laws.WordForm.nop
  | .tnot => Laws.WordForm.tnot
  | .aset => Laws.WordForm.aset
  | .tacc => Laws.WordForm.tacc
  | .fseti d imm => Laws.WordForm.fseti d imm
  | .fmov d a => Laws.WordForm.fmov d a
  | .fadd d a b => Laws.WordForm.fadd d a b
  | .fsub d a b => Laws.WordForm.fsub d a b
  | .fneg d a => Laws.WordForm.fneg d a
  | .fmul d a b => Laws.WordForm.fmul d a b
  | .fsqr d a => Laws.WordForm.fsqr d a
  | .fpow d a off => Laws.WordForm.fpow d a off
  | .finv d a => Laws.WordForm.finv d a
  | .fsqrt d a => Laws.WordForm.fsqrt d a
  | .fisz a => Laws.WordForm.fisz a
  | .flex a => Laws.WordForm.flex a
  | .feq a b => Laws.WordForm.feq a b
  | .fsel d a b => Laws.WordForm.fsel d a b
  | .fsop d a b n => Laws.WordForm.fsop d a b n
  | .fldb d off => Laws.WordForm.fldb d off
  | .fstb a off => Laws.WordForm.fstb a off
  | .fldm d off => Laws.WordForm.fldm d off
  | .fstm a off => Laws.WordForm.fstm a off
  | .sseti d imm => Laws.WordForm.sseti d imm
  | .smov d a => Laws.WordForm.smov d a
  | .sadd d a b => Laws.WordForm.sadd d a b
  | .ssub d a b => Laws.WordForm.ssub d a b
  | .sneg d a => Laws.WordForm.sneg d a
  | .smul d a b => Laws.WordForm.smul d a b
  | .ssqr d a => Laws.WordForm.ssqr d a
  | .spow d a off => Laws.WordForm.spow d a off
  | .sinv d a => Laws.WordForm.sinv d a
  | .ssqrt d a => Laws.WordForm.ssqrt d a
  | .sisz a => Laws.WordForm.sisz a
  | .slex a => Laws.WordForm.slex a
  | .seq a b => Laws.WordForm.seq a b
  | .ssel d a b => Laws.WordForm.ssel d a b
  | .ssop d a b n => Laws.WordForm.ssop d a b n
  | .sldb d off => Laws.WordForm.sldb d off
  | .sstb a off => Laws.WordForm.sstb a off
  | .sldm d off => Laws.WordForm.sldm d off
  | .sstm a off => Laws.WordForm.sstm a off
  | .sdbl d a => Laws.WordForm.sdbl d a
  | .sldw d off => Laws.WordForm.sldw d off
  | .sldr d off => Laws.WordForm.sldr d off
  | .pid d => Laws.WordForm.pid d
  | .pgen d => Laws.WordForm.pgen d
  | .pmov d a => Laws.WordForm.pmov d a
  | .pfroma d a => Laws.WordForm.pfroma d a
  | .ptoa d a => Laws.WordForm.ptoa d a
  | .pbnorm d a n => Laws.WordForm.pbnorm d a n
  | .padd d a b => Laws.WordForm.padd d a b
  | .paddm d a b => Laws.WordForm.paddm d a b
  | .pdbl d a => Laws.WordForm.pdbl d a
  | .pneg d a => Laws.WordForm.pneg d a
  | .psub d a b => Laws.WordForm.psub d a b
  | .pmul d a b => Laws.WordForm.pmul d a b
  | .pmulx d a => Laws.WordForm.pmulx d a
  | .pclr d a => Laws.WordForm.pclr d a
  | .peq a b => Laws.WordForm.peq a b
  | .pisid a => Laws.WordForm.pisid a
  | .psel d a b => Laws.WordForm.psel d a b
  | .aid d => Laws.WordForm.aid d
  | .agen d => Laws.WordForm.agen d
  | .amov d a => Laws.WordForm.amov d a
  | .aneg d a => Laws.WordForm.aneg d a
  | .aendo d a => Laws.WordForm.aendo d a
  | .aonc a => Laws.WordForm.aonc a
  | .ators a => Laws.WordForm.ators a
  | .aeq a b => Laws.WordForm.aeq a b
  | .aisid a => Laws.WordForm.aisid a
  | .asel d a b => Laws.WordForm.asel d a b
  | .astc a off => Laws.WordForm.astc a off
  | .astu a off => Laws.WordForm.astu a off
  | .aldc d off => Laws.WordForm.aldc d off
  | .aldcu d off => Laws.WordForm.aldcu d off
  | .aldu d off => Laws.WordForm.aldu d off
  | .alduu d off => Laws.WordForm.alduu d off

/-- The word of a command passes the first two tests: the operand checks alone decide its answer. -/
theorem decode_encode (i : Instr) :
    decode (encode i) =
      if !regRangesFit i then .error .rangeReg
      else if !bufRangeFits i then .error .rangeBuf
      else .ok i := by
  obtain ⟨hop, hmbz, hbuild⟩ := wordForm_statement i
  rw [← hop] at hbuild
  rw [decode_of_build hbuild, if_neg (not_not.mpr hmbz)]

/-- Settles O1: a command whose ranges fit passes the operand checks. -/
theorem decodeOfEncode : Obligations.DecodeOfEncode := by
  intro i h
  obtain ⟨hreg, hbuf⟩ : regRangesFit i = true ∧ bufRangeFits i = true := by
    simpa only [wellFormed, Bool.and_eq_true] using h
  rw [decode_encode, hreg, hbuf]
  rfl

theorem wordOf_fieldsOf {fmt : Format} {w : Word32} (h : w &&& mbzMask fmt = 0#32) :
    wordOf fmt (opField w) (fieldsOf w) = w := by
  cases fmt with
  | z => exact wordZ_fieldsOf w h
  | r3 => exact wordR3_fieldsOf w h
  | r2 => exact wordR2_fieldsOf w h
  | r1d => exact wordR1d_fieldsOf w h
  | r1a => exact wordR1a_fieldsOf w h
  | r2ab => exact wordR2ab_fieldsOf w h
  | i => exact wordI_fieldsOf w h
  | ml => exact wordMl_fieldsOf w h
  | ms => exact wordMs_fieldsOf w h
  | mx => exact wordMx_fieldsOf w h
  | n => exact wordN_fieldsOf w h
  | n2 => exact wordN2_fieldsOf w h

/-- Settles O2: an accepted word has the opcode and the fields of its command, and nothing else. -/
theorem encodeOfDecode : Obligations.EncodeOfDecode := by
  intro w i h
  obtain ⟨hbuild, hmbz⟩ := build_and_mbz_of_decode h
  obtain ⟨hop, hword⟩ := opcode_and_word_of_build hbuild
  refine ⟨?_, decode_wellFormed h⟩
  rw [hword, BitVec.eq_of_toNat_eq hop, wordOf_fieldsOf hmbz]

/-! ### Refused words (O4, O5; 60_exceptions.md R363, R366) -/

/-- A refused word written to CMD is reported, and nothing else of the core changes. -/
theorem hostAccess_writeCmd_refused {s : State} {w : Word32} {e : CmdError} (hd : decode w = .error e)
    (herr : s.err = false) (hbusy : s.busy = false) :
    (hostAccess s (wordWrite 0x14 w)).coreOf =
      { s.coreOf with err := true, errCode := errorCode e, errInfo := w } := by
  have hw : writeCmd s w = s.raise e w := by simp [writeCmd, herr, hbusy, hd]
  rw [hostAccess_writeCmd, hw, State.raise_of_not_err herr]
  rfl

/-- Settles O4: the opcode map has no command exactly at the unassigned opcodes. -/
theorem unassignedOpcodesRefused : Obligations.UnassignedOpcodesRefused := by
  intro w
  have hiff : decode w = .error .illegalOp ↔ Unassigned (opField w).toNat :=
    (decode_illegalOp_iff w).trans (build_eq_none_iff _ _)
  exact ⟨hiff, fun s herr hbusy hop => hostAccess_writeCmd_refused (hiff.mpr hop) herr hbusy⟩

/-- Settles O5: the word's own command has the format of every command of the same opcode. -/
theorem reservedBitsRefused : Obligations.ReservedBitsRefused := by
  intro w i hop hmbz
  obtain ⟨j, hbuild, hfmt⟩ := build_opcodeOf i (fieldsOf w)
  rw [← hop] at hbuild
  have hd : decode w = .error .reserved := by
    rw [decode_of_build hbuild, hfmt]
    exact if_pos hmbz
  exact ⟨hd, fun s herr hbusy => hostAccess_writeCmd_refused hd herr hbusy⟩

/-! ### The operand checks (O6; 30_encoding.md R114, R115) -/

/-- A command with an IOBUF operand moves 32, 48, 64 or 96 bytes, and has no register range. -/
theorem xferLen_and_regRangesFit_of_offOf {i : Instr} {off : BufOff} (h : offOf i = some off) :
    (xferLen i = 32 ∨ xferLen i = 48 ∨ xferLen i = 64 ∨ xferLen i = 96) ∧ regRangesFit i = true := by
  cases i with
  | spow | sldb | sstb | sldm | sstm | sldr => exact ⟨.inl rfl, rfl⟩
  | fpow | fldb | fstb | fldm | fstm | astc | aldc | aldcu => exact ⟨.inr (.inl rfl), rfl⟩
  | sldw => exact ⟨.inr (.inr (.inl rfl)), rfl⟩
  | astu | aldu | alduu => exact ⟨.inr (.inr (.inr rfl)), rfl⟩
  | _ => cases h

theorem decode_encode_of_offOf {i : Instr} {off : BufOff} (h : offOf i = some off) :
    decode (encode i) = if off.toNat + xferLen i ≤ 4096 then .ok i else .error .rangeBuf := by
  obtain ⟨-, hreg⟩ := xferLen_and_regRangesFit_of_offOf h
  have hfit : bufRangeFits i = true ↔ off.toNat + xferLen i ≤ 4096 := by
    rw [bufRangeFits, h]
    exact bufFits_iff off (xferLen i)
  simp only [decode_encode, hreg, ← hfit]
  cases bufRangeFits i <;> rfl

/-- The answer for a command of two register ranges with the count less one `n`, and no IOBUF operand. -/
theorem decode_encode_of_ranges {i : Instr} {base1 base2 n : RegIdx}
    (hreg : regRangesFit i = (rangeFits base1 n && rangeFits base2 n)) (hbuf : bufRangeFits i = true) :
    decode (encode i) =
      if base1.val + n.val ≤ 15 ∧ base2.val + n.val ≤ 15 then .ok i else .error .rangeReg := by
  have hfit : regRangesFit i = true ↔ base1.val + n.val ≤ 15 ∧ base2.val + n.val ≤ 15 := by
    rw [hreg, Bool.and_eq_true, rangeFits_iff, rangeFits_iff]
    omega
  simp only [decode_encode, hbuf, ← hfit]
  cases regRangesFit i <;> rfl

/-- Settles O6: the limit on OFF is 4096 less the length, and the last index of a range is base + N. -/
theorem operandRangesChecked : Obligations.OperandRangesChecked := by
  refine ⟨fun i off h => ?_, fun d a b n => ⟨decode_encode_of_ranges rfl rfl,
    decode_encode_of_ranges rfl rfl, decode_encode_of_ranges rfl rfl⟩⟩
  obtain ⟨hlen, -⟩ := xferLen_and_regRangesFit_of_offOf h
  refine ⟨hlen, ?_⟩
  rw [decode_encode_of_offOf h]
  congr 1
  rcases hlen with hlen | hlen | hlen | hlen <;> simp [hlen]

end Sys2Proof.Machine
end

section
/-!
The Fp family: what the stored results of the field commands are as values; then the arithmetic, the
moves, the predicates, the loads and stores, and the Montgomery multiplier (40_fp.md, 41_scalar.md).
-/

namespace Sys2Proof.Machine

/-! ### The values of stored results (00_scope.md R19; 40_fp.md R144-R147) -/

theorem valF_modAdd (a b : Fp) : valF (modAdd a b) = modAdd (valF a) (valF b) := by
  apply toZ_injective
  rw [toZ_valF, toZ_modAdd, toZ_modAdd, toZ_valF, toZ_valF, add_mul]

theorem valF_modSub (a b : Fp) : valF (modSub a b) = modSub (valF a) (valF b) := by
  apply toZ_injective
  rw [toZ_valF, toZ_modSub, toZ_modSub, toZ_valF, toZ_valF, sub_mul]

theorem valF_modNeg (a : Fp) : valF (modNeg a) = modNeg (valF a) := by
  apply toZ_injective
  rw [toZ_valF, toZ_modNeg, toZ_modNeg, toZ_valF, neg_mul]

theorem valF_montMulF (a b : Fp) : valF (montMulF a.val b.val) = valF a * valF b := by
  apply toZ_injective
  rw [toZ_valF, toZ_montMulF, toZ_mul, toZ_valF, toZ_valF, toZ_val, toZ_val]
  ring

theorem valF_montF_toFp_val (n : Nat) : (valF (montF (toFp n))).val = n % p := by
  rw [valF_montF, toFp_val]

theorem valS_montS_toFr_val (n : Nat) : (valS (montS (toFr n))).val = n % r := by
  rw [valS_montS, toFr_val]

/-! ### The ring commands (O34) -/

/-- Settles O34: `valF` commutes with the adder, the subtractor, the negator and the multiplier. -/
theorem fpRingCommands : Obligations.FpRingCommands := by
  intro d a b s
  refine ⟨⟨_, exec_fadd d a b s, ?_⟩, ⟨_, exec_fsub d a b s, ?_⟩, ⟨_, exec_fneg d a s, ?_⟩,
    ⟨_, exec_fmul d a b s, ?_⟩, ⟨_, exec_fsqr d a s, ?_⟩⟩
  · rw [valF_modAdd, modAdd_val]
  · rw [valF_modSub, modSub_val, Nat.add_sub_assoc (valF (s.getF b)).isLt.le]
  · rw [valF_modNeg, modNeg_val]
  · rw [valF_montMulF, Fin.val_mul]
  · rw [valF_montMulF, Fin.val_mul, pow_two]

/-! ### Immediates, moves and selects (O36) -/

/-- An immediate is below both moduli. -/
theorem immValue_lt (imm : BitVec 16) : immValue imm < p ∧ immValue imm < r := by
  have h : immValue imm < 2 ^ 16 := imm.isLt
  exact ⟨h.trans (by decide), h.trans (by decide)⟩

/-- Settles O36: an immediate needs no reduction; a move or a select is its command's own equation. -/
theorem fieldConstantsMovesSelects : Obligations.FieldConstantsMovesSelects := by
  intro d a b imm s
  obtain ⟨hp, hr⟩ := immValue_lt imm
  refine ⟨⟨_, exec_fseti d imm s, ?_⟩, ⟨_, exec_sseti d imm s, ?_⟩, exec_fmov d a s, exec_smov d a s,
    exec_fsel d a b s, exec_ssel d a b s⟩
  · rw [valF_montF_toFp_val, Nat.mod_eq_of_lt hp, immValue]
  · rw [valS_montS_toFr_val, Nat.mod_eq_of_lt hr, immValue]

/-! ### Powers (O37) -/

theorem bufFits_of_le {off : BufOff} {n k : Nat} (h : off.toNat ≤ k) (hk : k + n = 4096) :
    bufFits off n = true :=
  (bufFits_iff off n).mpr (by omega)

/-- An exponent of n bytes is one of 8n bits. -/
theorem leInt_readBytes_lt (m : Memory) (a n : Nat) : leInt (readBytes m a n) < 2 ^ (8 * n) := by
  have h := leInt_lt (readBytes m a n)
  rwa [readBytes_length, show 256 = 2 ^ 8 from rfl, ← pow_mul] at h

/-- Settles O37: the exponent has no more bits than the power unit takes. -/
theorem fieldPowers : Obligations.FieldPowers := by
  intro d a off s
  refine ⟨fun h => ⟨_, exec_fpow d a off s (bufFits_of_le h rfl), ?_⟩,
    fun h => ⟨_, exec_spow d a off s (bufFits_of_le h rfl), ?_⟩⟩
  · rw [valF_montF, modPow_val _ _ _ (leInt_readBytes_lt s.iobuf off.toNat 48)]
  · rw [valS_montS, modPow_val _ _ _ (leInt_readBytes_lt s.iobuf off.toNat 32)]

/-! ### The in-band result of a fallible command (10_state.md R49) -/

theorem exists_of_resultF {o : Result} {s : State} {d : RegIdx} {v : Fp} {ok : Bool}
    {P : Fp → Bool → Prop} (h : o = .next (s.resultF d v ok).complete)
    (hval : ok = true → P v true) (hnone : ok = false → P (toFp 0) false) :
    ∃ x ok', o = .next ((s.setF d x).setT ok').complete ∧ P x ok' := by
  cases ok with
  | true => exact ⟨v, true, h, hval rfl⟩
  | false => exact ⟨toFp 0, false, h, hnone rfl⟩

theorem exists_of_resultS {o : Result} {s : State} {d : RegIdx} {v : Fr} {ok : Bool}
    {P : Fr → Bool → Prop} (h : o = .next (s.resultS d v ok).complete)
    (hval : ok = true → P v true) (hnone : ok = false → P (toFr 0) false) :
    ∃ x ok', o = .next ((s.setS d x).setT ok').complete ∧ P x ok' := by
  cases ok with
  | true => exact ⟨v, true, h, hval rfl⟩
  | false => exact ⟨toFr 0, false, h, hnone rfl⟩

/-! ### Equality and zero of stored values and of their values (00_scope.md R19) -/

theorem valF_inj_val (a b : Fp) : (valF a).val = (valF b).val ↔ a = b :=
  ⟨fun h => valF_injective (Fin.ext h), fun h => h ▸ rfl⟩

theorem valS_inj_val (a b : Fr) : (valS a).val = (valS b).val ↔ a = b :=
  ⟨fun h => valS_injective (Fin.ext h), fun h => h ▸ rfl⟩

theorem valF_zero : (valF (toFp 0)).val = 0 := by decide +kernel

theorem valS_zero : (valS (toFr 0)).val = 0 := by decide +kernel

theorem valF_eq_zero_iff (a : Fp) : (valF a).val = 0 ↔ a.val = 0 := by
  have h := valF_inj_val a (toFp 0)
  rwa [valF_zero, Fin.ext_iff, toFp_val, Nat.zero_mod] at h

theorem valS_eq_zero_iff (a : Fr) : (valS a).val = 0 ↔ a.val = 0 := by
  have h := valS_inj_val a (toFr 0)
  rwa [valS_zero, Fin.ext_iff, toFr_val, Nat.zero_mod] at h

/-! ### Inverses (O38) -/

/-- A field inverse, as integers: the product with a value that is not 0 is 1 modulo m. -/
theorem inverse_mul_mod {m : Nat} [Fact m.Prime] {u v : Fin m} (h : toZ v = (toZ u)⁻¹)
    (hu : u.val ≠ 0) : v.val * u.val % m = 1 := by
  have hm : 1 < m := (Fact.out : m.Prime).one_lt
  have hu0 : toZ u ≠ 0 := fun h0 =>
    hu (Nat.eq_zero_of_dvd_of_lt ((ZMod.natCast_eq_zero_iff _ _).mp h0) u.isLt)
  have hvu : toZ (v * u) = ((1 : Nat) : ZMod m) := by
    rw [toZ_mul, h, inv_mul_cancel₀ hu0, Nat.cast_one]
  rw [← Fin.val_mul, val_of_toZ hvu, Nat.mod_eq_of_lt hm]

/-- Settles O38: the result is valid exactly for a source that is not 0, and then Fermat's power is the
inverse. -/
theorem fieldInverses : Obligations.FieldInverses := by
  have := fact_p
  have := fact_r
  intro d a s
  refine ⟨exists_of_resultF (exec_finv d a s) (fun hok => ?_) (fun hok => ?_),
    exists_of_resultS (exec_sinv d a s) (fun hok => ?_) (fun hok => ?_)⟩
  · have hne : (s.getF a).val ≠ 0 := by simpa [modInvF] using hok
    refine ⟨fun _ => ⟨rfl, ?_⟩, fun h0 => absurd h0 hne⟩
    rw [modInvF, valF_montF]
    exact inverse_mul_mod (toZ_fpInv _) (mt (valF_eq_zero_iff _).mp hne)
  · have h0 : (s.getF a).val = 0 := by simpa [modInvF] using hok
    exact ⟨fun hne => absurd h0 hne, fun _ => ⟨rfl, rfl⟩⟩
  · have hne : (s.getS a).val ≠ 0 := by simpa [modInvS] using hok
    refine ⟨fun _ => ⟨rfl, ?_⟩, fun h0 => absurd h0 hne⟩
    rw [modInvS, valS_montS]
    exact inverse_mul_mod (toZ_frInv _) (mt (valS_eq_zero_iff _).mp hne)
  · have h0 : (s.getS a).val = 0 := by simpa [modInvS] using hok
    exact ⟨fun hne => absurd h0 hne, fun _ => ⟨rfl, rfl⟩⟩

/-! ### Square roots of Fp (O39; 40_fp.md R149) -/

theorem sqrtExpP_eq : sqrtExpP = (p + 1) / 4 := by decide +kernel

theorem fpSqrt_val (u : Fp) : (fpSqrt u).1.val = u.val ^ ((p + 1) / 4) % p := by
  rw [fpSqrt, modPow_val 384 u sqrtExpP (by decide +kernel), sqrtExpP_eq]

theorem fpSqrt_ok_iff (u : Fp) :
    (fpSqrt u).2 = true ↔ (fpSqrt u).1 * (fpSqrt u).1 = u := beq_iff_eq

/-- The candidate of a square z² is a root: its square is z^(p+1) = z². -/
theorem fpSqrt_ok_iff_square (u : Fp) :
    (fpSqrt u).2 = true ↔ ∃ y : Nat, y * y % p = u.val := by
  have := fact_p
  rw [fpSqrt_ok_iff, square_iff, ← toZ_injective.eq_iff, toZ_mul]
  refine ⟨fun h => ⟨_, h⟩, fun ⟨z, hz⟩ => ?_⟩
  have hcand : toZ (fpSqrt u).1 = toZ u ^ sqrtExpP :=
    toZ_modPow 384 u sqrtExpP (by decide +kernel)
  calc toZ (fpSqrt u).1 * toZ (fpSqrt u).1
      = z ^ (4 * sqrtExpP) := by rw [hcand, ← hz]; ring
    _ = z ^ p * z := by rw [show 4 * sqrtExpP = p + 1 by decide +kernel, pow_succ]
    _ = toZ u := by rw [ZMod.pow_card, hz]

/-- Settles O39: the unit's flag is its own test of the candidate, which every square passes. -/
theorem fpSquareRoots : Obligations.FpSquareRoots := by
  intro d a s
  refine exists_of_resultF (exec_fsqrt d a s) (fun hok => ?_) (fun hok => ?_)
  · refine ⟨iff_of_true rfl ((fpSqrt_ok_iff_square _).mp hok), fun _ => ?_, nofun⟩
    rw [valF_montF, ← Fin.val_mul, (fpSqrt_ok_iff _).mp hok]
    exact ⟨rfl, fpSqrt_val _⟩
  · have hns : ¬ ∃ y : Nat, y * y % p = (valF (s.getF a)).val := by
      rw [← fpSqrt_ok_iff_square, hok]
      nofun
    exact ⟨iff_of_false nofun hns, nofun, fun _ => rfl⟩

/-! ### Predicates (O41) -/

theorem beq_eq_decide_valF (a b : Fp) : (a == b) = decide ((valF a).val = (valF b).val) := by
  rw [Bool.eq_iff_iff, beq_iff_eq, decide_eq_true_iff, valF_inj_val]

theorem beq_eq_decide_valS (a b : Fr) : (a == b) = decide ((valS a).val = (valS b).val) := by
  rw [Bool.eq_iff_iff, beq_iff_eq, decide_eq_true_iff, valS_inj_val]

theorem halfP_eq : halfP = (p - 1) / 2 := by decide +kernel

theorem halfR_eq : halfR = (r - 1) / 2 := by decide +kernel

/-- Settles O41: stored values are equal exactly when their values are, and the stored 0 has value 0. -/
theorem fieldPredicates : Obligations.FieldPredicates := by
  intro a b s
  refine ⟨?_, ?_, ?_, ?_, ?_, ?_⟩
  · rw [exec_fisz, beq_eq_decide_valF, valF_zero]
  · rw [exec_flex, lexF, halfP_eq]
  · rw [exec_feq, beq_eq_decide_valF]
  · rw [exec_sisz, beq_eq_decide_valS, valS_zero]
  · rw [exec_slex, lexS, halfR_eq]
  · rw [exec_seq, beq_eq_decide_valS]

/-! ### Sums of products (O42; 30_encoding.md R115) -/

theorem rangeFits_of_le {base n : RegIdx} (h : base.val + n.val ≤ 15) : rangeFits base n = true :=
  (rangeFits_iff base n).mpr (by omega)

/-- A register range, element by element. -/
theorem readRange_eq_map {α : Type} (v : Vector α 16) {base : RegIdx} {n : Nat}
    (h : base.val + n ≤ 16) : readRange v base n = (List.range n).map fun k => v[rangeIdx base k] := by
  have hlen := readRange_length v base n h
  refine List.ext_getElem (by simp [hlen]) fun k hk _ => ?_
  have hidx : (rangeIdx base k).val = base.val + k := Nat.mod_eq_of_lt (by omega)
  rw [readRange_getElem v base n k hk (by omega)]
  simp [hidx]

/-- The products of two ranges, element by element. -/
theorem sumOfProducts_readRange {α : Type} (v : Vector α 16) (f : α → Nat) {a b : RegIdx} {n : Nat}
    (ha : a.val + n ≤ 16) (hb : b.val + n ≤ 16) :
    sumOfProducts ((readRange v a n).map f) ((readRange v b n).map f) =
      ((List.range n).map fun k => f v[rangeIdx a k] * f v[rangeIdx b k]).sum := by
  rw [readRange_eq_map v ha, readRange_eq_map v hb, sumOfProducts, List.map_map, List.map_map,
    List.zipWith_map, List.zipWith_self]
  rfl

/-- Settles O42: the two ranges are lists over one range of indices. -/
theorem sumsOfProducts : Obligations.SumsOfProducts := by
  intro d a b n s ha hb
  have hfa := rangeFits_of_le ha
  have hfb := rangeFits_of_le hb
  have hna : a.val + countOf n ≤ 16 := (rangeFits_iff a n).mp hfa
  have hnb : b.val + countOf n ≤ 16 := (rangeFits_iff b n).mp hfb
  refine ⟨⟨_, exec_fsop d a b n s hfa hfb, ?_⟩, ⟨_, exec_ssop d a b n s hfa hfb, ?_⟩⟩
  · rw [valF_montF_toFp_val, sumOfProducts_readRange _ _ hna hnb]
    simp only [State.getF, countOf]
  · rw [valS_montS_toFr_val, sumOfProducts_readRange _ _ hna hnb]
    simp only [State.getS, countOf]

/-! ### Loads and stores (O43) -/

theorem p_le_pow_bytes : p ≤ 256 ^ 48 := by decide +kernel

theorem beInt_beBytes_val (x : Fp) : beInt (beBytes 48 x.val) = x.val := by
  rw [beInt_beBytes, Nat.mod_eq_of_lt (x.isLt.trans_le p_le_pow_bytes)]

theorem leInt_leBytes_val (x : Fp) : leInt (leBytes 48 x.val) = x.val := by
  rw [leInt_leBytes, Nat.mod_eq_of_lt (x.isLt.trans_le p_le_pow_bytes)]

/-- A load of the bytes of an integer below p: the integer is an element of Fp, and T = 1. -/
theorem resultF_of_eq_val (s : State) (d : RegIdx) (g : Fp → Fp) {n : Nat} {v : Fp} (h : n = v.val) :
    s.resultF d (g (toFp n)) (n < p) = (s.setF d (g v)).setT true := by
  rw [h, toFp_val_self, decide_eq_true v.isLt]
  rfl

theorem exec_fldb_of_eq_val (d : RegIdx) {off : BufOff} {s : State} {v : Fp}
    (hfit : bufFits off 48 = true) (h : beInt (readBytes s.iobuf off.toNat 48) = v.val) :
    exec (.fldb d off) s = .next ((s.setF d (montF v)).setT true).complete := by
  rw [exec_fldb d off s hfit, resultF_of_eq_val s d montF h]

theorem exec_fldm_of_eq_val (d : RegIdx) {off : BufOff} {s : State} {v : Fp}
    (hfit : bufFits off 48 = true) (h : leInt (readBytes s.iobuf off.toNat 48) = v.val) :
    exec (.fldm d off) s = .next ((s.setF d v).setT true).complete := by
  have hres := resultF_of_eq_val s d id h
  rw [id_eq, id_eq] at hres
  rw [exec_fldm d off s hfit, hres]

/-- What a command stored reads back. -/
theorem readBytes_complete_storeAt {s : State} {off : BufOff} {bs : List Byte} {n : Nat}
    (hn : bs.length = n) (hfit : bufFits off n = true) (hm : Memory.wf s.iobuf = true) :
    readBytes (s.storeAt off.toNat bs).complete.iobuf off.toNat n = bs :=
  readBytes_writeBytes s.iobuf off.toNat bs n hn ((bufFits_iff off n).mp hfit) hm

/-- Settles O43: the loads by the two cases of their result, the round trips by reading back the bytes of
a value below p. -/
theorem fpLoadsAndStores : Obligations.FpLoadsAndStores := by
  intro d a off s hoff
  have hfit : bufFits off 48 = true := bufFits_of_le hoff rfl
  refine ⟨exists_of_resultF (exec_fldb d off s hfit) (fun hok => ?_) (fun hok => ?_),
    exists_of_resultF (exec_fldm d off s hfit) (fun hok => ?_) (fun hok => ?_),
    fun hm => ⟨⟨_, exec_fstb a off s hfit, ?_⟩, ⟨_, exec_fstm a off s hfit, ?_⟩⟩⟩
  · have hlt := of_decide_eq_true hok
    refine ⟨fun _ => ⟨rfl, ?_⟩, fun hge => absurd hlt hge.not_gt⟩
    rw [valF_montF_toFp_val, Nat.mod_eq_of_lt hlt]
  · exact ⟨fun hlt => absurd hlt (of_decide_eq_false hok), fun _ => ⟨rfl, rfl⟩⟩
  · have hlt := of_decide_eq_true hok
    exact ⟨fun _ => ⟨rfl, Nat.mod_eq_of_lt hlt⟩, fun hge => absurd hlt hge.not_gt⟩
  · exact ⟨fun hlt => absurd hlt (of_decide_eq_false hok), fun _ => ⟨rfl, rfl⟩⟩
  · have hread : beInt (readBytes (s.storeAt off.toNat
        (beBytes 48 (valF (s.getF a)).val)).complete.iobuf off.toNat 48) = (valF (s.getF a)).val := by
      rw [readBytes_complete_storeAt (beBytes_length _ _) hfit hm, beInt_beBytes_val]
    refine ⟨hread, ?_⟩
    rw [exec_fldb_of_eq_val d hfit hread, montF_valF]
  · have hread : leInt (readBytes (s.storeAt off.toNat
        (leBytes 48 (s.getF a).val)).complete.iobuf off.toNat 48) = (s.getF a).val := by
      rw [readBytes_complete_storeAt (leBytes_length _ _) hfit hm, leInt_leBytes_val]
    exact ⟨hread, exec_fldm_of_eq_val d hfit hread⟩

/-! ### The Montgomery multiplier (O57; 40_fp.md R141-R144) -/

/-- A round adds a multiple of m. -/
theorem reduceRounds_modEq (m mPrime n i t : Nat) : reduceRounds m mPrime n i t ≡ t [MOD m] := by
  induction n generalizing i t with
  | zero => rfl
  | succ n ih =>
    refine (ih _ _).trans ?_
    rw [Nat.ModEq, mul_right_comm, Nat.add_mul_mod_self_right]

/-- The multiples of m that n rounds add: at most 2^64 − 1 times m in each limb. -/
theorem reduceRounds_le (m mPrime n i t : Nat) :
    reduceRounds m mPrime n i t + m * 2 ^ (64 * i) ≤ t + m * 2 ^ (64 * (i + n)) := by
  induction n generalizing i t with
  | zero => exact le_rfl
  | succ n ih =>
    rw [reduceRounds]
    generalize hk : t / 2 ^ (64 * i) % 2 ^ 64 * mPrime % 2 ^ 64 = k
    have hk1 : k + 1 ≤ 2 ^ 64 := hk ▸ Nat.mod_lt _ (by norm_num)
    have hstep : (k + 1) * (m * 2 ^ (64 * i)) ≤ m * 2 ^ (64 * (i + 1)) :=
      calc (k + 1) * (m * 2 ^ (64 * i)) ≤ 2 ^ 64 * (m * 2 ^ (64 * i)) := Nat.mul_le_mul_right _ hk1
        _ = m * 2 ^ (64 * (i + 1)) := by ring
    have hrest := ih (i + 1) (t + k * m * 2 ^ (64 * i))
    rw [add_right_comm i 1 n, add_assoc i n 1] at hrest
    linarith

/-- The limb that a round clears: q + k·m is 0 modulo 2^64 for k = q·m', because m·m' is −1 (R140). -/
theorem dvd_add_quotient_mul {m mPrime : Nat} (h : 2 ^ 64 ∣ m * mPrime + 1) (q : Nat) :
    2 ^ 64 ∣ q + q % 2 ^ 64 * mPrime % 2 ^ 64 * m := by
  have hk : q % 2 ^ 64 * mPrime % 2 ^ 64 ≡ q * mPrime [MOD 2 ^ 64] :=
    (Nat.mod_modEq _ _).trans ((Nat.mod_modEq q _).mul_right mPrime)
  rw [((hk.mul_right m).add_left q).dvd_iff dvd_rfl,
    show q + q * mPrime * m = q * (m * mPrime + 1) by ring]
  exact h.mul_left q

/-- Each round clears one more limb. -/
theorem reduceRounds_dvd {m mPrime : Nat} (h : 2 ^ 64 ∣ m * mPrime + 1) (n : Nat) {i t : Nat}
    (ht : 2 ^ (64 * i) ∣ t) : 2 ^ (64 * (i + n)) ∣ reduceRounds m mPrime n i t := by
  induction n generalizing i t with
  | zero => exact ht
  | succ n ih =>
    rw [reduceRounds, show i + (n + 1) = i + 1 + n by ring]
    refine ih ?_
    obtain ⟨q, rfl⟩ := ht
    rw [Nat.mul_div_cancel_left q (by positivity), show 64 * (i + 1) = 64 * i + 64 by ring, pow_add,
      mul_comm _ (2 ^ (64 * i)), ← mul_add]
    exact Nat.mul_dvd_mul_left _ (dvd_add_quotient_mul h q)

/-- The unit's result c is below m, and c·R = a·b modulo m for R = 2^(64·limbs). -/
theorem montMulUnit_spec {m mPrime limbs bits a b : Nat} (h : 2 ^ 64 ∣ m * mPrime + 1)
    (hbits : 64 * limbs = bits) (hab : a * b < m * 2 ^ bits) :
    montMulUnit m mPrime limbs a b < m ∧
      montMulUnit m mPrime limbs a b * 2 ^ bits ≡ a * b [MOD m] := by
  have hmod := reduceRounds_modEq m mPrime limbs 0 (a * b)
  have hle := Nat.le_of_add_right_le (reduceRounds_le m mPrime limbs 0 (a * b))
  obtain ⟨u, hu⟩ := reduceRounds_dvd h limbs (i := 0) (one_dvd (a * b))
  rw [Nat.zero_add, hbits] at hu hle
  rw [montMulUnit, hbits]
  rw [hu] at hmod hle ⊢
  have hR : 0 < 2 ^ bits := by positivity
  generalize 2 ^ bits = R at *
  rw [Nat.mul_div_cancel_left u hR]
  have hu2 : u < 2 * m := Nat.lt_of_mul_lt_mul_left (a := R) (by linarith)
  rw [mul_comm R u] at hmod
  split
  · next hmu =>
    refine ⟨by omega, Nat.ModEq.trans ?_ hmod⟩
    exact ((Nat.modEq_iff_dvd' (Nat.sub_le u m)).mpr (by rw [Nat.sub_sub_self hmu])).mul_right R
  · next hmu => exact ⟨Nat.lt_of_not_le hmu, hmod⟩

/-- A reduced c with c·R = n modulo m is n·R⁻¹ mod m. -/
theorem eq_mul_inverse_mod {m R rInv c n : Nat} (hR : R * rInv % m = 1) (hlt : c < m)
    (hc : c * R ≡ n [MOD m]) : c = n * rInv % m := by
  have hm : 1 % m = 1 := by rw [← hR, Nat.mod_mod]
  have hone : R * rInv ≡ 1 [MOD m] := hR.trans hm.symm
  have hcn : c * 1 ≡ n * rInv [MOD m] :=
    calc c * 1 ≡ c * (R * rInv) [MOD m] := (hone.mul_left c).symm
      _ = c * R * rInv := (mul_assoc c R rInv).symm
      _ ≡ n * rInv [MOD m] := hc.mul_right rInv
  rw [← hcn, mul_one, Nat.mod_eq_of_lt hlt]

/-- Settles O57: the unit's result is reduced and is a·b times the inverse of the radix. -/
theorem montgomeryLoopIsClosedForm : Obligations.MontgomeryLoopIsClosedForm := by
  refine ⟨fun a b hab => ?_, fun a b hab => ?_⟩
  · obtain ⟨hlt, hmod⟩ := montMulUnit_spec (mPrime := pInv64) (limbs := 6) (bits := 384)
      (by decide +kernel) rfl hab
    exact eq_mul_inverse_mod rpInv_spec hlt hmod
  · obtain ⟨hlt, hmod⟩ := montMulUnit_spec (mPrime := rInv64) (limbs := 4) (bits := 256)
      (by decide +kernel) rfl hab
    exact eq_mul_inverse_mod rsInv_spec hlt hmod

/-! ### Words of the Example lines (O3) -/

/-- Settles O3: each word is the word of its command, which is well-formed. -/
theorem specWordsDecode : Obligations.SpecWordsDecode :=
  ⟨decodeOfEncode (.fseti 1 7) rfl, decodeOfEncode (.fmul 3 1 2) rfl,
    decodeOfEncode (.fpow 1 0 0x100) rfl, decodeOfEncode (.fsop 0 1 5 1) rfl,
    decodeOfEncode (.sldb 1 0x40) rfl, decodeOfEncode (.pgen 0) rfl,
    decodeOfEncode (.pbnorm 4 0 2) rfl, decodeOfEncode (.pmul 1 0 0) rfl,
    decodeOfEncode (.aeq 0 1) rfl, decodeOfEncode (.alduu 1 0x30) rfl,
    decodeOfEncode .nop rfl, decodeOfEncode .tacc rfl⟩

end Sys2Proof.Machine
end

section
/-!
The Scalar family: what the stored results of the Scalar commands are as values; then the arithmetic, the
square root, and the loads and stores (41_scalar.md).
-/

namespace Sys2Proof.Machine

/-! ### The values of stored results (00_scope.md R19; 41_scalar.md R200, R201) -/

theorem valS_modAdd (a b : Fr) : valS (modAdd a b) = modAdd (valS a) (valS b) := by
  apply toZ_injective
  rw [toZ_valS, toZ_modAdd, toZ_modAdd, toZ_valS, toZ_valS, add_mul]

theorem valS_modSub (a b : Fr) : valS (modSub a b) = modSub (valS a) (valS b) := by
  apply toZ_injective
  rw [toZ_valS, toZ_modSub, toZ_modSub, toZ_valS, toZ_valS, sub_mul]

theorem valS_modNeg (a : Fr) : valS (modNeg a) = modNeg (valS a) := by
  apply toZ_injective
  rw [toZ_valS, toZ_modNeg, toZ_modNeg, toZ_valS, neg_mul]

theorem valS_montMulS (a b : Fr) : valS (montMulS a.val b.val) = valS a * valS b := by
  apply toZ_injective
  rw [toZ_valS, toZ_montMulS, toZ_mul, toZ_valS, toZ_valS, toZ_val, toZ_val]
  ring

/-! ### The ring commands (O35) -/

/-- Settles O35: `valS` commutes with the adder, the subtractor, the negator and the multiplier. -/
theorem scalarRingCommands : Obligations.ScalarRingCommands := by
  intro d a b s
  refine ⟨⟨_, exec_sadd d a b s, ?_⟩, ⟨_, exec_ssub d a b s, ?_⟩, ⟨_, exec_sneg d a s, ?_⟩,
    ⟨_, exec_smul d a b s, ?_⟩, ⟨_, exec_ssqr d a s, ?_⟩, ⟨_, exec_sdbl d a s, ?_⟩⟩
  · rw [valS_modAdd, modAdd_val]
  · rw [valS_modSub, modSub_val, Nat.add_sub_assoc (valS (s.getS b)).isLt.le]
  · rw [valS_modNeg, modNeg_val]
  · rw [valS_montMulS, Fin.val_mul]
  · rw [valS_montMulS, Fin.val_mul, pow_two]
  · rw [modDbl, valS_modAdd, modAdd_val, two_mul]

/-! ### Square roots of the Scalar field (O40; R203) -/

/-- Of a root and its negation, the one that is at most HALF_R. -/
def lesserRoot (y : Fr) : Fr := if lexS y then modNeg y else y

theorem toZ_lesserRoot_mul_self (y : Fr) :
    toZ (lesserRoot y) * toZ (lesserRoot y) = toZ y * toZ y := by
  unfold lesserRoot
  split
  · rw [toZ_modNeg, neg_mul_neg]
  · rfl

theorem lesserRoot_le (y : Fr) : (lesserRoot y).val ≤ (r - 1) / 2 := by
  have hodd : r = 2 * ((r - 1) / 2) + 1 := by decide +kernel
  have hlex : lexS y = true ↔ (r - 1) / 2 < y.val := by rw [← halfR_eq, lexS, decide_eq_true_iff]
  unfold lesserRoot
  generalize (r - 1) / 2 = half at hodd hlex ⊢
  split
  · next h =>
    have hy := hlex.mp h
    have hle := Nat.mod_le (r - y.val) r
    rw [modNeg_val]
    omega
  · next h => exact Nat.le_of_not_lt (mt hlex.mpr h)

/-- The candidate of the unit: the Tonelli-Shanks rounds for r − 1 = 2^32·t with the non-residue 5. -/
def tonelliRoot (u : Fr) : Fr :=
  tonelli 31 (modPow 256 u ((oddPart + 1) / 2)) (modPow 256 u oddPart) (modPow 256 (toFr 5) oddPart)

theorem scSqrt_fst {u : Fr} (hok : (scSqrt u).2 = true) : (scSqrt u).1 = lesserRoot (tonelliRoot u) :=
  if_pos hok

theorem toZ_eq_zero_iff (u : Fr) : toZ u = 0 ↔ u = toFr 0 := by
  rw [← toZ_injective.eq_iff, toZ_toFr, Nat.cast_zero]

/-- The test of the unit is Euler's criterion. -/
theorem scSqrt_ok_iff (u : Fr) :
    (scSqrt u).2 = true ↔ u = toFr 0 ∨ toZ u ^ ((r - 1) / 2) = 1 := by
  have hpow : modPow 256 u ((r - 1) / 2) = toFr 1 ↔ toZ u ^ ((r - 1) / 2) = 1 := by
    rw [← toZ_injective.eq_iff, toZ_modPow _ _ _ (by decide +kernel), toZ_toFr, Nat.cast_one]
  rw [← hpow]
  simp only [scSqrt, Bool.or_eq_true, beq_iff_eq]

theorem scSqrt_ok_iff_square (u : Fr) :
    (scSqrt u).2 = true ↔ ∃ y : Nat, y * y % r = u.val := by
  have := fact_r
  rw [scSqrt_ok_iff, square_iff]
  by_cases hu : u = toFr 0
  · refine iff_of_true (.inl hu) ⟨0, ?_⟩
    rw [(toZ_eq_zero_iff u).mpr hu, mul_zero]
  · rw [or_iff_right hu, show (r - 1) / 2 = r / 2 by decide +kernel,
      ← ZMod.euler_criterion r (mt (toZ_eq_zero_iff u).mp hu)]
    simp only [IsSquare, eq_comm]

/-- 5 is a non-residue modulo r. -/
theorem five_pow_half : (5 : ZMod r) ^ ((r - 1) / 2) = -1 := by
  have h : modPow 256 (toFr 5) ((r - 1) / 2) = modNeg (toFr 1) := by decide +kernel
  have h' := congrArg toZ h
  rwa [toZ_modPow _ _ _ (by decide +kernel), toZ_modNeg, toZ_toFr, toZ_toFr, Nat.cast_ofNat,
    Nat.cast_one] at h'

/-- The candidate of a square that is not 0 is a root: the rounds start with x² = u·b for b = u^t. -/
theorem tonelliRoot_mul_self {u : Fr} (h : toZ u ^ ((r - 1) / 2) = 1) :
    toZ (tonelliRoot u) * toZ (tonelliRoot u) = toZ u := by
  have hhalf : oddPart * 2 ^ 31 = (r - 1) / 2 := by decide +kernel
  refine tonelli_spec 31 _ _ _ (toZ u) ?_ ?_ ?_
  · rw [toZ_modPow _ _ _ (by decide +kernel), toZ_modPow _ _ _ (by decide +kernel), ← pow_add,
      show (oddPart + 1) / 2 + (oddPart + 1) / 2 = oddPart + 1 by decide +kernel, pow_succ']
  · rw [toZ_modPow _ _ _ (by decide +kernel), ← pow_mul, hhalf, h]
  · rw [toZ_modPow _ _ _ (by decide +kernel), ← pow_mul, hhalf, toZ_toFr, Nat.cast_ofNat, five_pow_half]

theorem tonelliRoot_zero : tonelliRoot (toFr 0) = toFr 0 := by decide +kernel

theorem scSqrt_mul_self {u : Fr} (hok : (scSqrt u).2 = true) : (scSqrt u).1 * (scSqrt u).1 = u := by
  apply toZ_injective
  rw [toZ_mul, scSqrt_fst hok, toZ_lesserRoot_mul_self]
  rcases (scSqrt_ok_iff u).mp hok with rfl | hpow
  · rw [tonelliRoot_zero, (toZ_eq_zero_iff _).mpr rfl, mul_zero]
  · exact tonelliRoot_mul_self hpow

/-- Settles O40: the flag is Euler's criterion, and of the two roots the unit takes the lesser. -/
theorem scalarSquareRoots : Obligations.ScalarSquareRoots := by
  intro d a s
  refine exists_of_resultS (exec_ssqrt d a s) (fun hok => ?_) (fun hok => ?_)
  · refine ⟨iff_of_true rfl ((scSqrt_ok_iff_square _).mp hok), fun _ => ?_, nofun⟩
    rw [valS_montS, ← Fin.val_mul, scSqrt_mul_self hok]
    refine ⟨rfl, ?_⟩
    rw [scSqrt_fst hok]
    exact lesserRoot_le _
  · have hns : ¬ ∃ y : Nat, y * y % r = (valS (s.getS a)).val := by
      rw [← scSqrt_ok_iff_square, hok]
      nofun
    exact ⟨iff_of_false nofun hns, nofun, fun _ => rfl⟩

/-! ### Loads and stores (O44) -/

theorem leInt_leBytes_val_scalar (x : Fr) : leInt (leBytes 32 x.val) = x.val := by
  rw [leInt_leBytes, Nat.mod_eq_of_lt (x.isLt.trans (by decide +kernel))]

/-- A checked load of an integer below r: its value, and T = 1. -/
theorem resultS_of_lt (s : State) (d : RegIdx) (v : Fr) {n : Nat} (h : n < r) :
    s.resultS d v (n < r) = (s.setS d v).setT true := by
  rw [decide_eq_true h]
  rfl

section
variable (d : RegIdx) {off : BufOff} {s : State} {v : Fr} (hfit : bufFits off 32 = true)
  (h : leInt (readBytes s.iobuf off.toNat 32) = v.val)
include hfit h

theorem exec_sldb_of_eq_val :
    exec (.sldb d off) s = .next ((s.setS d (montS v)).setT true).complete := by
  rw [exec_sldb d off s hfit, h, toFr_val_self, resultS_of_lt s d _ v.isLt]

theorem exec_sldm_of_eq_val :
    exec (.sldm d off) s = .next ((s.setS d v).setT true).complete := by
  rw [exec_sldm d off s hfit, h, toFr_val_self, resultS_of_lt s d _ v.isLt]

end

/-- What `SSTB` and `SSTM` stored reads back as the integer of its bytes. -/
theorem leInt_readBytes_stored (s : State) {off : BufOff} (hfit : bufFits off 32 = true)
    (hm : Memory.wf s.iobuf = true) (x : Fr) :
    leInt (readBytes (s.storeAt off.toNat (leBytes 32 x.val)).complete.iobuf off.toNat 32) = x.val := by
  rw [readBytes_complete_storeAt (leBytes_length _ _) hfit hm, leInt_leBytes_val_scalar]

/-- MontMul_r with RS2 stores the residue of any integer (R226). -/
theorem toZ_valS_montMulS_rs2 (n : Nat) : toZ (valS (montMulS n rs2)) = (n : ZMod r) := by
  rw [toZ_valS, toZ_montMulS, rs2_spec, ZMod.natCast_mod, Nat.cast_mul]
  linear_combination (n : ZMod r) * ((rs : ZMod r) * rsInv + 1) * rs_mul_rsInv

/-- MontMul_r with RS3 stores the residue of an integer times the radix 2^256 (R225). -/
theorem toZ_valS_montMulS_rs3 (n : Nat) : toZ (valS (montMulS n rs3)) = (n : ZMod r) * rs := by
  rw [toZ_valS, toZ_montMulS, rs3_spec, ZMod.natCast_mod, Nat.cast_mul, Nat.cast_mul]
  linear_combination (n : ZMod r) * rs * ((rs : ZMod r) * rsInv + 1) * rs_mul_rsInv

/-- A 64-byte integer is its low half plus the radix times its high half. -/
theorem leInt_halves {bs : List Byte} (h : bs.length = 64) :
    leInt bs = leInt (bs.take 32) + rs * leInt (bs.drop 32) := by
  have hlen : (bs.take 32).length = 32 := by rw [List.length_take, h]; rfl
  have happ := leInt_append (bs.take 32) (bs.drop 32)
  rwa [List.take_append_drop, hlen, show 256 ^ 32 = rs by decide +kernel] at happ

theorem valS_wide_load {bs : List Byte} (h : bs.length = 64) :
    (valS (modAdd (montMulS (leInt (bs.take 32)) rs2) (montMulS (leInt (bs.drop 32)) rs3))).val =
      leInt bs % r := by
  refine val_of_toZ ?_
  rw [valS_modAdd, toZ_modAdd, toZ_valS_montMulS_rs2, toZ_valS_montMulS_rs3, leInt_halves h, Nat.cast_add,
    Nat.cast_mul, mul_comm (rs : ZMod r)]

/-- Settles O44: the checked loads by the two cases of their result, the round trips by reading back the
bytes of a value below r, the reducing loads by the residues that their products store. -/
theorem scalarLoadsAndStores : Obligations.ScalarLoadsAndStores := by
  intro d a off s hoff
  have hfit : bufFits off 32 = true := bufFits_of_le hoff rfl
  refine ⟨exists_of_resultS (exec_sldb d off s hfit) (fun hok => ?_) (fun hok => ?_),
    exists_of_resultS (exec_sldm d off s hfit) (fun hok => ?_) (fun hok => ?_),
    fun hm => ⟨⟨_, exec_sstb a off s hfit, ?_⟩, ⟨_, exec_sstm a off s hfit, ?_⟩⟩,
    ⟨_, exec_sldr d off s hfit, val_of_toZ (toZ_valS_montMulS_rs2 _)⟩,
    fun hoff64 => ⟨_, exec_sldw d off s (bufFits_of_le hoff64 rfl),
      valS_wide_load (readBytes_length _ _ _)⟩⟩
  · have hlt := of_decide_eq_true hok
    refine ⟨fun _ => ⟨rfl, ?_⟩, fun hge => absurd hlt hge.not_gt⟩
    rw [valS_montS_toFr_val, Nat.mod_eq_of_lt hlt]
  · exact ⟨fun hlt => absurd hlt (of_decide_eq_false hok), fun _ => ⟨rfl, rfl⟩⟩
  · have hlt := of_decide_eq_true hok
    exact ⟨fun _ => ⟨rfl, Nat.mod_eq_of_lt hlt⟩, fun hge => absurd hlt hge.not_gt⟩
  · exact ⟨fun hlt => absurd hlt (of_decide_eq_false hok), fun _ => ⟨rfl, rfl⟩⟩
  · have hread := leInt_readBytes_stored s hfit hm (valS (s.getS a))
    refine ⟨hread, ?_⟩
    rw [exec_sldb_of_eq_val d hfit hread, montS_valS]
  · have hread := leInt_readBytes_stored s hfit hm (s.getS a)
    exact ⟨hread, exec_sldm_of_eq_val d hfit hread⟩

end Sys2Proof.Machine
end

section
/-!
The projective family: the group law as the relation of 00_scope.md R15, the commands on points and on
JUNK, and the units on triples, which compute the same points (42_g1_projective.md).
-/

namespace Sys2Proof.Machine

/-! ### Facts of the base field -/

theorem eq_toFp_zero_iff (u : Fp) : u = toFp 0 ↔ toZ u = 0 := by
  rw [← toZ_injective.eq_iff, toZ_toFp, Nat.cast_zero]

theorem toZ_zero_modP : toZ (toFp 0) = 0 := (eq_toFp_zero_iff _).mp rfl

theorem toZ_one_modP : toZ (toFp 1) = 1 := by rw [toZ_toFp, Nat.cast_one]

theorem two_ne_zero_modP : (2 : ZMod p) ≠ 0 := by
  have h : toZ (toFp 2) ≠ 0 := mt (eq_toFp_zero_iff _).mpr (by decide +kernel)
  rwa [toZ_toFp, Nat.cast_ofNat] at h

theorem add_eq_toFp_zero_iff (y1 y2 : Fp) : y1 + y2 = toFp 0 ↔ toZ y1 + toZ y2 = 0 := by
  rw [eq_toFp_zero_iff, toZ_add]

theorem mul_fpInv_mul {u v : Fp} (hv : toZ v ≠ 0) : u * fpInv v * v = u := by
  have := fact_p
  apply toZ_injective
  rw [toZ_mul, toZ_mul, toZ_fpInv, inv_mul_cancel_right₀ hv]

theorem modNeg_add (y : Fp) : modNeg y + y = toFp 0 := by
  rw [add_eq_toFp_zero_iff, toZ_modNeg, neg_add_cancel]

theorem modNeg_modNeg (y : Fp) : modNeg (modNeg y) = y := by
  apply toZ_injective
  rw [toZ_modNeg, toZ_modNeg, neg_neg]

/-! ### The predicates (O49) -/

/-- Settles O49: both tests are known on points and drawn on JUNK. -/
theorem projectivePredicates : Obligations.ProjectivePredicates := by
  intro a b s
  refine ⟨fun q1 q2 h1 h2 => ?_, fun h => ?_, fun q h => ?_, fun h => ?_⟩
  · rw [exec_peq, h1, h2]
    rfl
  · have hopen : pointsEqual (s.getP a) (s.getP b) = none := by
      rcases h with h | h
      · rw [h]
        rfl
      · rw [h]
        cases s.getP a <;> rfl
    rw [exec_peq, hopen]
    rfl
  · rw [exec_pisid, h]
    rfl
  · rw [exec_pisid, h]
    rfl

/-! ### Constants, moves and the conversion (O45) -/

theorem fromAffine_of_inf {a : Affine} (h : a.inf = true) : fromAffine a = .pt .infinity := by
  rw [fromAffine, if_pos h]

theorem fromAffine_of_onCurve {a : Affine} (hinf : a.inf = false) (h : onCurve a.x a.y = true) :
    fromAffine a = .pt (.affine a.x a.y) := by
  rw [fromAffine, if_neg (by simp [hinf]), if_pos h]

theorem fromAffine_of_not_onCurve {a : Affine} (hinf : a.inf = false) (h : ¬ onCurve a.x a.y = true) :
    fromAffine a = .junk := by
  rw [fromAffine, if_neg (by simp [hinf]), if_neg h]

/-- Settles O45: the constants, moves and selects are the commands' own equations; the conversion tests the
curve equation on values. -/
theorem projectiveConstantsMovesConversion : Obligations.ProjectiveConstantsMovesConversion := by
  intro d a b s
  refine ⟨exec_pid d s, ⟨exec_pgen d s, generator_onCurve, by decide +kernel, by decide +kernel⟩,
    exec_pmov d a s, exec_psel d a b s, fun hinf => ?_, fun hinf => ⟨fun hc => ?_, fun hc => ?_⟩⟩
  · rw [exec_pfroma, fromAffine_of_inf hinf]
  · rw [exec_pfroma, fromAffine_of_onCurve hinf ((onCurve_iff_val _ _).mpr hc)]
  · rw [exec_pfroma, fromAffine_of_not_onCurve hinf (mt (onCurve_iff_val _ _).mp hc)]

/-! ### The group law as a relation (00_scope.md R15) -/

theorem toZ_two_mul_ne_zero {x y : Fp} (h : (Point.affine x y).OnCurve) : toZ (toFp 2 * y) ≠ 0 := by
  have := fact_p
  rw [toZ_mul, toZ_toFp, Nat.cast_ofNat]
  exact mul_ne_zero two_ne_zero_modP h.y_ne_zero

/-- The computed sum is the sum of R15: its slope solves the equation of the chord or tangent. -/
theorem isSum_add {q1 : Point} (h1 : q1.OnCurve) (q2 : Point) : IsSum q1 q2 (q1.add q2) := by
  cases q1 with
  | infinity => rfl
  | affine x1 y1 =>
    cases q2 with
    | infinity => rfl
    | affine x2 y2 =>
      rw [IsSum, Point.add]
      by_cases hx : x1 = x2
      · by_cases hy : y1 + y2 = toFp 0
        · rw [if_pos ⟨hx, hy⟩, if_pos hx, if_pos hy]
        · rw [if_neg fun e => hy e.2, if_pos hx, if_neg hy]
          refine ⟨_, _, _, rfl, ?_, rfl, rfl⟩
          rw [if_pos hx]
          exact mul_fpInv_mul (toZ_two_mul_ne_zero h1)
      · rw [if_neg fun e => hx e.1, if_neg hx]
        refine ⟨_, _, _, rfl, ?_, rfl, rfl⟩
        rw [if_neg hx]
        refine mul_fpInv_mul ?_
        rw [toZ_sub, sub_ne_zero]
        exact toZ_injective.ne (Ne.symm hx)

theorem isSum_neg (q : Point) : IsSum q.neg q .infinity := by
  cases q with
  | infinity => rfl
  | affine x y => rw [Point.neg, IsSum, if_pos ⟨rfl, modNeg_add y⟩]

theorem Point.neg_neg (q : Point) : q.neg.neg = q := by
  cases q with
  | infinity => rfl
  | affine x y => rw [Point.neg, Point.neg, modNeg_modNeg]

theorem Point.add_infinity (q : Point) : q.add .infinity = q := by
  cases q <;> rfl

/-! ### The point adder (O46; 42_g1_projective.md R255) -/

theorem PVal.map2_junk_right (f : Point → Point → Point) (v : PVal) : v.map2 f .junk = .junk := by
  cases v <;> rfl

theorem Affine.onCurve_of_not_inf {a : Affine} (h : a.inf = false) :
    a.onCurve = Machine.onCurve a.x a.y := by
  rw [Affine.onCurve, h, Bool.false_or]

theorem addMixed_of_inf (v : PVal) {a : Affine} (h : a.inf = true) : addMixed v a = v := by
  rw [addMixed, if_pos h]

theorem addMixed_of_onCurve (v : PVal) {a : Affine} (hinf : a.inf = false) (h : a.onCurve = true) :
    addMixed v a = v.map2 Point.add (.pt (.affine a.x a.y)) := by
  rw [Affine.onCurve_of_not_inf hinf] at h
  rw [addMixed, if_neg (by simp [hinf]), if_neg (by simp [h])]

theorem addMixed_of_not_onCurve (v : PVal) {a : Affine} (h : a.onCurve = false) :
    addMixed v a = .junk := by
  obtain ⟨hinf, hc⟩ : a.inf = false ∧ onCurve a.x a.y = false := by simpa [Affine.onCurve] using h
  rw [addMixed, if_neg (by simp [hinf]), if_pos (by simp [hc])]

theorem addMixed_junk {a : Affine} (hinf : a.inf = false) : addMixed .junk a = .junk := by
  cases h : a.onCurve with
  | true => rw [addMixed_of_onCurve _ hinf h]; rfl
  | false => exact addMixed_of_not_onCurve _ h

/-- Settles O46: on points by `isSum_add`, the difference being the sum with the negative; on JUNK by the
equations of the lifted operations. -/
theorem pointAdderComputesTheGroupLaw : Obligations.PointAdderComputesTheGroupLaw := by
  intro d a b s
  refine ⟨fun q1 q2 ha hb h1 h2 => ⟨⟨_, ?_, isSum_add h1 q2, Point.add_onCurve h1 h2⟩,
      _, _, ?_, isSum_neg q2, isSum_add h1 _, Point.sub_onCurve h1 h2⟩,
    fun q ha h => ⟨⟨_, ?_, isSum_add h q, Point.add_onCurve h h⟩,
      ⟨_, ?_, isSum_neg q, Point.neg_onCurve h⟩,
      fun hinf hc => ⟨_, ?_, isSum_add h _, Point.add_onCurve h ?_⟩⟩,
    fun hinf => ?_, fun hc => ?_, fun ha => ⟨?_, ?_, ?_, ?_, fun hinf => ?_⟩, fun hb => ⟨?_, ?_⟩⟩
  · rw [exec_padd, ha, hb]; rfl
  · rw [exec_psub, ha, hb]; rfl
  · rw [exec_pdbl, ha]; rfl
  · rw [exec_pneg, ha]; rfl
  · rw [exec_paddm, ha, addMixed_of_onCurve _ hinf hc]; rfl
  · rwa [Affine.onCurve_of_not_inf hinf] at hc
  · rw [exec_paddm, addMixed_of_inf _ hinf]
  · rw [exec_paddm, addMixed_of_not_onCurve _ hc]
  · rw [exec_padd, ha]; rfl
  · rw [exec_psub, ha]; rfl
  · rw [exec_pdbl, ha]; rfl
  · rw [exec_pneg, ha]; rfl
  · rw [exec_paddm, ha, addMixed_junk hinf]
  · rw [exec_padd, hb, PVal.map2_junk_right]
  · rw [exec_psub, hb, PVal.map2_junk_right]

/-! ### The scalar multiplier (O47) -/

/-- Q ⊕ ⊖(⊖(k·Q)) is (k + 1)·Q. -/
theorem Point.sub_neg_nsmul {q : Point} (h : q.OnCurve) (k : Nat) :
    q.sub (q.nsmul k).neg = q.nsmul (k + 1) := by
  rw [Point.sub, Point.neg_neg, Point.add_comm h (Point.nsmul_onCurve h k), Point.nsmul]

/-- Settles O47: the ladder computes the multiple for every scalar that its bits hold. -/
theorem scalarMultiplierComputesMultiples : Obligations.ScalarMultiplierComputesMultiples := by
  intro d a b s
  refine ⟨fun q ha h => ⟨?_, ?_, ?_⟩, fun ha => ⟨?_, ?_, ?_⟩⟩
  · have hk : (valS (s.getS b)).val < 2 ^ 256 := (valS (s.getS b)).isLt.trans (by decide +kernel)
    rw [exec_pmul, ha, PVal.map, ladder_eq_nsmul h _ _ hk]
  · rw [exec_pmulx, ha, PVal.map, Point.mulX_eq h, seedAbs]
  · have hseed : 0xd201000000010001 = seedAbs + 1 := by decide +kernel
    rw [exec_pclr, ha, PVal.map, Point.clearCofactor, Point.mulX_eq h, Point.sub_neg_nsmul h, hseed]
  · rw [exec_pmul, ha]; rfl
  · rw [exec_pmulx, ha]; rfl
  · rw [exec_pclr, ha]; rfl

/-! ### Affine forms (O48; 42_g1_projective.md R264, R265) -/

theorem drawnAffine_cases (m : Nat) :
    drawnAffine m = Affine.id ∨ ∃ x y, drawnAffine m = ⟨x, y, false⟩ := by
  unfold drawnAffine
  split
  · exact .inr ⟨_, _, rfl⟩
  · exact .inl rfl

/-- The draw count after one element: JUNK advances it. -/
theorem affineOf_draws (v : PVal) (n : Nat) : (affineOf v n).2 = n + if v = .junk then 1 else 0 := by
  cases v <;> rfl

/-- Element k of a range is drawn, if it is JUNK, after the JUNK elements before it. -/
theorem affinesOf_getElem (vs : List PVal) (n k : Nat) (h : k < vs.length) :
    (affinesOf vs n).1[k]'(by rwa [affinesOf_length]) =
      (affineOf vs[k] (n + (vs.take k).countP (· = .junk))).1 := by
  induction vs generalizing n k with
  | nil => exact absurd h (Nat.not_lt_zero k)
  | cons v vs ih =>
    cases k with
    | zero => rfl
    | succ k =>
      simp only [affinesOf, List.getElem_cons_succ, List.take_succ_cons, List.countP_cons,
        decide_eq_true_eq]
      rw [ih _ _ (Nat.lt_of_succ_lt_succ h), affineOf_draws, Nat.add_assoc, Nat.add_comm (ite _ _ _)]

theorem writeRange_rangeIdx {α : Type} (v : Vector α 16) {d : RegIdx} {xs : List α} {k : Nat}
    (hk : k < xs.length) (h : d.val + xs.length ≤ 16) :
    (writeRange v d.val xs)[rangeIdx d k] = xs[k] := by
  have hidx : (rangeIdx d k).val = d.val + k := Nat.mod_eq_of_lt (by omega)
  simp only [Fin.getElem_fin, hidx]
  rw [writeRange_getElem, dif_pos ⟨Nat.le_add_right _ _, by omega⟩]
  simp only [Nat.add_sub_cancel_left]

/-- `PBNORM` writes to element k of its destination what `PTOA` writes for element k of its source, after
the draws of the JUNK elements before it. -/
theorem exec_pbnorm_getA {d a n : RegIdx} (s : State) (hd : d.val + n.val ≤ 15)
    (ha : a.val + n.val ≤ 15) :
    ∃ t, exec (.pbnorm d a n) s = .next t ∧ ∀ k, k ≤ n.val →
      t.getA (rangeIdx d k) = (affineOf (s.getP (rangeIdx a k)) (s.draws +
        ((List.range k).filter fun j => s.getP (rangeIdx a j) = .junk).length)).1 := by
  have hfd := rangeFits_of_le hd
  have hfa := rangeFits_of_le ha
  have hld : d.val + countOf n ≤ 16 := (rangeFits_iff d n).mp hfd
  have hla : a.val + countOf n ≤ 16 := (rangeFits_iff a n).mp hfa
  refine ⟨_, exec_pbnorm d a n s hfd hfa, fun k hk => ?_⟩
  have hkn : k < countOf n := Nat.lt_succ_of_le hk
  rw [State.complete_getA, readRange_eq_map s.preg hla]
  refine (writeRange_rangeIdx _ (by simpa [affinesOf_length]) (by simpa [affinesOf_length])).trans ?_
  rw [affinesOf_getElem _ _ _ (by simpa), ← List.map_take, List.take_range, min_eq_left hkn.le,
    List.countP_map, List.countP_eq_length_filter, List.getElem_map, List.getElem_range]
  rfl

/-- Settles O48: the affine form of each kind of source; a range goes element by element. -/
theorem affineFormsOfPoints : Obligations.AffineFormsOfPoints := by
  intro d a n s
  refine ⟨?_, fun hd ha => ?_, drawnAffine_cases⟩
  · rw [exec_ptoa]
    cases s.getP a with
    | junk => rfl
    | pt q => cases q <;> rfl
  · obtain ⟨t, ht, helem⟩ := exec_pbnorm_getA s hd ha
    refine ⟨t, ht, fun k hk => ?_⟩
    rw [helem k hk]
    cases s.getP (rangeIdx a k) with
    | junk => rfl
    | pt q => cases q <;> rfl

/-! ### Triples and the points they represent (10_state.md R44) -/

/-- `t` is `c` times `u`, coordinate by coordinate. -/
structure Triple.IsMultiple (c : ZMod p) (t u : Triple) : Prop where
  x : toZ t.x = c * toZ u.x
  y : toZ t.y = c * toZ u.y
  z : toZ t.z = c * toZ u.z

/-- The triple of a point's own affine form, (x, y, 1) or (0, 1, 0) (42_g1_projective.md R263). -/
def Point.toTriple (q : Point) : Triple := q.toAffine.toTriple

theorem Point.toTriple_infinity : Point.infinity.toTriple = ⟨toFp 0, toFp 1, toFp 0⟩ := rfl

theorem Point.toTriple_affine (x y : Fp) : (Point.affine x y).toTriple = ⟨x, y, toFp 1⟩ := rfl

/-- The class of a point is the non-zero multiples of its own triple. -/
theorem Triple.value_eq_pt_iff (t : Triple) (q : Point) :
    t.value = .pt q ↔ q.OnCurve ∧ ∃ c, c ≠ 0 ∧ t.IsMultiple c q.toTriple := by
  cases q with
  | infinity =>
    rw [Triple.value_eq_infinity_iff, Point.toTriple_infinity]
    constructor
    · rintro ⟨hx, hy, hz⟩
      refine ⟨trivial, toZ t.y, hy, ?_, ?_, ?_⟩
      · rw [hx, toZ_zero_modP, mul_zero]
      · rw [toZ_one_modP, mul_one]
      · rw [hz, toZ_zero_modP, mul_zero]
    · rintro ⟨-, c, hc, hx, hy, hz⟩
      rw [toZ_zero_modP, mul_zero] at hx hz
      rw [toZ_one_modP, mul_one] at hy
      exact ⟨hx, hy ▸ hc, hz⟩
  | affine x y =>
    rw [Triple.value_eq_affine_iff, Point.toTriple_affine]
    constructor
    · rintro ⟨hz, hx, hy, hcurve⟩
      refine ⟨hcurve, toZ t.z, hz, ?_, ?_, ?_⟩
      · rw [hx, mul_comm]
      · rw [hy, mul_comm]
      · rw [toZ_one_modP, mul_one]
    · rintro ⟨hcurve, c, hc, hx, hy, hz⟩
      rw [toZ_one_modP, mul_one] at hz
      refine ⟨hz ▸ hc, ?_, ?_, hcurve⟩
      · rw [hx, hz, mul_comm]
      · rw [hy, hz, mul_comm]

theorem Triple.onCurve_of_value {t : Triple} {q : Point} (h : t.value = .pt q) : q.OnCurve :=
  ((t.value_eq_pt_iff q).mp h).1

theorem Point.toTriple_value {q : Point} (h : q.OnCurve) : q.toTriple.value = .pt q := by
  have := fact_p
  exact (Triple.value_eq_pt_iff _ q).mpr ⟨h, 1, one_ne_zero,
    (one_mul _).symm, (one_mul _).symm, (one_mul _).symm⟩

/-- A non-zero multiple of a triple represents the same point. -/
theorem Triple.IsMultiple.value {c : ZMod p} {t u : Triple} {q : Point} (h : t.IsMultiple c u) (hc : c ≠ 0)
    (hu : u.value = .pt q) : t.value = .pt q := by
  have := fact_p
  obtain ⟨hcurve, d, hd, hm⟩ := (u.value_eq_pt_iff q).mp hu
  refine (t.value_eq_pt_iff q).mpr ⟨hcurve, c * d, mul_ne_zero hc hd, ?_, ?_, ?_⟩
  · rw [h.x, hm.x, mul_assoc]
  · rw [h.y, hm.y, mul_assoc]
  · rw [h.z, hm.z, mul_assoc]

theorem Triple.eq_of_toZ {t u : Triple} (hx : toZ t.x = toZ u.x) (hy : toZ t.y = toZ u.y)
    (hz : toZ t.z = toZ u.z) : t = u := by
  obtain ⟨x, y, z⟩ := t
  rw [Triple.mk.injEq]
  exact ⟨toZ_injective hx, toZ_injective hy, toZ_injective hz⟩

/-! ### Complete addition (O60; 42_g1_projective.md R252) -/

theorem toZ_curveB3 : toZ curveB3 = 12 := by rw [curveB3, toZ_toFp, Nat.cast_ofNat]

section
variable (t u : Triple)

theorem Triple.toZ_add_x : toZ (t.add u).x =
    (toZ t.x * toZ u.y + toZ u.x * toZ t.y) * (toZ t.y * toZ u.y - 12 * (toZ t.z * toZ u.z)) -
      12 * (toZ t.y * toZ u.z + toZ u.y * toZ t.z) * (toZ t.x * toZ u.z + toZ u.x * toZ t.z) := by
  simp only [Triple.add, toZ_add, toZ_sub, toZ_mul, toZ_curveB3]
  ring

theorem Triple.toZ_add_y : toZ (t.add u).y =
    (toZ t.y * toZ u.y - 12 * (toZ t.z * toZ u.z)) * (toZ t.y * toZ u.y + 12 * (toZ t.z * toZ u.z)) +
      36 * (toZ t.x * toZ u.x) * (toZ t.x * toZ u.z + toZ u.x * toZ t.z) := by
  simp only [Triple.add, toZ_add, toZ_sub, toZ_mul, toZ_curveB3]
  ring

theorem Triple.toZ_add_z : toZ (t.add u).z =
    (toZ t.y * toZ u.z + toZ u.y * toZ t.z) * (toZ t.y * toZ u.y + 12 * (toZ t.z * toZ u.z)) +
      3 * (toZ t.x * toZ u.x) * (toZ t.x * toZ u.y + toZ u.x * toZ t.y) := by
  simp only [Triple.add, toZ_add, toZ_sub, toZ_mul, toZ_curveB3]
  ring

theorem Triple.add_comm : t.add u = u.add t := by
  refine Triple.eq_of_toZ ?_ ?_ ?_
  · rw [toZ_add_x, toZ_add_x]; ring
  · rw [toZ_add_y, toZ_add_y]; ring
  · rw [toZ_add_z, toZ_add_z]; ring

end

/-- The formulas are homogeneous of degree 2 in each operand. -/
theorem Triple.IsMultiple.add {c d : ZMod p} {t t' u u' : Triple} (ht : t.IsMultiple c t')
    (hu : u.IsMultiple d u') : (t.add u).IsMultiple (c ^ 2 * d ^ 2) (t'.add u') where
  x := by rw [toZ_add_x, toZ_add_x, ht.x, ht.y, ht.z, hu.x, hu.y, hu.z]; ring
  y := by rw [toZ_add_y, toZ_add_y, ht.x, ht.y, ht.z, hu.x, hu.y, hu.z]; ring
  z := by rw [toZ_add_z, toZ_add_z, ht.x, ht.y, ht.z, hu.x, hu.y, hu.z]; ring

/-- O + Q: the formulas multiply the triple of Q by its Y, which is not 0 on E. -/
theorem add_value_infinity_left {q : Point} (h : q.OnCurve) :
    (Point.infinity.toTriple.add q.toTriple).value = .pt q := by
  have := fact_p
  refine Triple.IsMultiple.value (c := toZ q.toTriple.y) ?_ ?_ (Point.toTriple_value h)
  · refine ⟨?_, ?_, ?_⟩
    · rw [Triple.toZ_add_x, Point.toTriple_infinity, toZ_zero_modP, toZ_one_modP]; ring
    · rw [Triple.toZ_add_y, Point.toTriple_infinity, toZ_zero_modP, toZ_one_modP]; ring
    · rw [Triple.toZ_add_z, Point.toTriple_infinity, toZ_zero_modP, toZ_one_modP]; ring
  · cases q with
    | infinity => rw [Point.toTriple_infinity, toZ_one_modP]; exact one_ne_zero
    | affine x y => exact h.y_ne_zero

/-- Points of E with one x are equal or opposite. -/
theorem toZ_y_eq_of_not_opposite {x y1 y2 : Fp} (h1 : (Point.affine x y1).OnCurve)
    (h2 : (Point.affine x y2).OnCurve) (hne : y1 + y2 ≠ toFp 0) : toZ y2 = toZ y1 := by
  have := fact_p
  have hs : toZ y1 + toZ y2 ≠ 0 := mt (add_eq_toFp_zero_iff _ _).mpr hne
  refine sub_eq_zero.mp ((mul_eq_zero.mp (?_ : _ * (toZ y1 + toZ y2) = 0)).resolve_right hs)
  linear_combination (onCurve_iff x y2).mp h2 - (onCurve_iff x y1).mp h1

/-- The slope of the chord or tangent solves both forms of the equation of the slope, in each case. -/
theorem slope_equations {x1 y1 x2 y2 l : Fp} (h1 : (Point.affine x1 y1).OnCurve)
    (h2 : (Point.affine x2 y2).OnCurve) (hne : ¬(x1 = x2 ∧ y1 + y2 = toFp 0))
    (hl : if x1 = x2 then l * (toFp 2 * y1) = toFp 3 * (x1 * x1) else l * (x2 - x1) = y2 - y1) :
    toZ l * (toZ x2 - toZ x1) = toZ y2 - toZ y1 ∧
      toZ l * (toZ y1 + toZ y2) = toZ x1 ^ 2 + toZ x1 * toZ x2 + toZ x2 ^ 2 := by
  have := fact_p
  split at hl
  · next hx =>
    subst hx
    have hl := congrArg toZ hl
    simp only [toZ_mul, toZ_toFp, Nat.cast_ofNat] at hl
    rw [toZ_y_eq_of_not_opposite h1 h2 fun e => hne ⟨rfl, e⟩]
    exact ⟨by ring, by linear_combination hl⟩
  · next hx =>
    have hd : toZ x2 - toZ x1 ≠ 0 := sub_ne_zero.mpr (toZ_injective.ne (Ne.symm hx))
    have hl := congrArg toZ hl
    simp only [toZ_mul, toZ_sub] at hl
    refine ⟨hl, mul_right_cancel₀ hd ?_⟩
    linear_combination (toZ y1 + toZ y2) * hl + (onCurve_iff x2 y2).mp h2 - (onCurve_iff x1 y1).mp h1

/-- The complete addition formulas on (x1, y1, 1) and (x2, y2, 1), in any commutative ring: they give a
multiple of the point that the slope gives, the chord's or the tangent's. With y2 eliminated, both equations
are combinations of the curve equation and of the equation of the slope; the factors are a division's. -/
theorem complete_addition_identity {R : Type*} [CommRing R] {x1 y1 x2 y2 l : R}
    (h1 : y1 * y1 = x1 * x1 * x1 + 4) (hl : l * (x2 - x1) = y2 - y1)
    (hl' : l * (y1 + y2) = x1 ^ 2 + x1 * x2 + x2 ^ 2) :
    (x1 * y2 + x2 * y1) * (y1 * y2 - 12) - 12 * (y1 + y2) * (x1 + x2) =
        (l * l - x1 - x2) *
          ((y1 + y2) * (y1 * y2 + 12) + 3 * (x1 * x2) * (x1 * y2 + x2 * y1)) ∧
      (y1 * y2 - 12) * (y1 * y2 + 12) + 36 * (x1 * x2) * (x1 + x2) =
        (l * (x1 - (l * l - x1 - x2)) - y1) *
          ((y1 + y2) * (y1 * y2 + 12) + 3 * (x1 * x2) * (x1 * y2 + x2 * y1)) := by
  obtain rfl : y2 = y1 + l * (x2 - x1) := by linear_combination -hl
  constructor
  · linear_combination
      (3 * l ^ 3 * (x2 - x1) + 6 * l ^ 2 * y1 + 3 * l * x1 * (x2 - x1) + 3 * (x1 + x2) * y1) * h1 -
        (l ^ 2 * y1 * (x2 - x1) + l * (4 * y1 ^ 2 + 3 * x1 ^ 2 * (x2 - x1)) +
          3 * x1 * y1 * (x1 + x2)) * hl'
  · linear_combination
      (-9 * x1 ^ 3 - 9 * x1 ^ 2 * x2 - 6 * x1 ^ 2 * l ^ 2 - 9 * x1 * x2 ^ 2 + 3 * x1 * x2 * l ^ 2 +
          15 * x1 * y1 * l + 3 * x1 * l ^ 4 + 3 * x2 ^ 2 * l ^ 2 + 3 * x2 * y1 * l - 3 * x2 * l ^ 4 +
          3 * y1 ^ 2 - 6 * y1 * l ^ 3 + 36) * h1 -
        (-9 * x1 ^ 4 + 3 * x1 ^ 3 * l ^ 2 - 3 * x1 ^ 2 * x2 * l ^ 2 - 3 * x1 ^ 2 * y1 * l -
          3 * x1 * x2 * y1 * l + 12 * x1 * y1 ^ 2 + x1 * y1 * l ^ 3 - x2 * y1 * l ^ 3 -
          4 * y1 ^ 2 * l ^ 2) * hl'

/-- Z3 of the complete addition of points that are not opposite: 8y³ for the double of (x, y). -/
theorem add_z_ne_zero_of_not_opposite {x1 y1 x2 y2 : Fp} (h1 : (Point.affine x1 y1).OnCurve)
    (h2 : (Point.affine x2 y2).OnCurve) (hne : ¬(x1 = x2 ∧ y1 + y2 = toFp 0)) :
    (toZ y1 + toZ y2) * (toZ y1 * toZ y2 + 12) +
      3 * (toZ x1 * toZ x2) * (toZ x1 * toZ y2 + toZ x2 * toZ y1) ≠ 0 := by
  by_cases hx : x1 = x2
  · have := fact_p
    subst hx
    rw [toZ_y_eq_of_not_opposite h1 h2 fun e => hne ⟨rfl, e⟩]
    have h8 : (2 * toZ y1) ^ 3 ≠ 0 := pow_ne_zero 3 (mul_ne_zero two_ne_zero_modP h1.y_ne_zero)
    refine fun e => h8 ?_
    linear_combination e + 6 * toZ y1 * (onCurve_iff x1 y1).mp h1
  · exact add_z_ne_zero h1 h2 (toZ_injective.ne hx)

/-- Two points of E that are not O. -/
theorem add_value_affine {x1 y1 x2 y2 : Fp} (h1 : (Point.affine x1 y1).OnCurve)
    (h2 : (Point.affine x2 y2).OnCurve) :
    ((Point.affine x1 y1).toTriple.add (Point.affine x2 y2).toTriple).value =
      .pt ((Point.affine x1 y1).add (.affine x2 y2)) := by
  have hsum := isSum_add h1 (.affine x2 y2)
  have hcurve := Point.add_onCurve h1 h2
  rw [IsSum] at hsum
  simp only [Point.toTriple_affine]
  split at hsum
  · next hopp =>
    obtain ⟨rfl, hy⟩ := hopp
    have hy2 : toZ y2 = -toZ y1 := eq_neg_of_add_eq_zero_right ((add_eq_toFp_zero_iff _ _).mp hy)
    rw [hsum, Triple.value_eq_infinity_iff, Triple.toZ_add_x, Triple.toZ_add_y, Triple.toZ_add_z]
    simp only [toZ_one_modP, hy2]
    refine ⟨by ring, fun e => add_y_ne_zero h1 ?_, by ring⟩
    linear_combination e
  · next hne =>
    obtain ⟨l, x3, y3, heq, hl, rfl, rfl⟩ := hsum
    obtain ⟨hchord, htangent⟩ := slope_equations h1 h2 hne hl
    obtain ⟨hx, hy⟩ := complete_addition_identity ((onCurve_iff x1 y1).mp h1) hchord htangent
    rw [heq] at hcurve ⊢
    rw [Triple.value_eq_affine_iff, Triple.toZ_add_x, Triple.toZ_add_y, Triple.toZ_add_z]
    simp only [toZ_one_modP, toZ_sub, toZ_mul, mul_one]
    exact ⟨add_z_ne_zero_of_not_opposite h1 h2 hne, hx, hy, hcurve⟩

/-- The complete addition unit adds (R252): each operand is a multiple of its point's own triple. -/
theorem Triple.add_value {t u : Triple} {q1 q2 : Point} (ht : t.value = .pt q1) (hu : u.value = .pt q2) :
    (t.add u).value = .pt (q1.add q2) := by
  have := fact_p
  obtain ⟨h1, c, hc, hct⟩ := (t.value_eq_pt_iff q1).mp ht
  obtain ⟨h2, d, hd, hdu⟩ := (u.value_eq_pt_iff q2).mp hu
  refine (hct.add hdu).value (mul_ne_zero (pow_ne_zero 2 hc) (pow_ne_zero 2 hd)) ?_
  cases q1 with
  | infinity => exact add_value_infinity_left h2
  | affine x1 y1 =>
    cases q2 with
    | infinity => rw [Triple.add_comm]; exact add_value_infinity_left h1
    | affine x2 y2 => exact add_value_affine h1 h2

/-! ### Doubling (O58; 42_g1_projective.md R251) -/

/-- The curve equation in homogeneous coordinates (R250). -/
theorem Triple.curve_equation {t : Triple} {q : Point} (h : t.value = .pt q) :
    toZ t.y * toZ t.y * toZ t.z = toZ t.x * toZ t.x * toZ t.x + 4 * (toZ t.z * toZ t.z * toZ t.z) := by
  cases q with
  | infinity =>
    obtain ⟨hx, -, hz⟩ := t.value_eq_infinity_iff.mp h
    rw [hx, hz]
    ring
  | affine x y =>
    obtain ⟨-, hx, hy, hcurve⟩ := (t.value_eq_affine_iff x y).mp h
    rw [hx, hy]
    linear_combination toZ t.z ^ 3 * (onCurve_iff x y).mp hcurve

/-- On E the doubling unit is the complete addition of a triple to itself. -/
theorem Triple.dbl_eq_add_self {t : Triple} {q : Point} (h : t.value = .pt q) : t.dbl = t.add t := by
  have hcurve := Triple.curve_equation h
  refine Triple.eq_of_toZ ?_ ?_ ?_
  · rw [toZ_add_x]
    simp only [Triple.dbl, toZ_add, toZ_sub, toZ_mul, toZ_curveB3, toZ_toFp, Nat.cast_ofNat]
    ring
  · rw [toZ_add_y]
    simp only [Triple.dbl, toZ_add, toZ_sub, toZ_mul, toZ_curveB3, toZ_toFp, Nat.cast_ofNat]
    linear_combination 72 * toZ t.z * hcurve
  · rw [toZ_add_z]
    simp only [Triple.dbl, toZ_mul, toZ_toFp, Nat.cast_ofNat]
    linear_combination 6 * toZ t.y * hcurve

theorem Triple.dbl_value {t : Triple} {q : Point} (h : t.value = .pt q) : t.dbl.value = .pt q.dbl := by
  rw [Triple.dbl_eq_add_self h]
  exact Triple.add_value h h

/-- Settles O58: on E the doubling unit is the addition unit with equal operands. -/
theorem doublingUnitDoubles : Obligations.DoublingUnitDoubles := fun _ _ => Triple.dbl_value

/-! ### Mixed addition and the ladder (O60; 42_g1_projective.md R253, R254) -/

theorem Triple.addMixed_of_inf (t : Triple) {a : Affine} (h : a.inf = true) : t.addMixed a = t :=
  if_pos h

/-- Mixed addition is complete addition with Z2 = 1. -/
theorem Triple.addMixed_eq_add (t : Triple) (x y : Fp) :
    t.addMixed ⟨x, y, false⟩ = t.add (Point.affine x y).toTriple := by
  rw [Point.toTriple_affine]
  refine Triple.eq_of_toZ ?_ ?_ ?_ <;>
    simp only [toZ_add_x, toZ_add_y, toZ_add_z, Triple.addMixed, Bool.false_eq_true, if_false, toZ_add,
      toZ_sub, toZ_mul, toZ_curveB3, toZ_one_modP] <;>
    ring

theorem Triple.addMixed_value {t : Triple} {q : Point} {a : Affine} (h : t.value = .pt q)
    (ha : a.onCurve = true) : (t.addMixed a).value = .pt (q.add a.toPoint) := by
  obtain ⟨x, y, inf⟩ := a
  cases inf with
  | true =>
    rw [Triple.addMixed_of_inf t rfl, h]
    exact congrArg PVal.pt q.add_infinity.symm
  | false =>
    rw [Affine.onCurve_of_not_inf rfl] at ha
    rw [Triple.addMixed_eq_add]
    exact Triple.add_value h (Point.toTriple_value (q := .affine x y) ha)

theorem Triple.ladderFrom_value {t : Triple} {q : Point} (h : t.value = .pt q) (k l : Nat)
    {acc : Triple} {A : Point} (hacc : acc.value = .pt A) :
    (Triple.ladderFrom t k l acc).value = .pt (Machine.ladderFrom q k l A) := by
  induction l generalizing acc A with
  | zero => exact hacc
  | succ l ih =>
    rw [Triple.ladderFrom, Machine.ladderFrom]
    refine ih ?_
    split
    · exact Triple.add_value (Triple.dbl_value hacc) h
    · exact Triple.dbl_value hacc

/-- Settles O60: complete addition on each point's own triple, mixed addition as complete addition with
Z2 = 1, and the ladder bit by bit. -/
theorem additionUnitsAdd : Obligations.AdditionUnitsAdd := by
  refine ⟨fun _ _ _ _ => Triple.add_value, fun _ _ _ => Triple.addMixed_value,
    fun t _ => t.addMixed_of_inf, fun t q k l ht hk => ?_⟩
  rw [← ladder_eq_nsmul (Triple.onCurve_of_value ht) k l hk]
  exact Triple.ladderFrom_value ht k l triple_0_1_0_value

/-! ### Negation, affine forms and equality (O59; 42_g1_projective.md R263, R264, R269, R274) -/

theorem Triple.neg_value {t : Triple} {q : Point} (h : t.value = .pt q) : t.neg.value = .pt q.neg := by
  cases q with
  | infinity =>
    obtain ⟨hx, hy, hz⟩ := t.value_eq_infinity_iff.mp h
    refine t.neg.value_eq_infinity_iff.mpr ⟨hx, ?_, hz⟩
    rw [Triple.neg, toZ_modNeg]
    exact neg_ne_zero.mpr hy
  | affine x y =>
    obtain ⟨hz, hx, hy, hcurve⟩ := (t.value_eq_affine_iff x y).mp h
    refine (t.neg.value_eq_affine_iff x (modNeg y)).mpr ⟨hz, hx, ?_, Point.neg_onCurve hcurve⟩
    rw [Triple.neg, toZ_modNeg, toZ_modNeg, hy, neg_mul]

theorem Triple.toAffine_of_value {t : Triple} {q : Point} (h : t.value = .pt q) :
    t.toAffine = q.toAffine := by
  unfold Triple.value at h
  unfold Triple.toAffine Triple.scaled
  split at h
  · next hz =>
    split at h <;> cases h
    exact if_pos hz
  · next hz =>
    dsimp only at h
    split at h <;> cases h
    exact if_neg hz

theorem Affine.toTriple_value (a : Affine) : a.toTriple.value = fromAffine a := by
  obtain ⟨x, y, inf⟩ := a
  cases inf with
  | true => exact triple_0_1_0_value
  | false =>
    have hone : ∀ u : Fp, u * fpInv (toFp 1) = u := fun u => by
      have := fact_p
      apply toZ_injective
      rw [toZ_mul, toZ_fpInv, toZ_one_modP, inv_one, mul_one]
    have hz : toFp 1 ≠ toFp 0 := by decide
    simp [Affine.toTriple, Triple.value, fromAffine, hone, hz]

theorem Triple.equals_iff (t u : Triple) : t.equals u = true ↔
    (toZ t.z = 0 ∧ toZ u.z = 0) ∨ (toZ t.z ≠ 0 ∧ toZ u.z ≠ 0 ∧
      toZ t.x * toZ u.z = toZ u.x * toZ t.z ∧ toZ t.y * toZ u.z = toZ u.y * toZ t.z) := by
  simp only [Triple.equals, Bool.or_eq_true, Bool.and_eq_true, beq_iff_eq, bne_iff_ne, ne_eq,
    eq_toFp_zero_iff, ← toZ_mul, toZ_injective.eq_iff, and_assoc]

/-- Cross-multiplication by Z1 and Z2, which are not 0, compares the affine coordinates. -/
theorem cross_mul_eq_iff {K : Type*} [Field K] {x1 x2 c d : K} (hc : c ≠ 0) (hd : d ≠ 0) :
    x1 * c * d = x2 * d * c ↔ x1 = x2 := by
  rw [mul_right_comm x2, mul_assoc, mul_assoc]
  exact mul_left_inj' (mul_ne_zero hc hd)

theorem Triple.equals_iff_of_value {t u : Triple} {q1 q2 : Point} (ht : t.value = .pt q1)
    (hu : u.value = .pt q2) : t.equals u = true ↔ q1 = q2 := by
  have := fact_p
  rw [Triple.equals_iff]
  cases q1 with
  | infinity =>
    obtain ⟨-, -, hz1⟩ := t.value_eq_infinity_iff.mp ht
    cases q2 with
    | infinity =>
      obtain ⟨-, -, hz2⟩ := u.value_eq_infinity_iff.mp hu
      exact iff_of_true (.inl ⟨hz1, hz2⟩) rfl
    | affine x2 y2 =>
      obtain ⟨hz2, -⟩ := (u.value_eq_affine_iff x2 y2).mp hu
      simp [hz1, hz2]
  | affine x1 y1 =>
    obtain ⟨hz1, hx1, hy1, -⟩ := (t.value_eq_affine_iff x1 y1).mp ht
    cases q2 with
    | infinity =>
      obtain ⟨-, -, hz2⟩ := u.value_eq_infinity_iff.mp hu
      simp [hz1, hz2]
    | affine x2 y2 =>
      obtain ⟨hz2, hx2, hy2, -⟩ := (u.value_eq_affine_iff x2 y2).mp hu
      simp [hz1, hz2, hx1, hy1, hx2, hy2, cross_mul_eq_iff, toZ_injective.eq_iff]

/-! ### Batch normalization (O59; 42_g1_projective.md R265) -/

theorem Triple.batchZ_ne_zero (t : Triple) : toZ t.batchZ ≠ 0 := by
  have := fact_p
  unfold Triple.batchZ
  split
  · rw [toZ_one_modP]
    exact one_ne_zero
  · next hz => exact mt (eq_toFp_zero_iff _).mpr hz

/-- An inverse of the Z that a triple contributes scales it to its affine form. -/
theorem Triple.scaled_of_batchZ (t : Triple) : t.scaled (fpInv t.batchZ) = t.toAffine := by
  unfold Triple.toAffine Triple.scaled Triple.batchZ
  split <;> rfl

/-- The inverse of a product, times one factor, is the inverse of the other. -/
theorem fpInv_mul_mul {u v : Fp} (hu : toZ u ≠ 0) : fpInv (u * v) * u = fpInv v := by
  have := fact_p
  apply toZ_injective
  rw [toZ_mul, toZ_fpInv, toZ_fpInv, toZ_mul, mul_inv_rev, inv_mul_cancel_right₀ hu]

/-- Montgomery's trick: from a product that is not 0, each element's own affine form, and the inverse
of the product. -/
theorem batchFrom_eq {acc : Fp} (hacc : toZ acc ≠ 0) (ts : List Triple) :
    batchFrom acc ts = (ts.map Triple.toAffine, fpInv acc) := by
  have := fact_p
  induction ts generalizing acc with
  | nil => rfl
  | cons t ts ih =>
    have hz := t.batchZ_ne_zero
    have hprod : toZ (acc * t.batchZ) ≠ 0 := by
      rw [toZ_mul]
      exact mul_ne_zero hacc hz
    have hback : fpInv (acc * t.batchZ) * t.batchZ = fpInv acc := by
      rw [mul_comm acc, fpInv_mul_mul hz]
    simp only [batchFrom, ih hprod, fpInv_mul_mul hacc, t.scaled_of_batchZ, hback, List.map_cons]

theorem batchNormalize_eq (ts : List Triple) : batchNormalize ts = ts.map Triple.toAffine := by
  have := fact_p
  have hone : toZ (toFp 1) ≠ 0 := by
    rw [toZ_one_modP]
    exact one_ne_zero
  rw [batchNormalize, batchFrom_eq hone]

theorem map_toAffine_of_values {ts : List Triple} {qs : List Point}
    (h : ts.map Triple.value = qs.map PVal.pt) : ts.map Triple.toAffine = qs.map Point.toAffine := by
  rw [← List.forall₂_eq_eq_eq, List.forall₂_map_left_iff, List.forall₂_map_right_iff] at h ⊢
  exact h.imp fun _ _ => Triple.toAffine_of_value

/-- Settles O59: each unit on the two kinds of class; one inversion gives every element its own affine
form. -/
theorem tripleUnitsAndBatchNormalization : Obligations.TripleUnitsAndBatchNormalization := by
  refine ⟨fun t q h => ⟨Triple.neg_value h, Triple.toAffine_of_value h⟩, fun t u q1 q2 ht hu => ?_,
    Affine.toTriple_value, fun ts qs h => ?_⟩
  · rw [Bool.eq_iff_iff, decide_eq_true_iff]
    exact Triple.equals_iff_of_value ht hu
  · rw [batchNormalize_eq, map_toAffine_of_values h]

end Sys2Proof.Machine
end

section
/-!
The affine family: the constants, the moves and the maps, the predicates, and the codec, whose encodings are
read as big-endian integers with the flag bits on top (43_g1_affine_codec.md).
-/

namespace Sys2Proof.Machine

/-! ### Constants, moves and maps (O50) -/

theorem beta_cubed : beta * beta * beta = toFp 1 := by decide +kernel

/-- φ keeps the curve equation, since β³ = 1. -/
theorem onCurve_beta_mul (x y : Fp) : onCurve (beta * x) y = onCurve x y := by
  have hbeta : toZ beta * toZ beta * toZ beta = 1 := by
    rw [← toZ_mul, ← toZ_mul, beta_cubed, toZ_one_modP]
  rw [Bool.eq_iff_iff, onCurve_iff, onCurve_iff, toZ_mul,
    show toZ beta * toZ x * (toZ beta * toZ x) * (toZ beta * toZ x) =
      toZ beta * toZ beta * toZ beta * (toZ x * toZ x * toZ x) by ring, hbeta, one_mul]

theorem Affine.onCurve_endo (a : Affine) : a.endo.onCurve = a.onCurve :=
  congrArg (a.inf || ·) (onCurve_beta_mul a.x a.y)

theorem Affine.neg_of_inf {a : Affine} (h : a.inf = true) : a.neg = Affine.id := by
  rw [Affine.neg, if_pos h]

theorem Affine.neg_of_not_inf {a : Affine} (h : a.inf = false) : a.neg = ⟨a.x, modNeg a.y, false⟩ := by
  rw [Affine.neg, if_neg (by simp [h])]

/-- Settles O50: the commands' own equations; φ keeps the curve because β is a cube root of unity. -/
theorem affineConstantsMovesMaps : Obligations.AffineConstantsMovesMaps := by
  intro d a b s
  refine ⟨exec_aid d s, exec_agen d s, by decide +kernel, by decide +kernel, exec_amov d a s,
    exec_asel d a b s, fun hinf => ?_, fun hinf => ⟨_, ?_, modNeg_val _⟩,
    ⟨_, exec_aendo d a s, Fin.val_mul _ _, rfl, rfl, Affine.onCurve_endo _⟩,
    by decide +kernel, by decide +kernel, by decide +kernel⟩
  · rw [exec_aneg, Affine.neg_of_inf hinf]
    rfl
  · rw [exec_aneg, Affine.neg_of_not_inf hinf]

/-! ### Predicates and the subgroup test (O51) -/

/-- x·(x·Q) = x²·Q: the two negations of the seed's sign cancel. -/
theorem Point.mulX_mulX {q : Point} (h : q.OnCurve) : q.mulX.mulX = q.nsmul (seedAbs ^ 2) := by
  have := fact_p
  obtain ⟨P, hP⟩ := h.rep
  rw [Point.mulX_eq (Point.mulX_onCurve h), Point.mulX_eq h, pow_two]
  generalize seedAbs = k
  refine (((hP.nsmul k).neg.nsmul k).neg).inj ?_
  rw [neg_nsmul, InvolutiveNeg.neg_neg, ← mul_nsmul]
  exact hP.nsmul (k * k)

theorem Affine.torsionFree_of_inf {a : Affine} (h : a.inf = true) : a.torsionFree = true := by
  have hpt : a.toPoint = .infinity := if_pos h
  have hendo : a.endo.toPoint = .infinity := if_pos h
  rw [Affine.torsionFree, hpt, hendo]
  decide +kernel

theorem Affine.torsionFree_of_onCurve {a : Affine} (hinf : a.inf = false) (h : a.onCurve = true) :
    a.torsionFree = decide (((Point.affine a.x a.y).nsmul (seedAbs ^ 2)).neg =
      .affine (beta * a.x) a.y) := by
  have hpt : a.toPoint = .affine a.x a.y := if_neg (by simp [hinf])
  have hendo : a.endo.toPoint = .affine (beta * a.x) a.y := if_neg (by simp [Affine.endo, hinf])
  have hq : (Point.affine a.x a.y).OnCurve := (Affine.onCurve_of_not_inf hinf).symm.trans h
  rw [Affine.torsionFree, hpt, hendo, Point.mulX_mulX hq, Bool.eq_iff_iff, beq_iff_eq, decide_eq_true_iff]

theorem torsionFree_generator : affineGenerator.torsionFree = true := by decide +kernel

theorem exec_ators_of_onCurve (a : RegIdx) {s : State} (h : (s.getA a).onCurve = true) :
    exec (.ators a) s = .next (s.setT (s.getA a).torsionFree).complete := by
  rw [exec_ators, torsionTest, if_pos h]
  rfl

theorem exec_ators_of_not_onCurve (a : RegIdx) {s : State} (h : (s.getA a).onCurve = false) :
    exec (.ators a) s = .next s.setTDrawn.complete := by
  rw [exec_ators, torsionTest, if_neg (by simp [h])]
  rfl

theorem Affine.onCurve_eq_decide (a : Affine) :
    a.onCurve = (a.inf || decide (a.y.val ^ 2 % p = (a.x.val ^ 3 + 4) % p)) := by
  rw [Affine.onCurve, Bool.eq_iff_iff, Bool.or_eq_true, Bool.or_eq_true, onCurve_iff_val, decide_eq_true_iff]

theorem Affine.equals_eq_decide (a b : Affine) :
    a.equals b = decide ((a.inf = true ∧ b.inf = true) ∨
      (a.inf = false ∧ b.inf = false ∧ a.x = b.x ∧ a.y = b.y)) := by
  rw [Bool.eq_iff_iff, decide_eq_true_iff]
  simp only [Affine.equals, Bool.or_eq_true, Bool.and_eq_true, Bool.not_eq_true', beq_iff_eq, and_assoc]

/-- Settles O51: the subgroup test multiplies by x twice, which on the curve is x²; the generator passes
it by evaluation. -/
theorem affinePredicates : Obligations.AffinePredicates := by
  refine ⟨by decide +kernel, ?_, fun a b s => ⟨?_, exec_aisid a s, ?_, fun hinf => ?_,
    fun hinf hc => ?_, fun hc => exec_ators_of_not_onCurve a hc⟩⟩
  · have hgen := torsionFree_generator
    rw [Affine.torsionFree_of_onCurve (a := affineGenerator) rfl generator_onCurve, decide_eq_true_iff] at hgen
    exact hgen
  · rw [exec_aonc, Affine.onCurve_eq_decide]
  · rw [exec_aeq, Affine.equals_eq_decide]
  · have hc : (s.getA a).onCurve = true := by rw [Affine.onCurve, hinf, Bool.true_or]
    rw [exec_ators_of_onCurve a hc, Affine.torsionFree_of_inf hinf]
  · rw [exec_ators_of_onCurve a hc, Affine.torsionFree_of_onCurve hinf hc, seedAbs]

/-! ### Byte strings with flag bits as integers (R304-R307) -/

theorem pow_256 (n : Nat) : 256 ^ n = 2 ^ (8 * n) := by
  rw [show 256 = 2 ^ 8 from rfl, ← pow_mul]

/-- Flag bits above a string whose own top three bits are 0. -/
theorem beInt_orHead {flags : Byte} {bs : List Byte} {n k : Nat} (hn : bs.length = n + 1)
    (hk : 8 * n + 5 = k) (hbs : beInt bs < 2 ^ k) (hflags : flags.toNat % 32 = 0) :
    beInt (orHead flags bs) = flags.toNat * 2 ^ (8 * n) + beInt bs := by
  subst hk
  cases bs with
  | nil => simp at hn
  | cons b bs =>
    have hlen : bs.length = n := by simpa using hn
    have hint := beInt_cons b bs
    rw [hlen, pow_256] at hint
    have hb : b.toNat < 2 ^ 5 := by
      rw [hint, pow_add] at hbs
      exact lt_of_mul_lt_mul_left (by rw [mul_comm]; omega) (Nat.zero_le (2 ^ (8 * n)))
    have hor : (b ||| flags).toNat = flags.toNat + b.toNat := by
      rw [BitVec.toNat_or, Nat.or_comm, ← Nat.div_add_mod flags.toNat (2 ^ 5),
        show flags.toNat % 2 ^ 5 = 0 from hflags, Nat.add_zero, Nat.two_pow_add_eq_or_of_lt hb]
    rw [orHead, beInt_cons, hor, hint, hlen, pow_256]
    ring

theorem headFlags_eq_testBit {bs : List Byte} {n k : Nat} (hn : bs.length = n + 1) (hk : 8 * n + 5 = k) :
    headFlags bs = ⟨(beInt bs).testBit (k + 2), (beInt bs).testBit (k + 1), (beInt bs).testBit k⟩ := by
  subst hk
  cases bs with
  | nil => simp at hn
  | cons b bs =>
    have hlen : bs.length = n := by simpa using hn
    have hlow : beInt bs < 2 ^ (8 * n) := by
      rw [← pow_256, ← hlen]
      exact beInt_lt bs
    have hbit (i : Nat) : (beInt (b :: bs)).testBit (8 * n + i) = b.getLsbD i := by
      rw [beInt_cons, hlen, pow_256, mul_comm, Nat.testBit_two_pow_mul_add _ hlow, if_neg (by omega),
        Nat.add_sub_cancel_left]
      rfl
    rw [hbit, Nat.add_assoc, hbit, Nat.add_assoc, hbit]
    rfl

theorem beInt_maskHead {bs : List Byte} {n k : Nat} (hn : bs.length = n + 1) (hk : 8 * n + 5 = k) :
    beInt (maskHead bs) = beInt bs % 2 ^ k := by
  subst hk
  obtain ⟨hsplit, hlt⟩ := head_split bs n hn
  have hM : 32 * 256 ^ n = 2 ^ (8 * n + 5) := by
    rw [pow_256, mul_comm, pow_add]
    rfl
  rw [hM] at hsplit hlt
  rw [hsplit, Nat.mul_add_mod_self_right, Nat.mod_eq_of_lt hlt]

/-! ### What the serializers store (O52) -/

theorem p_lt_two_pow_381 : p < 2 ^ 381 := by decide +kernel

/-- A coordinate leaves the three flag bits of its 48 bytes free. -/
theorem beInt_orHead_beBytes {flags : Byte} (hflags : flags.toNat % 32 = 0) (v : Fp) :
    beInt (orHead flags (beBytes 48 v.val)) = flags.toNat * 2 ^ 376 + v.val := by
  have hlt : beInt (beBytes 48 v.val) < 2 ^ 381 := by
    rw [beInt_beBytes_val]
    exact v.isLt.trans p_lt_two_pow_381
  rw [beInt_orHead (n := 47) (k := 381) (beBytes_length _ _) rfl hlt hflags, beInt_beBytes_val]

theorem encodeCompressed_of_inf {a : Affine} (h : a.inf = true) :
    encodeCompressed a = orHead 0xC0 (beBytes 48 (toFp 0).val) := by
  rw [encodeCompressed, h, Bool.not_true, Bool.false_and, if_pos rfl, if_pos rfl, if_neg Bool.false_ne_true]
  rfl

theorem encodeCompressed_of_not_inf {a : Affine} (h : a.inf = false) :
    encodeCompressed a = orHead (if lexF a.y then 0xA0 else 0x80) (beBytes 48 a.x.val) := by
  rw [encodeCompressed, h]
  cases lexF a.y <;> rfl

/-- The integer of a compressed encoding (R304). -/
theorem beInt_encodeCompressed (a : Affine) :
    beInt (encodeCompressed a) =
      if a.inf then 2 ^ 383 + 2 ^ 382
      else 2 ^ 383 + (if (p - 1) / 2 < a.y.val then 2 ^ 381 else 0) + a.x.val := by
  cases h : a.inf with
  | true =>
    rw [encodeCompressed_of_inf h, beInt_orHead_beBytes rfl, if_pos rfl]
    decide +kernel
  | false =>
    rw [encodeCompressed_of_not_inf h, lexF, halfP_eq, if_neg Bool.false_ne_true]
    by_cases hy : (p - 1) / 2 < a.y.val
    · rw [decide_eq_true hy, if_pos rfl, if_pos hy, beInt_orHead_beBytes rfl]
      exact congrArg (· + a.x.val) (by decide +kernel)
    · rw [decide_eq_false hy, if_neg Bool.false_ne_true, if_neg hy, beInt_orHead_beBytes rfl]
      exact congrArg (· + a.x.val) (by decide +kernel)

theorem encodeUncompressed_of_inf {a : Affine} (h : a.inf = true) :
    encodeUncompressed a = orHead 0x40 (beBytes 48 (toFp 0).val) ++ beBytes 48 (toFp 0).val := by
  rw [encodeUncompressed, h]
  rfl

theorem encodeUncompressed_of_not_inf {a : Affine} (h : a.inf = false) :
    encodeUncompressed a = orHead 0 (beBytes 48 a.x.val) ++ beBytes 48 a.y.val := by
  rw [encodeUncompressed, h]
  rfl

/-- The integer of an uncompressed encoding (R306). -/
theorem beInt_encodeUncompressed (a : Affine) :
    beInt (encodeUncompressed a) =
      if a.inf then 2 ^ 766 else a.x.val * 2 ^ 384 + a.y.val := by
  have hpow : 256 ^ 48 = 2 ^ 384 := by decide +kernel
  cases h : a.inf with
  | true =>
    rw [encodeUncompressed_of_inf h, beInt_append, beInt_orHead_beBytes rfl, beInt_beBytes_val,
      beBytes_length, if_pos rfl]
    decide +kernel
  | false =>
    rw [encodeUncompressed_of_not_inf h, beInt_append, beInt_orHead_beBytes rfl, beInt_beBytes_val,
      beBytes_length, hpow, if_neg Bool.false_ne_true, show (0 : Byte).toNat = 0 from rfl,
      Nat.zero_mul, Nat.zero_add]

/-- Settles O52: the stored bytes are the encodings, whose integers are those of R304 and R306. -/
theorem pointsAreSerialized : Obligations.PointsAreSerialized := by
  intro a off s hm
  refine ⟨fun hoff => ?_, fun hoff => ?_⟩
  · have hfit : bufFits off 48 = true := bufFits_of_le hoff rfl
    refine ⟨_, exec_astc a off s hfit, ?_⟩
    rw [readBytes_complete_storeAt (encodeCompressed_length _) hfit hm, beInt_encodeCompressed]
  · have hfit : bufFits off 96 = true := bufFits_of_le hoff rfl
    refine ⟨_, exec_astu a off s hfit, ?_⟩
    rw [readBytes_complete_storeAt (encodeUncompressed_length _) hfit hm, beInt_encodeUncompressed]

/-! ### The root of a given sign (00_scope.md R21; R305) -/

theorem p_eq_two_mul_halfP : p = 2 * halfP + 1 := by decide +kernel

theorem lexF_modNeg {y : Fp} (h : toZ y ≠ 0) : lexF (modNeg y) = !lexF y := by
  have h0 : y.val ≠ 0 := fun e => h (by rw [toZ, e, Nat.cast_zero])
  have hval : (modNeg y).val = p - y.val := by
    rw [modNeg_val, Nat.mod_eq_of_lt (Nat.sub_lt p_pos (Nat.pos_of_ne_zero h0))]
  have hlt := y.isLt
  have hp := p_eq_two_mul_halfP
  rw [Bool.eq_iff_iff, Bool.not_eq_true', lexF, lexF, decide_eq_true_iff, decide_eq_false_iff_not, hval]
  omega

/-- y or its negative, the one whose sign is the sort bit. -/
def signedRoot (y : Fp) (sort : Bool) : Fp := if lexF y != sort then modNeg y else y

theorem lexF_signedRoot {y : Fp} (h : toZ y ≠ 0) (sort : Bool) : lexF (signedRoot y sort) = sort := by
  unfold signedRoot
  split
  next hne => rw [lexF_modNeg h, Bool.eq_not.mpr (bne_iff_ne.mp hne), Bool.not_not]
  next heq => simpa using heq

theorem toZ_signedRoot_mul_self (y : Fp) (sort : Bool) :
    toZ (signedRoot y sort) * toZ (signedRoot y sort) = toZ y * toZ y := by
  unfold signedRoot
  split
  · rw [toZ_modNeg, neg_mul_neg]
  · rfl

theorem onCurve_signedRoot (x y : Fp) (sort : Bool) : onCurve x (signedRoot y sort) = onCurve x y := by
  rw [Bool.eq_iff_iff, onCurve_iff, onCurve_iff, toZ_signedRoot_mul_self]

/-- A point of E is known from its x coordinate and the sign of its y. -/
theorem eq_of_onCurve_of_lexF {x y1 y2 : Fp} (h1 : onCurve x y1 = true) (h2 : onCurve x y2 = true)
    (hlex : lexF y1 = lexF y2) : y1 = y2 := by
  have := fact_p
  have hsq := ((onCurve_iff x y1).mp h1).trans ((onCurve_iff x y2).mp h2).symm
  rcases mul_self_eq_mul_self_iff.mp hsq with heq | hneg
  · exact toZ_injective heq
  · have hy : y1 = modNeg y2 := toZ_injective (hneg.trans (toZ_modNeg y2).symm)
    have hy2 : toZ y2 ≠ 0 := Point.OnCurve.y_ne_zero (x := x) h2
    rw [hy, lexF_modNeg hy2] at hlex
    exact absurd hlex (Bool.not_ne_self _)

/-! ### What an unchecked decoder answers (R305, R307) -/

/-- The three answers of a decoder: O, on the encoding of O; a pair with the properties `P`, on the encodings
of pairs; and no value. -/
inductive Decoded (isIdentity isPair : Prop) (P : Affine → Prop) : Affine × Bool → Prop
  | identity (hid : isIdentity) (hpair : ¬ isPair) : Decoded isIdentity isPair P (Affine.id, true)
  | pair (c : Affine) (hid : ¬ isIdentity) (hpair : isPair) (hinf : c.inf = false) (hP : P c) :
      Decoded isIdentity isPair P (c, true)
  | none (hid : ¬ isIdentity) (hpair : ¬ isPair) : Decoded isIdentity isPair P (Affine.id, false)

section
variable {isIdentity isPair : Prop} {P : Affine → Prop} {res : Affine × Bool}
  (h : Decoded isIdentity isPair P res)
include h

theorem Decoded.eq_id_of_not_ok (hok : res.2 = false) : res.1 = Affine.id := by
  cases h with
  | none => rfl
  | _ => cases hok

theorem Decoded.eq_id_of_inf (hinf : res.1.inf = true) : res.1 = Affine.id := by
  cases h with
  | pair c hid hpair hc => exact absurd hinf (by simp [hc])
  | _ => rfl

theorem Decoded.ok_inf_iff : res.2 = true ∧ res.1.inf = true ↔ isIdentity := by
  cases h with
  | identity hid => exact iff_of_true ⟨rfl, rfl⟩ hid
  | pair c hid hpair hc => exact iff_of_false (by simp [hc]) hid
  | none hid => exact iff_of_false nofun hid

theorem Decoded.ok_not_inf_iff : res.2 = true ∧ res.1.inf = false ↔ isPair := by
  cases h with
  | identity hid hpair => exact iff_of_false nofun hpair
  | pair c hid hpair hc => exact iff_of_true ⟨rfl, hc⟩ hpair
  | none hid hpair => exact iff_of_false nofun hpair

theorem Decoded.property (hok : res.2 = true ∧ res.1.inf = false) : P res.1 := by
  cases h with
  | pair c hid hpair hc hP => exact hP
  | _ => cases hok.1 <;> cases hok.2

theorem Decoded.eq_of_isIdentity (hid : isIdentity) : res = (Affine.id, true) := by
  obtain ⟨hok, hinf⟩ := h.ok_inf_iff.mpr hid
  exact Prod.ext (h.eq_id_of_inf hinf) hok

/-- The in-band result of an unchecked load is the decoder's answer as it stands. -/
theorem Decoded.resultA_eq (s : State) (d : RegIdx) :
    s.resultA d res.1 res.2 = (s.setA d res.1).setT res.2 := by
  cases h <;> rfl

end

/-! ### Compressed encodings (O53; R305) -/

/-- x³ + 4, the square of the y coordinate. -/
def curveRhs (x : Fp) : Fp := x * x * x + curveB

theorem curveRhs_val (n : Nat) : (curveRhs (toFp n)).val = (n ^ 3 + 4) % p := by
  refine val_of_toZ ?_
  rw [curveRhs, toZ_add, toZ_mul, toZ_mul, curveB, toZ_toFp, toZ_toFp]
  push_cast
  ring

theorem fpSqrt_curveRhs_ok_iff (n : Nat) :
    (fpSqrt (curveRhs (toFp n))).2 = true ↔ ∃ y : Nat, y ^ 2 % p = (n ^ 3 + 4) % p := by
  rw [fpSqrt_ok_iff_square, curveRhs_val]
  simp only [pow_two]

/-- The integers that encode a point other than O: bits 383 and 382 are 1 and 0, and the body is the x
coordinate of a point. -/
def IsCompressedPoint (v : Nat) : Prop :=
  v.testBit 383 = true ∧ v.testBit 382 = false ∧ v % 2 ^ 381 < p ∧
    ∃ y : Nat, y ^ 2 % p = ((v % 2 ^ 381) ^ 3 + 4) % p

section
variable {bs : List Byte} {v : Nat} (hlen : bs.length = 48) (hv : beInt bs = v)
include hlen hv

theorem decodeCompressed_eq :
    decodeCompressed bs =
      if p ≤ v % 2 ^ 381 then (Affine.id, false)
      else if v.testBit 382 then
        (Affine.id, v.testBit 383 && !v.testBit 381 && v % 2 ^ 381 == 0)
      else if !v.testBit 383 then (Affine.id, false)
      else if !(fpSqrt (curveRhs (toFp (v % 2 ^ 381)))).2 then (Affine.id, false)
      else (⟨toFp (v % 2 ^ 381),
        signedRoot (fpSqrt (curveRhs (toFp (v % 2 ^ 381)))).1 (v.testBit 381), false⟩, true) := by
  rw [decodeCompressed, headFlags_eq_testBit (n := 47) (k := 381) hlen rfl,
    beInt_maskHead (n := 47) (k := 381) hlen rfl, hv]
  rfl

theorem compressed_identity_iff :
    v = 2 ^ 383 + 2 ^ 382 ↔
      v.testBit 383 = true ∧ v.testBit 382 = true ∧ v.testBit 381 = false ∧ v % 2 ^ 381 = 0 := by
  refine ⟨fun h => ?_, fun ⟨h383, h382, h381, hbody⟩ => ?_⟩
  · rw [h]
    decide +kernel
  · have hsplit := (head_split bs 47 hlen).1
    rw [headFlags_eq_testBit (n := 47) (k := 381) hlen rfl,
      beInt_maskHead (n := 47) (k := 381) hlen rfl, hv] at hsplit
    rw [hsplit]
    simp only [h383, h382, h381, hbody]
    decide +kernel

/-- What `ALDCU` finds in a 48-byte string. -/
theorem decodeCompressed_decoded :
    Decoded (v = 2 ^ 383 + 2 ^ 382) (IsCompressedPoint v)
      (fun c => c.x.val = v % 2 ^ 381 ∧ c.y.val ^ 2 % p = ((v % 2 ^ 381) ^ 3 + 4) % p ∧
        decide ((p - 1) / 2 < c.y.val) = v.testBit 381)
      (decodeCompressed bs) := by
  have hidentity := compressed_identity_iff hlen hv
  rw [decodeCompressed_eq hlen hv]
  by_cases hid : v = 2 ^ 383 + 2 ^ 382
  · obtain ⟨h383, h382, h381, hbody⟩ := hidentity.mp hid
    rw [hbody, if_neg p_pos.not_ge, if_pos h382, h383, h381]
    exact .identity hid fun hpt => Bool.false_ne_true (hpt.2.1.symm.trans h382)
  by_cases hpt : IsCompressedPoint v
  · have ⟨h383, h382, hbody, hsq⟩ := hpt
    have hok := (fpSqrt_curveRhs_ok_iff _).mpr hsq
    have hroot : onCurve (toFp (v % 2 ^ 381)) (fpSqrt (curveRhs (toFp (v % 2 ^ 381)))).1 = true := hok
    have hsigned := (onCurve_signedRoot _ _ (v.testBit 381)).trans hroot
    have hx : (toFp (v % 2 ^ 381)).val = v % 2 ^ 381 := Nat.mod_eq_of_lt hbody
    rw [onCurve_iff_val, hx] at hsigned
    rw [if_neg hbody.not_ge, h382, h383, hok]
    refine .pair _ hid hpt rfl ⟨hx, hsigned, ?_⟩
    rw [← halfP_eq]
    exact lexF_signedRoot (Point.OnCurve.y_ne_zero hroot) _
  split
  · exact .none hid hpt
  next hbody =>
  split
  next h382 =>
    have hflags : (v.testBit 383 && !v.testBit 381 && v % 2 ^ 381 == 0) = false := by
      rw [Bool.eq_false_iff]
      intro hall
      simp only [Bool.and_eq_true, Bool.not_eq_true', beq_iff_eq] at hall
      exact hid (hidentity.mpr ⟨hall.1.1, h382, hall.1.2, hall.2⟩)
    rw [hflags]
    exact .none hid hpt
  next h382 =>
  split
  · exact .none hid hpt
  next h383 =>
  split
  · exact .none hid hpt
  next hok =>
    rw [Bool.not_eq_true', Bool.not_eq_false] at h383 hok
    exact absurd ⟨h383, Bool.eq_false_iff.mpr h382, Nat.lt_of_not_ge hbody,
      (fpSqrt_curveRhs_ok_iff _).mp hok⟩ hpt

end

/-- Settles O53: the clauses on the value are those of the decoder's answer; the checked load adds the
subgroup test to it. -/
theorem compressedPointsAreDeserialized : Obligations.CompressedPointsAreDeserialized := by
  intro d off s v x hoff hv hx
  subst hx
  have hfit : bufFits off 48 = true := bufFits_of_le hoff rfl
  have hdec := decodeCompressed_decoded (readBytes_length s.iobuf off.toNat 48) hv.symm
  refine ⟨_, _, ?_, hdec.eq_id_of_not_ok, hdec.ok_inf_iff, hdec.eq_id_of_inf, hdec.ok_not_inf_iff,
    hdec.property, fun ⟨hok, htf⟩ => ?_, fun hfail => ?_⟩
  · rw [exec_aldcu d off s hfit, hdec.resultA_eq]
  · rw [exec_aldc d off s hfit, hok, htf]
    rfl
  · rw [exec_aldc d off s hfit, Bool.and_eq_false_iff.mpr hfail]
    rfl

/-! ### Uncompressed encodings (O54; R307) -/

/-- The integers that encode a pair: the three flag bits are 0, and both coordinates are below p. -/
def IsUncompressedPair (v : Nat) : Prop :=
  v / 2 ^ 765 = 0 ∧ v / 2 ^ 384 % 2 ^ 381 < p ∧ v % 2 ^ 384 < p

section
variable {bs : List Byte} {v : Nat} (hlen : bs.length = 96) (hv : beInt bs = v)
include hlen hv

theorem beInt_halves : beInt (bs.take 48) = v / 2 ^ 384 ∧ beInt (bs.drop 48) = v % 2 ^ 384 := by
  have hdrop : (bs.drop 48).length = 48 := by rw [List.length_drop, hlen]
  have hlt := beInt_lt (bs.drop 48)
  have happ := beInt_append (bs.take 48) (bs.drop 48)
  rw [List.take_append_drop, hv, hdrop, mul_comm] at happ
  rw [hdrop] at hlt
  rw [happ, show 2 ^ 384 = 256 ^ 48 by decide +kernel]
  generalize 256 ^ 48 = radix at hlt
  rw [Nat.mul_add_div (Nat.zero_lt_of_lt hlt), Nat.div_eq_of_lt hlt, Nat.mul_add_mod,
    Nat.mod_eq_of_lt hlt]
  exact ⟨rfl, rfl⟩

theorem decodeUncompressed_eq :
    decodeUncompressed bs =
      if p ≤ v / 2 ^ 384 % 2 ^ 381 || p ≤ v % 2 ^ 384 then (Affine.id, false)
      else if v.testBit 767 || v.testBit 765 then (Affine.id, false)
      else if v.testBit 766 then (Affine.id, v / 2 ^ 384 % 2 ^ 381 == 0 && v % 2 ^ 384 == 0)
      else (⟨toFp (v / 2 ^ 384 % 2 ^ 381), toFp (v % 2 ^ 384), false⟩, true) := by
  obtain ⟨htake, hdrop⟩ := beInt_halves hlen hv
  have hhead : (bs.take 48).length = 47 + 1 := by rw [List.length_take, hlen]; rfl
  rw [decodeUncompressed, headFlags_eq_testBit (n := 95) (k := 765) hlen rfl,
    beInt_maskHead (n := 47) (k := 381) hhead rfl, htake, hdrop, hv]

theorem uncompressed_identity_iff :
    v = 2 ^ 766 ↔ v.testBit 767 = false ∧ v.testBit 766 = true ∧ v.testBit 765 = false ∧
      v / 2 ^ 384 % 2 ^ 381 = 0 ∧ v % 2 ^ 384 = 0 := by
  refine ⟨fun h => ?_, fun ⟨h767, h766, h765, hx, hy⟩ => ?_⟩
  · rw [h]
    decide +kernel
  · have hsplit := (head_split bs 95 hlen).1
    rw [headFlags_eq_testBit (n := 95) (k := 765) hlen rfl, beInt_maskHead (n := 95) (k := 765) hlen rfl,
      hv, show 765 = 384 + 381 from rfl, pow_add, Nat.mod_mul, hx, hy] at hsplit
    rw [hsplit]
    simp only [h767, h766, h765]
    decide +kernel

/-- The three flag bits of 96 bytes are all 0 exactly when the integer is below 2^765. -/
theorem div_eq_zero_iff_flags :
    v / 2 ^ 765 = 0 ↔ v.testBit 767 = false ∧ v.testBit 766 = false ∧ v.testBit 765 = false := by
  have hbit (j : Nat) : (v / 2 ^ 765).testBit j = v.testBit (j + 765) := by
    rw [Nat.testBit_div_two_pow]
  have hlt : v / 2 ^ 765 < 8 := by
    refine Nat.div_lt_of_lt_mul ?_
    rw [← hv]
    refine (beInt_lt bs).trans_eq ?_
    rw [hlen]
    decide +kernel
  rw [← hbit 2, ← hbit 1, ← hbit 0]
  generalize v / 2 ^ 765 = w at hlt
  revert w
  decide

/-- What `ALDUU` finds in a 96-byte string. -/
theorem decodeUncompressed_decoded :
    Decoded (v = 2 ^ 766) (IsUncompressedPair v)
      (fun c => c.x.val = v / 2 ^ 384 % 2 ^ 381 ∧ c.y.val = v % 2 ^ 384) (decodeUncompressed bs) := by
  have hidentity := uncompressed_identity_iff hlen hv
  have hflags := div_eq_zero_iff_flags hlen hv
  rw [decodeUncompressed_eq hlen hv]
  by_cases hid : v = 2 ^ 766
  · obtain ⟨h767, h766, h765, hx, hy⟩ := hidentity.mp hid
    rw [hx, hy, h767, h766, h765]
    exact .identity hid fun hpair => Bool.false_ne_true ((hflags.mp hpair.1).2.1.symm.trans h766)
  by_cases hpair : IsUncompressedPair v
  · have ⟨hzero, hx, hy⟩ := hpair
    obtain ⟨h767, h766, h765⟩ := hflags.mp hzero
    rw [decide_eq_false hx.not_ge, decide_eq_false hy.not_ge, h767, h766, h765]
    exact .pair _ hid hpair rfl ⟨Nat.mod_eq_of_lt hx, Nat.mod_eq_of_lt hy⟩
  split
  · exact .none hid hpair
  next hxy =>
  split
  · exact .none hid hpair
  next h767 =>
  rw [Bool.or_eq_true, not_or, Bool.not_eq_true, Bool.not_eq_true] at h767
  split
  next h766 =>
    have hbody : (v / 2 ^ 384 % 2 ^ 381 == 0 && v % 2 ^ 384 == 0) = false := by
      rw [Bool.eq_false_iff]
      intro hall
      rw [Bool.and_eq_true, beq_iff_eq, beq_iff_eq] at hall
      exact hid (hidentity.mpr ⟨h767.1, h766, h767.2, hall⟩)
    rw [hbody]
    exact .none hid hpair
  next h766 =>
    rw [Bool.or_eq_true, not_or, decide_eq_true_iff, decide_eq_true_iff, not_le, not_le] at hxy
    exact absurd ⟨hflags.mpr ⟨h767.1, Bool.eq_false_iff.mpr h766, h767.2⟩, hxy⟩ hpair

end

/-- Settles O54: as for the compressed loads; the checked load adds the curve test and the subgroup test. -/
theorem uncompressedPointsAreDeserialized : Obligations.UncompressedPointsAreDeserialized := by
  intro d off s v x y hoff hv hx hy
  subst hx hy
  have hfit : bufFits off 96 = true := bufFits_of_le hoff rfl
  have hdec := decodeUncompressed_decoded (readBytes_length s.iobuf off.toNat 96) hv.symm
  refine ⟨_, _, ?_, hdec.eq_id_of_not_ok, hdec.ok_inf_iff, hdec.eq_id_of_inf, hdec.ok_not_inf_iff,
    hdec.property, fun ⟨hok, hc, htf⟩ => ?_, fun hfail => ?_⟩
  · rw [exec_alduu d off s hfit, hdec.resultA_eq]
  · rw [exec_aldu d off s hfit, hok, hc, htf]
    rfl
  · rw [← Bool.and_eq_false_iff, ← Bool.and_eq_false_iff, ← Bool.and_assoc] at hfail
    rw [exec_aldu d off s hfit, hfail]
    rfl

/-! ### Round trips (O55) -/

theorem IsUncompressedPair.of_coordinates {x y v : Nat} (hx : x < p) (hy : y < p)
    (hv : v = x * 2 ^ 384 + y) :
    IsUncompressedPair v ∧ v / 2 ^ 384 % 2 ^ 381 = x ∧ v % 2 ^ 384 = y := by
  have hdiv : v / 2 ^ 384 = x := by
    have hlt := hy.trans p_lt_pow
    rw [hv]
    generalize 2 ^ 384 = radix at hlt
    rw [mul_comm, Nat.mul_add_div (Nat.zero_lt_of_lt hlt), Nat.div_eq_of_lt hlt, Nat.add_zero]
  have hmod : v % 2 ^ 384 = y := by
    rw [hv, Nat.mul_add_mod_of_lt (hy.trans p_lt_pow)]
  have hx381 : x < 2 ^ 381 := hx.trans p_lt_two_pow_381
  have hbody : v / 2 ^ 384 % 2 ^ 381 = x := by rw [hdiv, Nat.mod_eq_of_lt hx381]
  refine ⟨⟨?_, by rwa [hbody], by rwa [hmod]⟩, hbody, hmod⟩
  rw [show 765 = 384 + 381 from rfl, pow_add, ← Nat.div_div_eq_div_mul, hdiv, Nat.div_eq_of_lt hx381]

theorem Affine.eq_of_coordinates {a b : Affine} (hx : a.x = b.x) (hy : a.y = b.y) (hinf : a.inf = b.inf) :
    a = b := by
  cases a
  cases b
  congr

theorem decodeUncompressed_encodeUncompressed {a : Affine} (hcanon : a.inf = true → a = Affine.id) :
    decodeUncompressed (encodeUncompressed a) = (a, true) := by
  have hint := beInt_encodeUncompressed a
  cases hinf : a.inf with
  | true =>
    rw [hinf, if_pos rfl] at hint
    rw [(decodeUncompressed_decoded (encodeUncompressed_length a) rfl).eq_of_isIdentity hint, hcanon hinf]
  | false =>
    rw [hinf, if_neg Bool.false_ne_true] at hint
    obtain ⟨hpair, hx, hy⟩ := IsUncompressedPair.of_coordinates a.x.isLt a.y.isLt hint
    have hdec := decodeUncompressed_decoded (encodeUncompressed_length a) rfl
    have hok := hdec.ok_not_inf_iff.mpr hpair
    obtain ⟨hcx, hcy⟩ := hdec.property hok
    exact Prod.ext (Affine.eq_of_coordinates (Fin.ext (hcx.trans hx)) (Fin.ext (hcy.trans hy))
      (hok.2.trans hinf.symm)) hok.1

/-- Bit 383, the sort bit and the body of a compressed encoding. -/
theorem IsCompressedPoint.of_coordinates {x y : Fp} {v : Nat} (hc : onCurve x y = true)
    (hv : v = 2 ^ 383 + (if (p - 1) / 2 < y.val then 2 ^ 381 else 0) + x.val) :
    IsCompressedPoint v ∧ v % 2 ^ 381 = x.val ∧ v.testBit 381 = lexF y := by
  have hx : x.val < 2 ^ 381 := x.isLt.trans p_lt_two_pow_381
  have hflags : v = 2 ^ 381 * (if lexF y then 5 else 4) + x.val := by
    rw [hv, ← halfP_eq, lexF]
    by_cases hy : halfP < y.val
    · rw [decide_eq_true hy, if_pos hy, if_pos rfl]
      exact congrArg (· + x.val) (by decide +kernel)
    · rw [decide_eq_false hy, if_neg hy, if_neg Bool.false_ne_true]
      exact congrArg (· + x.val) (by decide +kernel)
  have hbody : v % 2 ^ 381 = x.val := by rw [hflags, Nat.mul_add_mod, Nat.mod_eq_of_lt hx]
  have hbit (j : Nat) : v.testBit (381 + j) = (if lexF y then 5 else 4).testBit j := by
    rw [hflags, Nat.testBit_two_pow_mul_add _ hx, if_neg (by omega), Nat.add_sub_cancel_left]
  refine ⟨⟨(hbit 2).trans ?_, (hbit 1).trans ?_, by rw [hbody]; exact x.isLt,
    y.val, by rw [hbody]; exact (onCurve_iff_val x y).mp hc⟩, hbody, (hbit 0).trans ?_⟩ <;>
  cases lexF y <;> rfl

theorem decodeCompressed_encodeCompressed {a : Affine} (hcanon : a.inf = true → a = Affine.id)
    (hc : a.onCurve = true) : decodeCompressed (encodeCompressed a) = (a, true) := by
  have hint := beInt_encodeCompressed a
  cases hinf : a.inf with
  | true =>
    rw [hinf, if_pos rfl] at hint
    rw [(decodeCompressed_decoded (encodeCompressed_length a) rfl).eq_of_isIdentity hint, hcanon hinf]
  | false =>
    rw [hinf, if_neg Bool.false_ne_true] at hint
    rw [Affine.onCurve_of_not_inf hinf] at hc
    obtain ⟨hpt, hx, hsort⟩ := IsCompressedPoint.of_coordinates hc hint
    have hdec := decodeCompressed_decoded (encodeCompressed_length a) rfl
    have hok := hdec.ok_not_inf_iff.mpr hpt
    obtain ⟨hcx, hcurve, hlex⟩ := hdec.property hok
    have hxeq := Fin.ext (hcx.trans hx)
    rw [← hcx, ← onCurve_iff_val, hxeq] at hcurve
    rw [← halfP_eq] at hlex
    exact Prod.ext (Affine.eq_of_coordinates hxeq (eq_of_onCurve_of_lexF hcurve hc (hlex.trans hsort))
      (hok.2.trans hinf.symm)) hok.1

/-- Settles O55: the bytes read back are the encoding, and decoding it gives the value encoded. -/
theorem codecRoundTrips : Obligations.CodecRoundTrips := by
  intro d a off s hm hcanon
  refine ⟨fun hoff => ?_, fun hoff hc => ?_⟩
  · have hfit : bufFits off 96 = true := bufFits_of_le hoff rfl
    have hread := readBytes_complete_storeAt (encodeUncompressed_length (s.getA a)) hfit hm
    have hdec := decodeUncompressed_encodeUncompressed hcanon
    refine ⟨_, exec_astu a off s hfit, ?_, fun hc htf => ?_⟩
    · rw [exec_alduu d off _ hfit, hread, hdec]
      rfl
    · rw [exec_aldu d off _ hfit, hread, hdec, hc, htf]
      rfl
  · have hfit : bufFits off 48 = true := bufFits_of_le hoff rfl
    have hread := readBytes_complete_storeAt (encodeCompressed_length (s.getA a)) hfit hm
    have hdec := decodeCompressed_encodeCompressed hcanon hc
    refine ⟨_, exec_astc a off s hfit, ?_, fun htf => ?_⟩
    · rw [exec_aldcu d off _ hfit, hread, hdec]
      rfl
    · rw [exec_aldc d off _ hfit, hread, hdec, htf]
      rfl

end Sys2Proof.Machine
end

section
/-!
The control commands (44_control.md R350-R353). `Laws.Exec` states the next state of each command;
the obligation is those four equations.
-/

namespace Sys2Proof.Machine

/-- Settles O56: for each of the four commands, its equation of `Laws.Exec`. -/
theorem controlCommands : Obligations.ControlCommands :=
  fun s => ⟨exec_nop s, exec_tnot s, exec_aset s, exec_tacc s⟩

end Sys2Proof.Machine
end

section
/-!
The exceptions family: the outcome of a write to CMD, the latch of the first error, what a host access leaves
of a command in flight, the race of a FLAGS write with a completion, and the completion of every command
(60_exceptions.md R362-R372).
-/

namespace Sys2Proof.Machine

/-! ### The completion of every command (O14) -/

theorem withRanges_not_fits {base1 base2 n : RegIdx} (cmd : Word32) (s e : State)
    (h : (rangeFits base1 n && rangeFits base2 n) = false) :
    withRanges base1 base2 n cmd s e = .next (s.raise .rangeReg cmd) := by
  simp only [withRanges, h, Bool.false_eq_true, if_false]

/-- Only the commands of formats N and N2 have register ranges to check (30_encoding.md R115). -/
theorem exec_of_not_regRangesFit {i : Instr} (s : State) (h : regRangesFit i = false) :
    exec i s = .next (s.raise .rangeReg (encode i)) := by
  cases i with
  | fsop | ssop | pbnorm => exact withRanges_not_fits _ s _ h
  | _ => cases h

/-- Only the commands of formats ML, MS and MX have an IOBUF range to check (30_encoding.md R114). -/
theorem exec_of_not_bufRangeFits {i : Instr} (s : State) (h : bufRangeFits i = false) :
    exec i s = .next (s.raise .rangeBuf (encode i)) := by
  cases i with
  | fpow | fldb | fstb | fldm | fstm | spow | sldb | sstb | sldm | sstm | sldw | sldr | astc | astu | aldc
  | aldcu | aldu | alduu => exact withBuf_not_fits _ s _ h
  | _ => cases h

/-- Settles O14: the completion writes its four fields over an effect that leaves CMDCNT, and a failing
operand check leaves only its `raise`. -/
theorem everyCommandCompletes : Obligations.EveryCommandCompletes := by
  refine fun i s => ⟨fun hw => ?_, exec_of_not_regRangesFit s, exec_of_not_bufRangeFits s⟩
  obtain ⟨e, he, heff⟩ := exec_effect i s hw
  exact ⟨e.complete, he, s.complete_completed e heff.cmdcnt⟩

/-! ### The outcome of a write to CMD (O23) -/

theorem writeCmd_of_err {s : State} (herr : s.err = true) (w : Word32) : writeCmd s w = s := by
  rw [writeCmd, if_pos herr]

/-- The report of E_CMD_BUSY; with ERR = 1 it is no change, as the drop is. -/
theorem writeCmd_of_busy {s : State} (hb : s.busy = true) (w : Word32) :
    writeCmd s w = s.raise .cmdBusy w := by
  cases herr : s.err with
  | true => rw [writeCmd_of_err herr, State.raise_of_err herr]
  | false => simp only [writeCmd, herr, hb, Bool.false_eq_true, if_false, if_true]

theorem writeCmd_of_decode {s : State} {w : Word32} {i : Instr} (herr : s.err = false)
    (hb : s.busy = false) (hd : decode w = .ok i) :
    writeCmd s w = { s with cur := some w, busy := true } := by
  simp only [writeCmd, herr, hb, hd, Bool.false_eq_true, if_false]

/-- The check of R121 has four errors. -/
theorem decode_error_cases {w : Word32} {e : CmdError} (h : decode w = .error e) :
    e = .illegalOp ∨ e = .reserved ∨ e = .rangeReg ∨ e = .rangeBuf := by
  unfold decode at h
  split at h
  · cases h; simp
  · split_ifs at h <;> cases h <;> simp

/-- Settles O23: the tests of R366 in their order. -/
theorem commandWriteOutcomes : Obligations.CommandWriteOutcomes := by
  intro s w
  cases herr : s.err with
  | true =>
    rw [hostAccess_writeCmd, writeCmd_of_err herr]
    rfl
  | false =>
    cases hb : s.busy with
    | true =>
      rw [hostAccess_writeCmd, writeCmd_of_busy hb, State.raise_of_not_err herr]
      rfl
    | false =>
      cases hd : decode w with
      | error e =>
        rw [hostAccess_writeCmd_refused hd herr hb]
        rcases decode_error_cases hd with rfl | rfl | rfl | rfl <;> rfl
      | ok i =>
        rw [hostAccess_writeCmd, writeCmd_of_decode herr hb hd]
        rfl

/-! ### Host accesses that are no writes, and writes to FLAGS and IOBUF -/

/-- Of the accesses of the host only a legal write can change the core. -/
theorem hostAccess_coreOf_cases (s : State) (a : Access) :
    (hostAccess s a).coreOf = s.coreOf ∨
      ∃ w, a.kind = .write w ∧ accessLegal a = true ∧
        (hostAccess s a).coreOf = (hostWrite s a.offset w).coreOf := by
  cases hk : a.kind with
  | read => exact .inl (hostAccess_read_coreOf hk s).1
  | write w =>
    cases hl : accessLegal a with
    | false =>
      rw [hostAccess_illegal s a hl]
      exact .inl rfl
    | true =>
      rw [hostAccess, if_pos hl, hk]
      exact .inr ⟨w, rfl, rfl, rfl⟩

theorem sreset_of_not_resets {a : Access} {w : Word32} (hk : a.kind = .write w)
    (hl : accessLegal a = true) (hr : a.resets = false) (hreg : hostReg a.offset = .ctrl) :
    w.getLsbD 0 = false := by
  simpa [Access.resets, hk, hl, hreg] using hr

theorem errBit_of_not_clearsErr {a : Access} {w : Word32} (hk : a.kind = .write w)
    (hl : accessLegal a = true) (hc : a.clearsErr = false) (hreg : hostReg a.offset = .status) :
    w.getLsbD 2 = false := by
  simpa [Access.clearsErr, hk, hl, hreg] using hc

theorem writeWhenIdle_of_busy {s : State} (hb : s.busy = true) (off : HostOff) (u : State) :
    writeWhenIdle s off u = s.raise .hostBusy (off.setWidth 32) := by
  rw [writeWhenIdle, if_pos hb]

theorem writeWhenIdle_of_idle {s : State} (hb : s.busy = false) (off : HostOff) (u : State) :
    writeWhenIdle s off u = u := by
  simp only [writeWhenIdle, hb, Bool.false_eq_true, if_false]

/-- While BUSY = 1, a write to FLAGS or IOBUF comes to the report of E_HOST_BUSY (60_exceptions.md R367). -/
theorem hostWrite_of_busy {s : State} (hb : s.busy = true) {off : HostOff} (w : Word32)
    (hreg : hostReg off = .flags ∨ ∃ k, hostReg off = .iobuf k) :
    hostWrite s off w = s.raise .hostBusy (off.setWidth 32) := by
  unfold hostWrite
  rcases hreg with hreg | ⟨k, hreg⟩ <;> rw [hreg] <;> exact writeWhenIdle_of_busy hb off _

/-! ### The first error (O24; 60_exceptions.md R364) -/

/-- ERR is 1 in `t`, with the report of `s`. -/
def Latched (s t : State) : Prop :=
  t.err = true ∧ t.errCode = s.errCode ∧ t.errInfo = s.errInfo

/-- ERR, ERRCODE and ERRINFO are 0. -/
def NoReport (t : State) : Prop := t.err = false ∧ t.errCode = 0 ∧ t.errInfo = 0

theorem Latched.of_coreOf {s t u : State} (h : Latched s u) (hcore : t.coreOf = u.coreOf) :
    Latched s t := by
  obtain ⟨herr, hcode, hinfo⟩ := h
  exact ⟨(congrArg State.err hcore).trans herr, (congrArg State.errCode hcore).trans hcode,
    (congrArg State.errInfo hcore).trans hinfo⟩

section
variable {s : State} (herr : s.err = true)
include herr

theorem Latched.refl : Latched s s := ⟨herr, rfl, rfl⟩

theorem engineStep_latched {t : State} (h : engineStep s = .next t) : Latched s t := by
  rcases engineStep_next h with rfl | ⟨i, hw, hi⟩
  · exact .refl herr
  · obtain ⟨hterr, hcode, hinfo⟩ := (exec_frame hw hi).report
    exact ⟨hterr.trans herr, hcode, hinfo⟩

theorem writeWhenIdle_latched {u : State} (off : HostOff) (h : Latched s u) :
    Latched s (writeWhenIdle s off u) := by
  cases hb : s.busy with
  | true =>
    rw [writeWhenIdle_of_busy hb, State.raise_of_err herr]
    exact .refl herr
  | false =>
    rw [writeWhenIdle_of_idle hb]
    exact h

/-- While ERR = 1, a write that neither resets nor clears ERR keeps the report. -/
theorem hostWrite_latched (off : HostOff) (w : Word32)
    (hreset : hostReg off = .ctrl → w.getLsbD 0 = false)
    (hclear : hostReg off = .status → w.getLsbD 2 = false) : Latched s (hostWrite s off w) := by
  unfold hostWrite
  split
  · next hreg =>
    rw [writeCtrl_of_not_sreset s (hreset hreg)]
    exact ⟨herr, rfl, rfl⟩
  · next hreg =>
    rw [writeStatus_eq, hclear hreg, herr]
    exact ⟨rfl, rfl, rfl⟩
  · exact writeWhenIdle_latched herr off ⟨herr, rfl, rfl⟩
  · rw [writeCmd_of_err herr]
    exact .refl herr
  · exact writeWhenIdle_latched herr off ⟨herr, rfl, rfl⟩
  all_goals exact .refl herr

theorem hostAccess_latched {a : Access} (hr : a.resets = false) (hc : a.clearsErr = false) :
    Latched s (hostAccess s a) := by
  rcases hostAccess_coreOf_cases s a with hcore | ⟨w, hk, hl, hcore⟩
  · exact (Latched.refl herr).of_coreOf hcore
  · exact (hostWrite_latched herr a.offset w (sreset_of_not_resets hk hl hr)
      (errBit_of_not_clearsErr hk hl hc)).of_coreOf hcore

end

theorem writeStatus_noReport (s : State) {w : Word32} (h : w.getLsbD 2 = true) :
    NoReport (writeStatus s w) := by
  rw [writeStatus_eq, h]
  exact ⟨Bool.and_false _, rfl, rfl⟩

theorem hostAccess_noReport (s : State) {a : Access} (h : a.resets = true ∨ a.clearsErr = true) :
    NoReport (hostAccess s a) := by
  rcases h with hr | hc
  · obtain ⟨r, heq⟩ := hostAccess_resets s a hr
    rw [heq]
    exact ⟨rfl, rfl, rfl⟩
  · unfold Access.clearsErr at hc
    split at hc
    · next w hk =>
      simp only [Bool.and_eq_true, beq_iff_eq] at hc
      obtain ⟨⟨hl, hreg⟩, hbit⟩ := hc
      simp only [hostAccess, hl, hk, hostWrite, hreg, if_true]
      exact writeStatus_noReport s hbit
    · cases hc

/-- With ERR = 1, a write to CMD, and while BUSY = 1 one to FLAGS or IOBUF, changes nothing. -/
theorem hostWrite_of_err {s : State} (herr : s.err = true) {off : HostOff} (w : Word32)
    (h : hostReg off = .cmd ∨
      s.busy = true ∧ (hostReg off = .flags ∨ ∃ k, hostReg off = .iobuf k)) :
    hostWrite s off w = s := by
  rcases h with hreg | ⟨hb, hreg⟩
  · rw [hostWrite, hreg]
    exact writeCmd_of_err herr w
  · rw [hostWrite_of_busy hb w hreg, State.raise_of_err herr]

/-- Settles O24: each of the three moves by its lemma; the dropped writes by `hostWrite_of_err`. -/
theorem firstErrorIsLatched : Obligations.FirstErrorIsLatched := by
  refine ⟨fun s t _ herr h => ?_, fun s a herr ha => ?_⟩
  · rcases step_cases h with ⟨hev, he⟩ | ⟨a, hev, rfl⟩ | ⟨hev, rfl⟩
    · rw [hev]
      exact engineStep_latched (s := { s with agenda := s.agenda.tail }) herr he
    · rw [hev]
      dsimp only
      split
      · next hclear => exact hostAccess_noReport _ hclear
      · next hkeep =>
        simp only [not_or, Bool.not_eq_true] at hkeep
        obtain ⟨hr, hc⟩ := hkeep
        exact hostAccess_latched (s := { s with agenda := s.agenda.tail }) herr hr hc
    · rw [hev]
      exact ⟨rfl, rfl, rfl⟩
  · rcases hostAccess_coreOf_cases s a with hcore | ⟨w, -, -, hcore⟩
    · exact hcore
    · rw [hcore, hostWrite_of_err herr w ha]

/-! ### The command in flight (O30; 60_exceptions.md R363, R367) -/

/-- Of the core only CTRL, DONE, ERR and the report can differ from `s` to `u`, and DONE is not set. -/
def Undisturbed (s u : State) : Prop :=
  ∃ ieDone ieErr done err errCode errInfo,
    u.coreOf = { s.coreOf with ieDone, ieErr, done, err, errCode, errInfo } ∧
    (done = true → s.done = true)

theorem Undisturbed.refl (s : State) : Undisturbed s s := ⟨_, _, _, _, _, _, rfl, id⟩

theorem State.raise_undisturbed (s : State) (e : CmdError) (info : Word32) :
    Undisturbed s (s.raise e info) := by
  unfold State.raise
  split
  · exact .refl s
  · exact ⟨_, _, _, _, _, _, rfl, id⟩

theorem writeStatus_undisturbed (s : State) (w : Word32) : Undisturbed s (writeStatus s w) := by
  rw [writeStatus_eq]
  exact ⟨_, _, _, _, _, _, rfl, fun h => (Bool.and_eq_true_iff.mp h).1⟩

/-- While BUSY = 1, a write that does not reset changes CTRL, clears causes or raises. -/
theorem hostWrite_undisturbed {s : State} (hb : s.busy = true) (off : HostOff) (w : Word32)
    (hreset : hostReg off = .ctrl → w.getLsbD 0 = false) : Undisturbed s (hostWrite s off w) := by
  unfold hostWrite
  split
  · next hreg =>
    rw [writeCtrl_of_not_sreset s (hreset hreg)]
    exact ⟨_, _, _, _, _, _, rfl, id⟩
  · exact writeStatus_undisturbed s w
  · rw [writeWhenIdle_of_busy hb]
    exact s.raise_undisturbed _ _
  · rw [writeCmd_of_busy hb]
    exact s.raise_undisturbed _ _
  · rw [writeWhenIdle_of_busy hb]
    exact s.raise_undisturbed _ _
  all_goals exact .refl s

theorem hostAccess_undisturbed {s : State} {a : Access} (hb : s.busy = true) (hr : a.resets = false) :
    Undisturbed s (hostAccess s a) := by
  unfold Undisturbed
  rcases hostAccess_coreOf_cases s a with hcore | ⟨w, hk, hl, hcore⟩
  · rw [hcore]
    exact Undisturbed.refl s
  · rw [hcore]
    exact hostWrite_undisturbed hb a.offset w (sreset_of_not_resets hk hl hr)

/-- A write to FLAGS or IOBUF that is dropped and reported (60_exceptions.md R363, R367). -/
theorem hostAccess_wordWrite_hostBusy {s : State} {off : HostOff} (hal : off.toNat % 4 = 0)
    (hreg : hostReg off = .flags ∨ ∃ k, hostReg off = .iobuf k) (hb : s.busy = true)
    (herr : s.err = false) (w : Word32) :
    hostAccess s (wordWrite off w) =
      { s with
        err := true, errCode := 0x06, errInfo := off.setWidth 32, response := some ⟨0, false⟩ } := by
  rw [hostAccess_wordWrite s off w hal, hostWrite_of_busy hb w hreg, State.raise_of_not_err herr]
  rfl

/-- Settles O30: the frame of an access while BUSY = 1, field by field, and the report of a dropped write. -/
theorem commandInFlightIsUndisturbed : Obligations.CommandInFlightIsUndisturbed := by
  refine fun s a hb hr => ⟨?_, fun w ha hal herr hoff => ?_⟩
  · obtain ⟨_, _, _, _, _, _, hcore, hdone⟩ := hostAccess_undisturbed hb hr
    have hkept {α : Type} (f : State → α) := congrArg f hcore
    exact ⟨hkept State.freg, hkept State.sreg, hkept State.preg, hkept State.areg, hkept State.iobuf,
      hkept State.t, hkept State.acc, hkept State.cur, (hkept State.busy).trans hb, hkept State.cmdcnt,
      fun h => hdone ((hkept State.done).symm.trans h)⟩
  · have hreg : hostReg a.offset = .flags ∨ ∃ k, hostReg a.offset = .iobuf k := by
      rcases hoff with hoff | hoff
      · rw [hoff]
        exact .inl rfl
      · exact .inr ⟨_, hostReg_buffer a.offset hoff⟩
    have heq := (congrArg (hostAccess s) ha).trans (hostAccess_wordWrite_hostBusy hal hreg hb herr w)
    rw [heq]
    exact ⟨rfl, rfl, rfl⟩

/-! ### The race of a FLAGS write with a completion (O31; 60_exceptions.md R372) -/

theorem hostAccess_writeFlags_of_idle {s : State} (hb : s.busy = false) (w : Word32) :
    hostAccess s (wordWrite 0x10 w) =
      { s with t := w.getLsbD 0, acc := w.getLsbD 1, response := some ⟨0, false⟩ } := by
  rw [hostAccess_writeFlags, writeWhenIdle_of_idle hb]

/-- A FLAGS write that comes first while BUSY = 1 (60_exceptions.md R367). -/
theorem step_writeFlags_of_busy {s : State} {w : Word32} {rest : List Event} (hb : s.busy = true)
    (herr : s.err = false) (hag : s.agenda = .host (wordWrite 0x10 w) :: rest) :
    step s = .next { s with
      agenda := rest, err := true, errCode := 0x06, errInfo := 0x10, response := some ⟨0, false⟩ } := by
  have hflags : hostReg 0x10 = .flags := rfl
  rw [step_of_host hag,
    hostAccess_wordWrite_hostBusy (s := { s with agenda := rest }) rfl (.inl hflags) hb herr]
  rfl

theorem step_writeFlags_of_idle {s : State} {w : Word32} {rest : List Event} (hb : s.busy = false)
    (hag : s.agenda = .host (wordWrite 0x10 w) :: rest) :
    step s = .next { s with
      agenda := rest, t := w.getLsbD 0, acc := w.getLsbD 1, response := some ⟨0, false⟩ } := by
  rw [step_of_host hag, hostAccess_writeFlags_of_idle (s := { s with agenda := rest }) hb]

/-- The engine's move performs the well-formed command in flight, which completes within its frame. -/
theorem step_completes {i : Instr} {s : State} {rest : List Event} (hw : wellFormed i = true)
    (hb : s.busy = true) (hc : s.cur = some (encode i)) (hag : s.agenda = .engine :: rest) :
    ∃ u, step s = .next u ∧ Completed s u ∧ Frame i { s with agenda := rest } u := by
  obtain ⟨e, he, heff⟩ := exec_effect i { s with agenda := rest } hw
  have hrun := engineStep_runs (s := { s with agenda := rest }) hb hc (decodeOfEncode i hw)
  exact ⟨e.complete, (step_of_engine hag).trans (hrun.trans he),
    s.complete_completed e heff.cmdcnt, heff.frame.complete⟩

/-- Settles O31: a FLAGS write while idle is applied; before the completion it is reported, and the engine
then completes in the frame of its command; after the completion it is a write while idle. -/
theorem flagsWriteRacesCompletion : Obligations.FlagsWriteRacesCompletion := by
  refine ⟨fun s w hb => ?_, fun i s w hw hb hc herr => ⟨fun rest hag => ?_, fun rest hag => ?_⟩⟩
  · rw [hostAccess_writeFlags_of_idle hb]
    rfl
  · have hstep := step_writeFlags_of_busy hb herr hag
    obtain ⟨u, hu, hdone, hframe⟩ := step_completes (s := { s with
      agenda := .engine :: rest, err := true, errCode := 0x06, errInfo := 0x10,
      response := some ⟨0, false⟩ }) hw hb hc rfl
    obtain ⟨huerr, hucode, -⟩ := hframe.report
    exact ⟨_, u, hstep, hu, rfl, rfl, rfl, rfl, rfl, hdone.busy, huerr, hucode⟩
  · obtain ⟨t, ht, hdone, hframe⟩ := step_completes hw hb hc hag
    obtain ⟨hterr, -, -⟩ := hframe.report
    obtain ⟨htagenda, -⟩ := hframe.model
    exact ⟨t, _, ht, step_writeFlags_of_idle hdone.busy htagenda, hdone.busy, hterr.trans herr, rfl, rfl⟩

end Sys2Proof.Machine
end

section
/-!
The reset and hazards family: what a reset leaves, the launch premises that a step keeps while no unchecked
load is performed, and the protocol for one command (70_reset_and_hazards.md R400-R412).
-/

namespace Sys2Proof.Machine

/-! ### JUNK and the curve (O13; 70_reset_and_hazards.md R405) -/

/-- The engine's move that answers a next state: nothing while idle, else the accepted command of CUR. -/
theorem engineStep_next_cur {s t : State} (h : engineStep s = .next t) :
    t = s ∨ ∃ w i, s.cur = some w ∧ decode w = .ok i ∧ exec i s = .next t := by
  unfold engineStep at h
  split at h
  · split at h
    · next i hi =>
      unfold commandInFlight at hi
      split at hi
      · cases hi
      · next w hc =>
        split at hi
        · next hd =>
          cases hi
          exact .inr ⟨w, i, hc, hd, h⟩
        · cases hi
    · cases h
  · cases h
    exact .inl rfl

theorem fromAffine_ne_junk {a : Affine} (h : a.onCurve = true) : fromAffine a ≠ .junk := by
  cases hinf : a.inf with
  | true => simp [fromAffine_of_inf hinf]
  | false =>
    rw [Affine.onCurve_of_not_inf hinf] at h
    simp [fromAffine_of_onCurve hinf h]

theorem PVal.map_ne_junk {v : PVal} (h : v ≠ .junk) (f : Point → Point) : v.map f ≠ .junk := by
  cases v with
  | pt q => exact nofun
  | junk => exact absurd rfl h

theorem PVal.map2_ne_junk {v v' : PVal} (h : v ≠ .junk) (h' : v' ≠ .junk)
    (f : Point → Point → Point) : v.map2 f v' ≠ .junk := by
  cases v with
  | junk => exact absurd rfl h
  | pt q =>
    cases v' with
    | junk => exact absurd rfl h'
    | pt q' => exact nofun

theorem addMixed_ne_junk {v : PVal} {a : Affine} (hv : v ≠ .junk) (ha : a.onCurve = true) :
    addMixed v a ≠ .junk := by
  cases hinf : a.inf with
  | true => rwa [addMixed_of_inf v hinf]
  | false =>
    rw [addMixed_of_onCurve v hinf ha]
    exact PVal.map2_ne_junk hv (v' := .pt _) nofun _

/-- From points and values on the curve no command computes JUNK. -/
theorem WrittenP.ne_junk {s : State} {v : PVal} (h : WrittenP s v) (hj : NoJunk s)
    (hc : OnCurveA s) : v ≠ .junk := by
  cases h with
  | copied a => exact hj a
  | constant q hq => exact nofun
  | ofAffine a => exact fromAffine_ne_junk (hc a)
  | mixed a b => exact addMixed_ne_junk (hj a) (hc b)
  | unary a f hf => exact PVal.map_ne_junk (hj a) f
  | binary a b f hf => exact PVal.map2_ne_junk (hj a) (hj b) f

theorem Affine.onCurve_neg {a : Affine} (h : a.onCurve = true) : a.neg.onCurve = true := by
  cases hinf : a.inf with
  | true =>
    rw [Affine.neg_of_inf hinf]
    rfl
  | false =>
    rw [Affine.onCurve_of_not_inf hinf] at h
    rw [Affine.neg_of_not_inf hinf]
    exact Point.neg_onCurve (q := .affine a.x a.y) h

theorem Point.OnCurve.toAffine {q : Point} (h : q.OnCurve) : q.toAffine.onCurve = true := by
  cases q with
  | infinity => rfl
  | affine x y => exact h

/-- The compressed decoder takes y as a root of x³ + 4, of either sign (43_g1_affine_codec.md R305). -/
theorem decodeCompressed_onCurve (bs : List Byte) : (decodeCompressed bs).1.onCurve = true := by
  unfold decodeCompressed
  dsimp only
  split
  · rfl
  split
  · rfl
  split
  · rfl
  split
  · rfl
  next hroot =>
    rw [Bool.not_eq_true', Bool.not_eq_false] at hroot
    exact (onCurve_signedRoot _ _ _).trans hroot

/-- Without JUNK, only an unchecked load leaves the curve. -/
theorem WrittenA.onCurve {i : Instr} {s : State} {v : Affine} (h : WrittenA i s v)
    (hp : PointsOnCurve s) (hj : NoJunk s) (hc : OnCurveA s)
    (hi : ∀ d off, i ≠ .alduu d off) : v.onCurve = true := by
  cases h with
  | copied a => exact hc a
  | identity => rfl
  | generator => exact generator_onCurve
  | negated a => exact Affine.onCurve_neg (hc a)
  | endo a => exact (Affine.onCurve_endo _).trans (hc a)
  | ofPoint a q hq =>
    have hcurve := hp a
    rw [hq] at hcurve
    exact Point.OnCurve.toAffine hcurve
  | drawn a n hjunk => exact absurd hjunk (hj a)
  | compressed bs hok => exact decodeCompressed_onCurve bs
  | checked bs hok hcurve => exact hcurve
  | unchecked d off heq => exact absurd heq (hi d off)

/-- No host access but a reset touches the P and A files. -/
theorem HostEffect.reset_or_points_kept {s e : State} (h : HostEffect s e) :
    e = s.doReset ∨ (e.preg = s.preg ∧ e.areg = s.areg) := by
  cases h with
  | reset => exact .inl rfl
  | raised e info =>
    unfold State.raise
    split <;> exact .inr ⟨rfl, rfl⟩
  | _ => exact .inr ⟨rfl, rfl⟩

theorem doReset_noJunk (s : State) : NoJunk s.doReset := by
  intro k
  obtain ⟨-, -, hP, -⟩ := reset_registers k
  exact fun hjunk => nomatch hP.symm.trans hjunk

theorem doReset_onCurveA (s : State) : OnCurveA s.doReset := by
  intro k
  obtain ⟨-, -, -, hA⟩ := reset_registers k
  exact congrArg Affine.onCurve hA

theorem hostAccess_noJunk_onCurveA {s : State} (hj : NoJunk s) (hc : OnCurveA s) (a : Access) :
    NoJunk (hostAccess s a) ∧ OnCurveA (hostAccess s a) := by
  obtain ⟨e, r, heq, heff⟩ := hostAccess_effect s a
  rw [heq]
  rcases heff.reset_or_points_kept with rfl | ⟨hP, hA⟩
  · exact ⟨doReset_noJunk s, doReset_onCurveA s⟩
  · simp only [NoJunk, OnCurveA, State.getP, State.getA, hP, hA]
    exact ⟨hj, hc⟩

/-- Settles O13: a command computes JUNK only from JUNK or from a value off the curve, and leaves the curve
only by a draw for JUNK or an unchecked load; no host access but a reset touches the two files. -/
theorem noJunkWithoutUncheckedLoads : Obligations.NoJunkWithoutUncheckedLoads := by
  intro s t hp hj hc h hcur
  rcases step_cases h with ⟨-, he⟩ | ⟨a, -, rfl⟩ | ⟨-, rfl⟩
  · rcases engineStep_next_cur he with rfl | ⟨w, i, hw, hd, hi⟩
    · exact ⟨hj, hc⟩
    · have hwf := decode_wellFormed hd
      have hload (d : RegIdx) (off : BufOff) : i ≠ .alduu d off := by
        rintro rfl
        exact hcur w d off hw hd
      exact ⟨fun k => (exec_writtenP hwf hi k).ne_junk hj hc,
        fun k => (exec_writtenA hwf hi k).onCurve hp hj hc hload⟩
  · exact hostAccess_noJunk_onCurveA (s := { s with agenda := s.agenda.tail }) hj hc a
  · exact ⟨doReset_noJunk _, doReset_onCurveA _⟩

/-! ### The protocol for one command (O32; 70_reset_and_hazards.md R406) -/

/-- From an idle state without error, the write of an accepted word to CMD puts it in flight. -/
theorem step_writeCmd_accepted {s : State} {w : Word32} {i : Instr} {rest : List Event}
    (herr : s.err = false) (hb : s.busy = false) (hd : decode w = .ok i)
    (hag : s.agenda = .host (wordWrite 0x14 w) :: rest) :
    step s = .next { s with
      agenda := rest, busy := true, cur := some w, response := some ⟨0, false⟩ } := by
  rw [step_of_host hag, hostAccess_writeCmd,
    writeCmd_of_decode (s := { s with agenda := rest }) herr hb hd]

/-- The engine's move performs the well-formed command in flight. -/
theorem step_performs {i : Instr} {s : State} {rest : List Event} (hw : wellFormed i = true)
    (hb : s.busy = true) (hc : s.cur = some (encode i)) (hag : s.agenda = .engine :: rest) :
    step s = exec i { s with agenda := rest } :=
  (step_of_engine hag).trans
    (engineStep_runs (s := { s with agenda := rest }) hb hc (decodeOfEncode i hw))

theorem run_two {M : Host.Core} {s t u : M.State} (hst : M.step s = .next t)
    (htu : M.step t = .next u) : M.run 2 s = .next u := by
  simp only [Host.Core.run, hst, htu]

/-- Settles O32: the write is accepted, and the engine's move performs the command, which completes within
its frame. -/
theorem issuedCommandIsPerformed : Obligations.IssuedCommandIsPerformed := by
  rintro i s hw ⟨hb, -⟩ herr hag
  have hwrite := step_writeCmd_accepted herr hb (decodeOfEncode i hw) hag
  obtain ⟨t, ht, hdone, hframe⟩ := step_completes (s := { s with
    agenda := [.engine], busy := true, cur := some (encode i), response := some ⟨0, false⟩ })
    hw rfl rfl rfl
  have hexec := ht.symm.trans (step_performs hw rfl rfl rfl)
  obtain ⟨hterr, -, -⟩ := hframe.report
  obtain ⟨htagenda, -⟩ := hframe.model
  exact ⟨t, _, run_two (M := core) hwrite ht, ⟨htagenda, hdone.busy⟩, hterr.trans herr, hdone.done,
    hdone.count, hexec.symm⟩

/-! ### Reset (O9, O10; 70_reset_and_hazards.md R400, R401) -/

/-- Settles O9: the reset state is its own reset, which meets what the steps keep; the other premises are
its own fields. -/
theorem resetMeetsThePremises : Obligations.ResetMeetsThePremises :=
  ⟨doReset_inv State.reset, doReset_pointsOnCurve State.reset, rfl, ⟨rfl, rfl⟩, rfl, rfl,
    doReset_noJunk State.reset, doReset_onCurveA State.reset⟩

theorem writeCtrl_of_sreset (s : State) {w : Word32} (h : w.getLsbD 0 = true) :
    writeCtrl s w = s.doReset := by
  rw [writeCtrl, if_pos h]

/-- Settles O10: both events are `doReset`, which leaves only the model's own fields. -/
theorem resetEventsResetEverything : Obligations.ResetEventsResetEverything := by
  refine ⟨fun s rest h => ⟨_, step_of_hardReset h, State.coreOf_doReset _, rfl⟩, fun s w h => ?_⟩
  rw [hostAccess_writeCtrl, writeCtrl_of_sreset s h]
  exact ⟨State.coreOf_doReset s, rfl⟩

end Sys2Proof.Machine
end
